-- ==== Sys2Proof/Word.lean ====
section
/-! DEFINITION. The word types of the HWSL2 core engine: bytes, field elements, slots, and the two
shapes of a 2×2 matrix (spec/00_scope.md R8, R9, R11; spec/10_state.md R20, R21). -/

namespace Sys2Proof

/-- One byte of a stream or of a footprint. -/
abbrev Byte := BitVec 8

/-- A field element: a polynomial over GF(2) of degree < 127, bit i the coefficient of x^i (R9). -/
abbrev Fe := BitVec 127

/-- One 128-bit slot of a matrix register: bits 126..0 the field element, bit 127 the range bit (R21). -/
abbrev Slot := BitVec 128

/-- The number of a matrix register, 0..7 (R20). -/
abbrev MIdx := Fin 8

/-- The number of an element register, 0..31 (R23). -/
abbrev EIdx := Fin 32

/-- The content of a matrix register: four raw slots in the order a, b, c, d, denoting
`[[a, b], [c, d]]` (R11, R20). -/
structure Mat where
  a : Slot
  b : Slot
  c : Slot
  d : Slot
  deriving DecidableEq, Repr

/-- A matrix of four field elements (R11): what the arithmetic of R120 to R123 works on. -/
structure FMat where
  a : Fe
  b : Fe
  c : Fe
  d : Fe
  deriving DecidableEq, Repr

end Sys2Proof
end

