-- ==== Sys2Proof/Config.lean ====
section
/-! DEFINITION. What is fixed for one engine: the parameters of spec/00_scope.md R6 and the pair of bit
generators, the engine's only open parameters (spec/43_generator.md R140, R144). -/

namespace Sys2Proof

/-- `LENMAX`: the largest item count of one command, the largest 14-bit number (R6, R72). -/
def lenMax : Nat := 16383

/-- The largest byte count of one chunk of a fold, the largest 16-bit number (R74). -/
def chunkMax : Nat := 65535

/-- The reduction polynomial `P = x^127 + x^63 + 1` as a 128-bit number (R6). -/
def reductionPoly : BitVec 128 := 0x80000000000000008000000000000001#128

/-- `FOOT`: the bytes of a register footprint (R6). -/
def footBytes : Nat := 64

/-- The two bit generators, `g0` for an input bit 0 and `g1` for an input bit 1 (R140): each a matrix of
four field elements. The spec leaves their values open. -/
structure GenPair where
  g0 : FMat
  g1 : FMat
  deriving DecidableEq, Repr

/-- The default pair of R144: `G0 = [[x, 1], [1, 0]]`, `G1 = [[x, x+1], [1, 1]]`. PRESUMED (the spec
itself marks it as general knowledge, not from its source): unsafe where a claim rests on it; log entry 1. -/
def GenPair.default : GenPair where
  g0 := ⟨2#127, 1#127, 1#127, 0#127⟩
  g1 := ⟨2#127, 3#127, 1#127, 1#127⟩

end Sys2Proof
end

