-- ==== Sys2Proof/Machine/Arith.lean ====
section
/-! DEFINITION. Polynomial arithmetic over GF(2) and the field GF(2^127) (spec/00_scope.md R9, R10;
spec/41_field.md R100 to R103). A polynomial of any width is a natural number, bit i the coefficient of
x^i: R8 shifts "on unbounded-width integers". -/

namespace Sys2Proof

/-- `deg(v)`, the index of the highest set bit (R9). R9 never asks for the degree of 0. -/
def deg (p : Nat) : Nat := p.log2

/-- The product after the first `i` rounds of the loop of R10:
`if b[i] = 1: r = r ^ (a << i)`. -/
def clmulRounds (a b : Nat) : Nat → Nat
  | 0 => 0
  | i + 1 => if b.testBit i then clmulRounds a b i ^^^ (a <<< i) else clmulRounds a b i

/-- `clmul(a, b)`: the carry-less product (R10), of m + n - 1 bits. -/
def clmul {m n : Nat} (a : BitVec m) (b : BitVec n) : Nat := clmulRounds a.toNat b.toNat n

/-- The loop of `polymod` (R10), `fuel` rounds at most:
`while p != 0 and deg(p) >= deg(q): p = p ^ (q << (deg(p) - deg(q)))`. -/
def polymodRounds (q : Nat) : Nat → Nat → Nat
  | 0, p => p
  | fuel + 1, p =>
    if p ≠ 0 ∧ deg q ≤ deg p then polymodRounds q fuel (p ^^^ (q <<< (deg p - deg q))) else p

/-- `polymod(p, q)`: the remainder of p divided by q, q nonzero (R10). Each round lowers the degree of p
or makes it 0, so `deg p + 1` rounds reach the end of the loop. -/
def polymod (p q : Nat) : Nat := polymodRounds q (deg p + 1) p

/-- `reduce(p) = polymod(p, P)[126:0]` (R10). -/
def reduce (p : Nat) : Fe := BitVec.ofNat 127 (polymod p reductionPoly.toNat)

/-- `fadd` (R100): bitwise XOR. -/
def fadd (a b : Fe) : Fe := a ^^^ b

/-- `fmul` (R101): the carry-less product reduced modulo P. -/
def fmul (a b : Fe) : Fe := reduce (clmul a b)

/-- `fmuladd` (R102): the product of the first two plus the third (the reading of the spec's D15). -/
def fmuladd (a b c : Fe) : Fe := fadd (fmul a b) c

/-- `feq` (R103): equality bit for bit. -/
def feq (a b : Fe) : Bool := a == b

/-- One fold of R104: `L ^ H ^ (H << 63)` with L the low 127 bits and H the rest, the identity
`x^127 = x^63 + 1`. -/
def foldOnce (p : Nat) : Nat := (p % 2 ^ 127) ^^^ (p >>> 127) ^^^ ((p >>> 127) <<< 63)

/-- The reduction by two folds of R104, which states it equal to `reduce` on products of at most 253
bits. The model reduces by `reduce`. -/
def reduceTwoFold (p : Nat) : Fe := BitVec.ofNat 127 (foldOnce (foldOnce p))

end Sys2Proof
end

