-- ==== Sys2Proof/Machine/Matrix.lean ====
section
/-! DEFINITION. The matrix functions (spec/42_group.md R120 to R125), the generator table
(spec/43_generator.md R141) and the folding functions (spec/44_engine.md R150 to R152, R156, R159), over
matrices of field elements and for any generator pair. -/

namespace Sys2Proof

/-- `IDENT` (R120). -/
def ident : FMat := ⟨1, 0, 0, 1⟩

/-- `mmul(X, Y)` (R122): row times column, X the left factor. -/
def mmul (X Y : FMat) : FMat where
  a := fadd (fmul X.a Y.a) (fmul X.b Y.c)
  b := fadd (fmul X.a Y.b) (fmul X.b Y.d)
  c := fadd (fmul X.c Y.a) (fmul X.d Y.c)
  d := fadd (fmul X.c Y.b) (fmul X.d Y.d)

/-- `det(X)` (R123). -/
def det (X : FMat) : Fe := fadd (fmul X.a X.d) (fmul X.b X.c)

/-- The determinant is 1: the half of `valid` (R124) that is left for a matrix of field elements. -/
def FMat.valid (X : FMat) : Bool := det X == 1

/-- The premise of R140: both generators are valid. -/
def GenPair.valid (G : GenPair) : Bool := G.g0.valid && G.g1.valid

/-! ### Register values -/

/-- `canon(s)` for a slot (R121): the range bit is 0. -/
def Slot.canon (s : Slot) : Bool := !s.getLsbD 127

/-- The field element of a canonical slot, `s[126:0]`; none when the range bit is set (R111). -/
def Slot.fe? (s : Slot) : Option Fe := if Slot.canon s then some (s.setWidth 127) else none

/-- `canon(M)` (R121). -/
def Mat.canon (M : Mat) : Bool := Slot.canon M.a && Slot.canon M.b && Slot.canon M.c && Slot.canon M.d

/-- Bits 126..0 of the four slots, as R124 takes them. -/
def Mat.elements (M : Mat) : FMat :=
  ⟨M.a.setWidth 127, M.b.setWidth 127, M.c.setWidth 127, M.d.setWidth 127⟩

/-- The matrix of field elements of a canonical register value; none when a range bit is set (R165). -/
def Mat.field? (M : Mat) : Option FMat := if M.canon then some M.elements else none

/-- The register value of a matrix of field elements: each slot `zext_128` of its element. -/
def FMat.reg (X : FMat) : Mat :=
  ⟨X.a.setWidth 128, X.b.setWidth 128, X.c.setWidth 128, X.d.setWidth 128⟩

/-- `valid(M)` (R124). -/
def Mat.valid (M : Mat) : Bool := M.canon && M.elements.valid

/-- `meq(M, N)` (R125): the 512-bit values are equal. -/
def meq (M N : Mat) : Bool := M == N

/-- `mcmp(M, N)` (R125): lexicographic over (a, b, c, d), each slot an unsigned 128-bit integer. -/
def mcmp (M N : Mat) : Ordering :=
  if M.a ≠ N.a then order M.a N.a
  else if M.b ≠ N.b then order M.b N.b
  else if M.c ≠ N.c then order M.c N.c
  else if M.d ≠ N.d then order M.d N.d
  else .eq
where
  /-- The order of two slots that differ. -/
  order (x y : Slot) : Ordering := if x.toNat < y.toNat then .lt else .gt

/-! ### The generator table and the folds -/

/-- `G_t` (R141): the generator of one bit. -/
def GenPair.bit (G : GenPair) (t : Bool) : FMat := if t then G.g1 else G.g0

/-- `GT[v]` (R141): the product of the eight bit generators of v, bit 7 the leftmost factor. -/
def GT (G : GenPair) (v : Byte) : FMat :=
  [6, 5, 4, 3, 2, 1, 0].foldl (fun X i => mmul X (G.bit (v.getLsbD i))) (G.bit (v.getLsbD 7))

/-- `append(H, s)` (R150): the table entry goes on the right, first byte first. -/
def appendBytes (G : GenPair) (H : FMat) (s : List Byte) : FMat :=
  s.foldl (fun H v => mmul H (GT G v)) H

/-- `prepend(s, H)` (R151): the table entry goes on the left, last byte first. -/
def prependBytes (G : GenPair) (s : List Byte) (H : FMat) : FMat :=
  s.foldr (fun v H => mmul (GT G v) H) H

/-- `hash(s)` (R152). -/
def hashBytes (G : GenPair) (s : List Byte) : FMat := appendBytes G ident s

/-- `foldAppend(H, cs)` (R156): left to right over the chunks. -/
def foldAppend (G : GenPair) (H : FMat) (cs : List (List Byte)) : FMat := cs.foldl (appendBytes G) H

/-- `foldPrepend(cs, H)` (R156): the last chunk is prepended first (spec/90_conflicts.md C6). -/
def foldPrepend (G : GenPair) (cs : List (List Byte)) (H : FMat) : FMat := cs.foldr (prependBytes G) H

/-- The product of R159: the identity for no factor, one factor itself, otherwise a left fold. -/
def concatAll : List FMat → FMat
  | [] => ident
  | X :: Xs => Xs.foldl mmul X

end Sys2Proof
end

