-- ==== Sys2Proof/Machine/Bytes.lean ====
section
/-! DEFINITION. Byte order, decided once: everything is little-endian (spec/20_memory.md R51 to R53,
spec/30_encoding.md R81; the spec's own decision D5, log entry 8), and the readers that take a counted number of
items from the front of a byte stream (R74). -/

namespace Sys2Proof

/-- The number whose base-2^w digits are the words of a list, least significant first:
`sum over j of word_j << (w * j)` (R81, R170). -/
def leNat {w : Nat} : List (BitVec w) → Nat
  | [] => 0
  | x :: xs => x.toNat + 2 ^ w * leNat xs

/-- The first `n` base-2^w digits of a number, least significant first: word j is bits
`w*j + w-1 .. w*j` (R53). -/
def leDigits (w : Nat) : Nat → Nat → List (BitVec w)
  | 0, _ => []
  | n + 1, v => BitVec.ofNat w v :: leDigits w n (v / 2 ^ w)

/-- The next `n` bytes of a stream and the bytes after them; none while fewer have arrived (R76). -/
def takeBytes : Nat → List Byte → Option (List Byte × List Byte)
  | 0, bs => some ([], bs)
  | _ + 1, [] => none
  | n + 1, b :: bs =>
    match takeBytes n bs with
    | some (xs, rest) => some (b :: xs, rest)
    | none => none

/-- The next `n` words of `k` bytes each, a word's least significant byte first (R74, R81). -/
def takeWords (w k : Nat) : Nat → List Byte → Option (List (BitVec w) × List Byte)
  | 0, bs => some ([], bs)
  | n + 1, bs =>
    match takeBytes k bs with
    | some (x, bs') =>
      match takeWords w k n bs' with
      | some (xs, rest) => some (BitVec.ofNat w (leNat x) :: xs, rest)
      | none => none
    | none => none

/-- The next `n` chunks, each a 16-bit little-endian byte count followed by that many bytes (R74, R81). -/
def takeChunks : Nat → List Byte → Option (List (List Byte) × List Byte)
  | 0, bs => some ([], bs)
  | n + 1, lo :: hi :: bs =>
    match takeBytes (leNat [lo, hi]) bs with
    | some (c, bs') =>
      match takeChunks n bs' with
      | some (cs, rest) => some (c :: cs, rest)
      | none => none
    | none => none
  | _ + 1, _ => none

/-- The bytes of a list of words of `k` bytes each, as they travel on a stream (R53). -/
def wordBytes {w : Nat} (k : Nat) (ws : List (BitVec w)) : List Byte :=
  ws.flatMap fun x => leDigits 8 k x.toNat

/-- The payload bytes of a list of chunks (R74). -/
def chunkBytes (cs : List (List Byte)) : List Byte :=
  cs.flatMap fun c => leDigits 8 2 c.length ++ c

end Sys2Proof
end

