-- ==== Sys2Proof/Syntax.lean ====
section
/-! DEFINITION. The 29 commands of the command set SL2E-1, one constructor per row of
spec/opcode_table.json (spec/30_encoding.md R79), each with its operands in the order of R83. A payload
form carries its payload as the list of items its `LEN` counts (R74). -/

namespace Sys2Proof

/-- One legal command. Register operands are numbers that cannot be out of range (R77); the register
numbers of a CONCATALL payload are raw bytes, since R159 checks them when the command executes. -/
inductive Instr where
  /-- FADD ed, ea, eb (R106). -/
  | fadd (ed ea eb : EIdx)
  /-- FMUL ed, ea, eb (R107). -/
  | fmul (ed ea eb : EIdx)
  /-- FMULADD ed, ea, eb, ec (R108). -/
  | fmuladd (ed ea eb ec : EIdx)
  /-- FEQ ea, eb (R109). -/
  | feq (ea eb : EIdx)
  /-- UNIT md (R128). -/
  | unit (md : MIdx)
  /-- MMUL md, ma, mb (R133); also CONCAT and MULTIPLY (R84). -/
  | mmul (md ma mb : MIdx)
  /-- ISVALID ma (R129). -/
  | isvalid (ma : MIdx)
  /-- VALIDATE md, ma (R130). -/
  | validate (md ma : MIdx)
  /-- MEQ ma, mb (R131). -/
  | meq (ma mb : MIdx)
  /-- MCMP ma, mb (R132). -/
  | mcmp (ma mb : MIdx)
  /-- BYTEMAT md, imm8 (R142). -/
  | bytemat (md : MIdx) (imm8 : Byte)
  /-- HASH md, bytes (R153). -/
  | hash (md : MIdx) (msg : List Byte)
  /-- APPEND md, ms, bytes (R154). -/
  | append (md ms : MIdx) (msg : List Byte)
  /-- PREPEND md, ms, bytes (R155): the bytes in message order. -/
  | prepend (md ms : MIdx) (msg : List Byte)
  /-- FOLDAPP md, ms, [chunks] (R157). -/
  | foldapp (md ms : MIdx) (chunks : List (List Byte))
  /-- FOLDPRE md, ms, [chunks] (R158): the chunks in text order. -/
  | foldpre (md ms : MIdx) (chunks : List (List Byte))
  /-- CONCATALL md, [register numbers] (R159). -/
  | concatall (md : MIdx) (regs : List Byte)
  /-- PACK8 md, 8-bit words (R171). -/
  | pack8 (md : MIdx) (ws : List (BitVec 8))
  /-- PACK16 md, 16-bit words (R172). -/
  | pack16 (md : MIdx) (ws : List (BitVec 16))
  /-- PACK32 md, 32-bit words (R173). -/
  | pack32 (md : MIdx) (ws : List (BitVec 32))
  /-- PACK64 md, 64-bit words (R174). -/
  | pack64 (md : MIdx) (ws : List (BitVec 64))
  /-- UNPACK8 ma (R176). -/
  | unpack8 (ma : MIdx)
  /-- UNPACK16 ma (R177). -/
  | unpack16 (ma : MIdx)
  /-- UNPACK32 ma (R178). -/
  | unpack32 (ma : MIdx)
  /-- UNPACK64 ma (R179). -/
  | unpack64 (ma : MIdx)
  /-- SHOW ma (R181). -/
  | showm (ma : MIdx)
  /-- PARSE md, text (R183): one byte per character. -/
  | parse (md : MIdx) (text : List Byte)
  /-- LOADU md, bytes (R184). -/
  | loadu (md : MIdx) (ws : List (BitVec 8))
  /-- RDST (R200). -/
  | rdst
  deriving DecidableEq, Repr

end Sys2Proof
end

