-- ==== Sys2Proof/WellFormed.lean ====
section
/-! DEFINITION. Which commands an encoding can carry: the item count fits the 14-bit `LEN` field and a
chunk's byte count its 16-bit field (spec/30_encoding.md R72, R74). A list of the wrong length for its
mnemonic is still well formed: it assembles, and fails when it executes (R83). -/

namespace Sys2Proof

/-- The item count fits the `LEN` field (R72: 0..16383). -/
def lenFits {α : Type} (xs : List α) : Bool := decide (xs.length ≤ lenMax)

/-- Every chunk's byte count fits its 16-bit field (R74: 0..65535). -/
def chunksFit (cs : List (List Byte)) : Bool := cs.all fun c => decide (c.length ≤ chunkMax)

/-- The command has an encoding. -/
def Instr.wellFormed : Instr → Bool
  | .fadd _ _ _ => true
  | .fmul _ _ _ => true
  | .fmuladd _ _ _ _ => true
  | .feq _ _ => true
  | .unit _ => true
  | .mmul _ _ _ => true
  | .isvalid _ => true
  | .validate _ _ => true
  | .meq _ _ => true
  | .mcmp _ _ => true
  | .bytemat _ _ => true
  | .hash _ msg => lenFits msg
  | .append _ _ msg => lenFits msg
  | .prepend _ _ msg => lenFits msg
  | .foldapp _ _ chunks => lenFits chunks && chunksFit chunks
  | .foldpre _ _ chunks => lenFits chunks && chunksFit chunks
  | .concatall _ regs => lenFits regs
  | .pack8 _ ws => lenFits ws
  | .pack16 _ ws => lenFits ws
  | .pack32 _ ws => lenFits ws
  | .pack64 _ ws => lenFits ws
  | .unpack8 _ => true
  | .unpack16 _ => true
  | .unpack32 _ => true
  | .unpack64 _ => true
  | .showm _ => true
  | .parse _ text => lenFits text
  | .loadu _ ws => lenFits ws
  | .rdst => true

end Sys2Proof
end

