-- ==== Sys2Proof/Decode.lean ====
section
/-! DEFINITION. The command decoder and, after it, the encoder (spec/30_encoding.md R70 to R82). Decoding
is total on any byte sequence (R75): the bytes in front of a stream are an incomplete command, an illegal
one (rejected by the cause of spec/60_exceptions.md R211, its payload consumed all the same), or a command. -/

namespace Sys2Proof

/-- The 29 assigned opcodes (R79), by mnemonic. -/
inductive Opcode where
  | fadd
  | fmul
  | fmuladd
  | feq
  | unit
  | mmul
  | isvalid
  | validate
  | meq
  | mcmp
  | bytemat
  | hash
  | append
  | prepend
  | foldapp
  | foldpre
  | concatall
  | pack8
  | pack16
  | pack32
  | pack64
  | unpack8
  | unpack16
  | unpack32
  | unpack64
  | showm
  | parse
  | loadu
  | rdst
  deriving DecidableEq, Repr

/-- The opcode numbers of R79. -/
def Opcode.code : Opcode → Byte
  | .fadd => 0x01#8
  | .fmul => 0x02#8
  | .fmuladd => 0x03#8
  | .feq => 0x04#8
  | .unit => 0x10#8
  | .mmul => 0x11#8
  | .isvalid => 0x12#8
  | .validate => 0x13#8
  | .meq => 0x14#8
  | .mcmp => 0x15#8
  | .bytemat => 0x20#8
  | .hash => 0x30#8
  | .append => 0x31#8
  | .prepend => 0x32#8
  | .foldapp => 0x33#8
  | .foldpre => 0x34#8
  | .concatall => 0x35#8
  | .pack8 => 0x40#8
  | .pack16 => 0x41#8
  | .pack32 => 0x42#8
  | .pack64 => 0x43#8
  | .unpack8 => 0x44#8
  | .unpack16 => 0x45#8
  | .unpack32 => 0x46#8
  | .unpack64 => 0x47#8
  | .showm => 0x48#8
  | .parse => 0x49#8
  | .loadu => 0x4A#8
  | .rdst => 0x50#8

/-- Every assigned opcode, in the order of R79. -/
def Opcode.all : List Opcode :=
  [
   .fadd, .fmul, .fmuladd, .feq, .unit, .mmul, .isvalid, .validate, .meq, .mcmp, .bytemat, .hash,
   .append, .prepend, .foldapp, .foldpre, .concatall, .pack8, .pack16, .pack32, .pack64, .unpack8,
   .unpack16, .unpack32, .unpack64, .showm, .parse, .loadu, .rdst]

/-- The opcode a first byte stands for; none for the 227 unassigned values (R80). -/
def Opcode.ofByte (b : Byte) : Option Opcode := Opcode.all.find? fun o => o.code == b

/-- The opcode of a command. -/
def Instr.opcode : Instr → Opcode
  | .fadd _ _ _ => .fadd
  | .fmul _ _ _ => .fmul
  | .fmuladd _ _ _ _ => .fmuladd
  | .feq _ _ => .feq
  | .unit _ => .unit
  | .mmul _ _ _ => .mmul
  | .isvalid _ => .isvalid
  | .validate _ _ => .validate
  | .meq _ _ => .meq
  | .mcmp _ _ => .mcmp
  | .bytemat _ _ => .bytemat
  | .hash _ _ => .hash
  | .append _ _ _ => .append
  | .prepend _ _ _ => .prepend
  | .foldapp _ _ _ => .foldapp
  | .foldpre _ _ _ => .foldpre
  | .concatall _ _ => .concatall
  | .pack8 _ _ => .pack8
  | .pack16 _ _ => .pack16
  | .pack32 _ _ => .pack32
  | .pack64 _ _ => .pack64
  | .unpack8 _ => .unpack8
  | .unpack16 _ => .unpack16
  | .unpack32 _ => .unpack32
  | .unpack64 _ => .unpack64
  | .showm _ => .showm
  | .parse _ _ => .parse
  | .loadu _ _ => .loadu
  | .rdst => .rdst

/-- One row of spec/opcode_table.json: a header `W` is a legal command of the row exactly when
`W & mask = value`. -/
structure TableRow where
  opcode : Opcode
  value : BitVec 32
  mask : BitVec 32
  deriving DecidableEq, Repr

/-- The `match` and `mask` columns of spec/opcode_table.json, transcribed. The decoder below does not use
them: it is written from R71 to R79, and the two are compared. -/
def opcodeTable : List TableRow :=
  [
   ⟨.fadd, 0x00000001#32, 0xFF8000FF#32⟩,
   ⟨.fmul, 0x00000002#32, 0xFF8000FF#32⟩,
   ⟨.fmuladd, 0x00000003#32, 0xF00000FF#32⟩,
   ⟨.feq, 0x00000004#32, 0xFF801FFF#32⟩,
   ⟨.unit, 0x00000010#32, 0xFFFFF8FF#32⟩,
   ⟨.mmul, 0x00000011#32, 0xFFE318FF#32⟩,
   ⟨.isvalid, 0x00000012#32, 0xFFFF1FFF#32⟩,
   ⟨.validate, 0x00000013#32, 0xFFFF18FF#32⟩,
   ⟨.meq, 0x00000014#32, 0xFFE31FFF#32⟩,
   ⟨.mcmp, 0x00000015#32, 0xFFE31FFF#32⟩,
   ⟨.bytemat, 0x00000020#32, 0xFC03F8FF#32⟩,
   ⟨.hash, 0x00000030#32, 0x0003F8FF#32⟩,
   ⟨.append, 0x00000031#32, 0x000318FF#32⟩,
   ⟨.prepend, 0x00000032#32, 0x000318FF#32⟩,
   ⟨.foldapp, 0x00000033#32, 0x000318FF#32⟩,
   ⟨.foldpre, 0x00000034#32, 0x000318FF#32⟩,
   ⟨.concatall, 0x00000035#32, 0x0003F8FF#32⟩,
   ⟨.pack8, 0x00000040#32, 0x0003F8FF#32⟩,
   ⟨.pack16, 0x00000041#32, 0x0003F8FF#32⟩,
   ⟨.pack32, 0x00000042#32, 0x0003F8FF#32⟩,
   ⟨.pack64, 0x00000043#32, 0x0003F8FF#32⟩,
   ⟨.unpack8, 0x00000044#32, 0xFFFF1FFF#32⟩,
   ⟨.unpack16, 0x00000045#32, 0xFFFF1FFF#32⟩,
   ⟨.unpack32, 0x00000046#32, 0xFFFF1FFF#32⟩,
   ⟨.unpack64, 0x00000047#32, 0xFFFF1FFF#32⟩,
   ⟨.showm, 0x00000048#32, 0xFFFF1FFF#32⟩,
   ⟨.parse, 0x00000049#32, 0x0003F8FF#32⟩,
   ⟨.loadu, 0x0000004A#32, 0x0003F8FF#32⟩,
   ⟨.rdst, 0x00000050#32, 0xFFFFFFFF#32⟩]

/-- The header matches the row. -/
def TableRow.covers (r : TableRow) (w : BitVec 32) : Bool := w &&& r.mask == r.value

/-! ### Header fields (R71 to R73) -/

/-- Bits 7:0, the opcode. -/
def opField (w : BitVec 32) : BitVec 8 := w.extractLsb' 0 8

/-- Bits 12:8, the destination field A. -/
def fieldA (w : BitVec 32) : BitVec 5 := w.extractLsb' 8 5

/-- Bits 17:13, the first source field B. -/
def fieldB (w : BitVec 32) : BitVec 5 := w.extractLsb' 13 5

/-- Bits 22:18, the second source field C of format R. -/
def fieldC (w : BitVec 32) : BitVec 5 := w.extractLsb' 18 5

/-- Bits 27:23, the third source field D of format R. -/
def fieldD (w : BitVec 32) : BitVec 5 := w.extractLsb' 23 5

/-- Bits 31:28, the reserved field Z of format R. -/
def fieldZ (w : BitVec 32) : BitVec 4 := w.extractLsb' 28 4

/-- Bits 31:18, the item count LEN of format P. -/
def fieldLen (w : BitVec 32) : BitVec 14 := w.extractLsb' 18 14

/-- Bits 25:18, the immediate IMM8 of format I. -/
def fieldImm (w : BitVec 32) : BitVec 8 := w.extractLsb' 18 8

/-- Bits 31:26, the reserved field Z of format I. -/
def fieldZI (w : BitVec 32) : BitVec 6 := w.extractLsb' 26 6

/-- The header word of four stream bytes, least significant first (R70). -/
def headerWord (b0 b1 b2 b3 : Byte) : BitVec 32 := b3 ++ b2 ++ b1 ++ b0

/-! ### Field legality (R77, R78, R80) -/

/-- Why a header is no legal command (R211). The fourth cause of R211, a register number above 7 in a
CONCATALL payload, is found when the command executes (R159). -/
inductive IllegalCause where
  /-- The opcode is none of R79 (R80). -/
  | unassignedOpcode
  /-- A reserved field, or a field the opcode does not use, is nonzero (R78). -/
  | reservedField
  /-- A field that names a matrix register holds 8..31 (R77). -/
  | matrixRegister
  deriving DecidableEq, Repr

/-- A field that names a matrix register: legal only with 0..7 (R77). -/
def matrixField (f : BitVec 5) : Except IllegalCause MIdx :=
  if h : f.toNat < 8 then .ok ⟨f.toNat, h⟩ else .error .matrixRegister

/-- A field that names an element register: every value 0..31 is legal (R77). -/
def elementField (f : BitVec 5) : EIdx := f.toFin

/-- A field that must be zero (R78). -/
def zeroField {n : Nat} (f : BitVec n) : Except IllegalCause Unit :=
  if f = 0 then .ok () else .error .reservedField

/-! ### The decoder -/

/-- What the front of a byte stream is (R75, R76). -/
inductive Decoded where
  /-- Fewer bytes than one command have arrived (R76). -/
  | incomplete
  /-- One command that is illegal, and the bytes after it (R75, R211). -/
  | illegal (cause : IllegalCause) (rest : List Byte)
  /-- One command, and the bytes after it. -/
  | command (i : Instr) (rest : List Byte)
  deriving DecidableEq, Repr

/-- A command of format R or I: no payload (R74). -/
def noPayload (legal : Except IllegalCause Instr) (tail : List Byte) : Decoded :=
  match legal with
  | .ok i => .command i tail
  | .error c => .illegal c tail

/-- A command of format P: the payload is taken before legality is looked at (R75). -/
def withPayload {α : Type} (taken : Option (α × List Byte)) (legal : α → Except IllegalCause Instr) :
    Decoded :=
  match taken with
  | none => .incomplete
  | some (x, rest) => noPayload (legal x) rest

/-- LEN as a count of items (R81: unsigned, not scaled). -/
def lenField (w : BitVec 32) : Nat := (fieldLen w).toNat

/-- Format R with only `ma` in use: A, C, D and Z must be zero (R78, R79). -/
def sourceOnly (w : BitVec 32) : Except IllegalCause MIdx := do
  zeroField (fieldA w); zeroField (fieldC w); zeroField (fieldD w); zeroField (fieldZ w)
  matrixField (fieldB w)

/-- Format R with `ma` and `mb` in use: A, D and Z must be zero (R78, R79). -/
def twoSources (w : BitVec 32) : Except IllegalCause (MIdx × MIdx) := do
  zeroField (fieldA w); zeroField (fieldD w); zeroField (fieldZ w)
  let ma ← matrixField (fieldB w)
  let mb ← matrixField (fieldC w)
  return (ma, mb)

/-- Format P with only `md` in use: B must be zero (R78, R79). -/
def destOnly (w : BitVec 32) : Except IllegalCause MIdx := do
  zeroField (fieldB w)
  matrixField (fieldA w)

/-- Format P with `md` and `ms` in use (R79). -/
def destSource (w : BitVec 32) : Except IllegalCause (MIdx × MIdx) := do
  let md ← matrixField (fieldA w)
  let ms ← matrixField (fieldB w)
  return (md, ms)

/-- The command of an opcode, a header and the bytes after the header: the field column of R79. -/
def decodeBody (o : Opcode) (w : BitVec 32) (tail : List Byte) : Decoded :=
  match o with
  | .fadd => noPayload (do
      zeroField (fieldD w); zeroField (fieldZ w)
      return .fadd (elementField (fieldA w)) (elementField (fieldB w)) (elementField (fieldC w))) tail
  | .fmul => noPayload (do
      zeroField (fieldD w); zeroField (fieldZ w)
      return .fmul (elementField (fieldA w)) (elementField (fieldB w)) (elementField (fieldC w))) tail
  | .fmuladd => noPayload (do
      zeroField (fieldZ w)
      return .fmuladd (elementField (fieldA w)) (elementField (fieldB w)) (elementField (fieldC w))
        (elementField (fieldD w))) tail
  | .feq => noPayload (do
      zeroField (fieldA w); zeroField (fieldD w); zeroField (fieldZ w)
      return .feq (elementField (fieldB w)) (elementField (fieldC w))) tail
  | .unit => noPayload (do
      zeroField (fieldB w); zeroField (fieldC w); zeroField (fieldD w); zeroField (fieldZ w)
      let md ← matrixField (fieldA w)
      return .unit md) tail
  | .mmul => noPayload (do
      zeroField (fieldD w); zeroField (fieldZ w)
      let md ← matrixField (fieldA w)
      let ma ← matrixField (fieldB w)
      let mb ← matrixField (fieldC w)
      return .mmul md ma mb) tail
  | .isvalid => noPayload (do
      let ma ← sourceOnly w
      return .isvalid ma) tail
  | .validate => noPayload (do
      zeroField (fieldC w); zeroField (fieldD w); zeroField (fieldZ w)
      let md ← matrixField (fieldA w)
      let ma ← matrixField (fieldB w)
      return .validate md ma) tail
  | .meq => noPayload (do
      let (ma, mb) ← twoSources w
      return .meq ma mb) tail
  | .mcmp => noPayload (do
      let (ma, mb) ← twoSources w
      return .mcmp ma mb) tail
  | .bytemat => noPayload (do
      zeroField (fieldB w); zeroField (fieldZI w)
      let md ← matrixField (fieldA w)
      return .bytemat md (fieldImm w)) tail
  | .hash => withPayload (takeBytes (lenField w) tail) fun msg => do
      let md ← destOnly w
      return .hash md msg
  | .append => withPayload (takeBytes (lenField w) tail) fun msg => do
      let (md, ms) ← destSource w
      return .append md ms msg
  | .prepend => withPayload (takeBytes (lenField w) tail) fun msg => do
      let (md, ms) ← destSource w
      return .prepend md ms msg
  | .foldapp => withPayload (takeChunks (lenField w) tail) fun chunks => do
      let (md, ms) ← destSource w
      return .foldapp md ms chunks
  | .foldpre => withPayload (takeChunks (lenField w) tail) fun chunks => do
      let (md, ms) ← destSource w
      return .foldpre md ms chunks
  | .concatall => withPayload (takeBytes (lenField w) tail) fun regs => do
      let md ← destOnly w
      return .concatall md regs
  | .pack8 => withPayload (takeWords 8 1 (lenField w) tail) fun ws => do
      let md ← destOnly w
      return .pack8 md ws
  | .pack16 => withPayload (takeWords 16 2 (lenField w) tail) fun ws => do
      let md ← destOnly w
      return .pack16 md ws
  | .pack32 => withPayload (takeWords 32 4 (lenField w) tail) fun ws => do
      let md ← destOnly w
      return .pack32 md ws
  | .pack64 => withPayload (takeWords 64 8 (lenField w) tail) fun ws => do
      let md ← destOnly w
      return .pack64 md ws
  | .unpack8 => noPayload (do
      let ma ← sourceOnly w
      return .unpack8 ma) tail
  | .unpack16 => noPayload (do
      let ma ← sourceOnly w
      return .unpack16 ma) tail
  | .unpack32 => noPayload (do
      let ma ← sourceOnly w
      return .unpack32 ma) tail
  | .unpack64 => noPayload (do
      let ma ← sourceOnly w
      return .unpack64 ma) tail
  | .showm => noPayload (do
      let ma ← sourceOnly w
      return .showm ma) tail
  | .parse => withPayload (takeBytes (lenField w) tail) fun text => do
      let md ← destOnly w
      return .parse md text
  | .loadu => withPayload (takeWords 8 1 (lenField w) tail) fun ws => do
      let md ← destOnly w
      return .loadu md ws
  | .rdst => noPayload (do
      zeroField (fieldA w); zeroField (fieldB w); zeroField (fieldC w); zeroField (fieldD w)
      zeroField (fieldZ w)
      return .rdst) tail
/-- The front of a byte stream (R75). -/
def decode : List Byte → Decoded
  | b0 :: b1 :: b2 :: b3 :: tail =>
    match Opcode.ofByte (opField (headerWord b0 b1 b2 b3)) with
    | some o => decodeBody o (headerWord b0 b1 b2 b3) tail
    | none => .illegal .unassignedOpcode tail
  | _ => .incomplete

/-! ### The length of a command (R74), as the spec's own table gives it -/

/-- `sum over k = 1..LEN of (2 + n_k)`, each count read in turn; none while a count has not arrived. -/
def foldPayloadLength : Nat → List Byte → Option Nat
  | 0, _ => some 0
  | n + 1, lo :: hi :: bs =>
    (foldPayloadLength n (bs.drop (leNat [lo, hi]))).map fun m => 2 + leNat [lo, hi] + m
  | _ + 1, _ => none

/-- `plen` of R74: the payload bytes of the command whose header is `w`, with `tail` the bytes that have
arrived after the header. -/
def payloadLength (w : BitVec 32) (tail : List Byte) : Option Nat :=
  match Opcode.ofByte (opField w) with
  | some .hash | some .append | some .prepend => some (lenField w)
  | some .pack8 | some .loadu => some (lenField w)
  | some .pack16 => some (2 * lenField w)
  | some .pack32 => some (4 * lenField w)
  | some .pack64 => some (8 * lenField w)
  | some .parse => some (lenField w)
  | some .concatall => some (lenField w)
  | some .foldapp | some .foldpre => foldPayloadLength (lenField w) tail
  | _ => some 0

/-! ### The encoder -/

/-- A format R header (R71), Z zero. -/
def headerR (o : Opcode) (a b c d : BitVec 5) : BitVec 32 := 0#4 ++ d ++ c ++ b ++ a ++ o.code

/-- A format P header (R72) for `n` items. -/
def headerP (o : Opcode) (a b : BitVec 5) (n : Nat) : BitVec 32 := BitVec.ofNat 14 n ++ b ++ a ++ o.code

/-- A format I header (R73), B and Z zero. -/
def headerI (o : Opcode) (a : BitVec 5) (imm : Byte) : BitVec 32 := 0#6 ++ imm ++ 0#5 ++ a ++ o.code

/-- A matrix register number in a 5-bit field. -/
def matrixCode (i : MIdx) : BitVec 5 := BitVec.ofNat 5 i.val

/-- An element register number in a 5-bit field. -/
def elementCode (k : EIdx) : BitVec 5 := BitVec.ofNat 5 k.val

/-- The header word of a command. -/
def Instr.header (i : Instr) : BitVec 32 :=
  match i with
  | .fadd ed ea eb => headerR .fadd (elementCode ed) (elementCode ea) (elementCode eb) 0
  | .fmul ed ea eb => headerR .fmul (elementCode ed) (elementCode ea) (elementCode eb) 0
  | .fmuladd ed ea eb ec =>
    headerR .fmuladd (elementCode ed) (elementCode ea) (elementCode eb) (elementCode ec)
  | .feq ea eb => headerR .feq 0 (elementCode ea) (elementCode eb) 0
  | .unit md => headerR .unit (matrixCode md) 0 0 0
  | .mmul md ma mb => headerR .mmul (matrixCode md) (matrixCode ma) (matrixCode mb) 0
  | .isvalid ma => headerR .isvalid 0 (matrixCode ma) 0 0
  | .validate md ma => headerR .validate (matrixCode md) (matrixCode ma) 0 0
  | .meq ma mb => headerR .meq 0 (matrixCode ma) (matrixCode mb) 0
  | .mcmp ma mb => headerR .mcmp 0 (matrixCode ma) (matrixCode mb) 0
  | .bytemat md imm8 => headerI .bytemat (matrixCode md) imm8
  | .hash md msg => headerP .hash (matrixCode md) 0 msg.length
  | .append md ms msg => headerP .append (matrixCode md) (matrixCode ms) msg.length
  | .prepend md ms msg => headerP .prepend (matrixCode md) (matrixCode ms) msg.length
  | .foldapp md ms chunks => headerP .foldapp (matrixCode md) (matrixCode ms) chunks.length
  | .foldpre md ms chunks => headerP .foldpre (matrixCode md) (matrixCode ms) chunks.length
  | .concatall md regs => headerP .concatall (matrixCode md) 0 regs.length
  | .pack8 md ws => headerP .pack8 (matrixCode md) 0 ws.length
  | .pack16 md ws => headerP .pack16 (matrixCode md) 0 ws.length
  | .pack32 md ws => headerP .pack32 (matrixCode md) 0 ws.length
  | .pack64 md ws => headerP .pack64 (matrixCode md) 0 ws.length
  | .unpack8 ma => headerR .unpack8 0 (matrixCode ma) 0 0
  | .unpack16 ma => headerR .unpack16 0 (matrixCode ma) 0 0
  | .unpack32 ma => headerR .unpack32 0 (matrixCode ma) 0 0
  | .unpack64 ma => headerR .unpack64 0 (matrixCode ma) 0 0
  | .showm ma => headerR .showm 0 (matrixCode ma) 0 0
  | .parse md text => headerP .parse (matrixCode md) 0 text.length
  | .loadu md ws => headerP .loadu (matrixCode md) 0 ws.length
  | .rdst => headerR .rdst 0 0 0 0

/-- The payload bytes of a command (R74). -/
def Instr.payload (i : Instr) : List Byte :=
  match i with
  | .fadd _ _ _ => []
  | .fmul _ _ _ => []
  | .fmuladd _ _ _ _ => []
  | .feq _ _ => []
  | .unit _ => []
  | .mmul _ _ _ => []
  | .isvalid _ => []
  | .validate _ _ => []
  | .meq _ _ => []
  | .mcmp _ _ => []
  | .bytemat _ _ => []
  | .hash _ msg => msg
  | .append _ _ msg => msg
  | .prepend _ _ msg => msg
  | .foldapp _ _ chunks => chunkBytes chunks
  | .foldpre _ _ chunks => chunkBytes chunks
  | .concatall _ regs => regs
  | .pack8 _ ws => wordBytes 1 ws
  | .pack16 _ ws => wordBytes 2 ws
  | .pack32 _ ws => wordBytes 4 ws
  | .pack64 _ ws => wordBytes 8 ws
  | .unpack8 _ => []
  | .unpack16 _ => []
  | .unpack32 _ => []
  | .unpack64 _ => []
  | .showm _ => []
  | .parse _ text => text
  | .loadu _ ws => wordBytes 1 ws
  | .rdst => []

/-- The four stream bytes of a header, least significant first (R70). -/
def headerBytes (w : BitVec 32) : List Byte := leDigits 8 4 w.toNat

/-- The bytes of a command on the stream: header, then payload (R70). -/
def encode (i : Instr) : List Byte := headerBytes i.header ++ i.payload

/-! ### The host's word form of a command -/

/-- How many payload bytes a header asks for when every payload byte is zero: the length of R74 with every
chunk count 0. -/
def zeroPayload (w : BitVec 32) : Nat :=
  match Opcode.ofByte (opField w) with
  | some .foldapp | some .foldpre => 2 * lenField w
  | _ => (payloadLength w []).getD 0

/-- The stream bytes of the instruction whose `nbits` bits are `w`, bit 0 the least significant bit of the
first byte, with zero payload bytes after them as far as its header asks for more. -/
def tableStream (nbits w : Nat) : List Byte :=
  let given := leDigits 8 (max 4 (nbits / 8)) (w % 2 ^ nbits)
  given ++ List.replicate (zeroPayload (BitVec.ofNat 32 (w % 2 ^ nbits)) - (given.length - 4)) 0#8

/-- The instruction the decoder reads from a word of spec/opcode_table.json. -/
def decodeTableWord (nbits w : Nat) : Option Instr :=
  match decode (tableStream nbits w) with
  | .command i _ => some i
  | .illegal _ _ => none
  | .incomplete => none

end Sys2Proof
end

