-- ==== Sys2Proof/Machine/State.lean ====
section
/-! DEFINITION. The state of one engine as plain data (spec/10_state.md R20 to R31), the error codes, and
the reset state. -/

namespace Sys2Proof.Machine

/-- The five errors of spec/60_exceptions.md R210. An error is no stop of the machine: a command that
raises one is answered with its code and the engine goes on (R216, R228). -/
inductive Err where
  /-- The header is not a legal command, or a CONCATALL register number is above 7 (R211). -/
  | illegal
  /-- A pack list, or a LOADU list, of the wrong length (R212). -/
  | len
  /-- The value is not a valid matrix (R213). -/
  | invalid
  /-- The text is not a text form (R214). -/
  | parse
  /-- An arithmetic source slot has its range bit set (R215). -/
  | range
  deriving DecidableEq, Repr

/-- The status register `ST` (R26): its two stored fields. Bits 15:9 are hardwired zero and store
nothing; the 16-bit word is `Status.word`. -/
structure Status where
  /-- Bits 7:0, the code of the most recent command other than RDST. -/
  code : BitVec 8
  /-- Bit 8, the truth flag of the most recent predicate command that completed OK. -/
  t : Bool
  deriving DecidableEq, Repr

/-- Everything one engine holds. -/
structure State where
  /-- The generator pair this engine was built with: the open parameters of R140, which R28 makes an
  argument of the step and not architectural state. `Host.Core.step` takes a state alone, so the argument
  travels here; no command, host event or reset changes it (log entry 2). -/
  gen : GenPair
  /-- The eight matrix registers `m0..m7` (R20); the element registers are a second view (R23). -/
  m : Vector Mat 8
  /-- The status register (R26). -/
  st : Status
  /-- The command bytes that have arrived and are not yet consumed by a command (R30 b, R76). -/
  cmd : List Byte
  /-- The response bytes the engine has emitted and the host has not yet read (R29, R54). -/
  rsp : List Byte
  /-- The reset input is asserted (R240). -/
  resetIn : Bool
  deriving DecidableEq, Repr

/-- The reasons a step could stop with a fault: none. R228: "There is no fatal state, no lock-up and no
state from which only reset recovers"; every error of the engine is an answered command (R216). -/
inductive Fault : Type
  deriving DecidableEq, Repr

/-- The reasons a step could be refused. -/
inductive Refusal where
  /-- Raised by no arm: every command of spec/opcode_table.json has its meaning. It would be raised by an
  arm of `exec` without one; safe, since the model would stop where the engine goes on. -/
  | notModelled (mnemonic : String)
  deriving DecidableEq, Repr

/-- What a step answers. -/
abbrev Out := Host.Outcome State Fault Refusal

/-- `IDENT` as a register value: slots 1, 0, 0, 1 (R120). -/
def identReg : Mat := ⟨1, 0, 0, 1⟩

/-- The reset state of R31 and R241 of an engine built with the generator pair `G`: every matrix register
the identity, `ST` zero, no pending command bytes, no response bytes, the reset input released. The spec
states every one of these values (its own decision D14). -/
def State.resetWith (G : GenPair) : State where
  gen := G
  m := Vector.replicate 8 identReg
  st := ⟨0, false⟩
  cmd := []
  rsp := []
  resetIn := false

/-- The machine right after reset, with the default generator pair of R144 (PRESUMED: log entry 1). -/
def State.reset : State := State.resetWith GenPair.default

end Sys2Proof.Machine
end

