-- ==== Sys2Proof/Machine/Operands.lean ====
section
/-! DEFINITION. Operand forms: matrix and element registers as two views of one storage
(spec/10_state.md R20, R23), register footprints and word views (spec/20_memory.md R52, R53), operand
assembly (spec/30_encoding.md R81) and the text form (spec/45_codec.md R180, R182). -/

namespace Sys2Proof

/-! ### Slots and register numbers -/

/-- Slot 0 = a, 1 = b, 2 = c, 3 = d of a register value (R23). -/
def Mat.slot (M : Mat) : Fin 4 → Slot
  | 0 => M.a
  | 1 => M.b
  | 2 => M.c
  | 3 => M.d

/-- The register value with one slot replaced, the other three unchanged (R23). -/
def Mat.setSlot (M : Mat) (j : Fin 4) (v : Slot) : Mat :=
  match j with
  | 0 => { M with a := v }
  | 1 => { M with b := v }
  | 2 => { M with c := v }
  | 3 => { M with d := v }

/-- The matrix register that holds element register k: `k div 4` (R23). -/
def regOf (k : EIdx) : MIdx := ⟨k.val / 4, by omega⟩

/-- The slot of its register that element register k is: `k mod 4` (R23). -/
def slotOf (k : EIdx) : Fin 4 := ⟨k.val % 4, by omega⟩

/-- Every value of a list of optional values, or none when one is missing. -/
def allSome {α : Type} : List (Option α) → Option (List α)
  | [] => some []
  | some x :: xs =>
    match allSome xs with
    | some ys => some (x :: ys)
    | none => none
  | none :: _ => none

/-- A register number of a CONCATALL payload: legal only with 0..7 (R77, R159). -/
def regNumber? (b : Byte) : Option MIdx := if h : b.toNat < 8 then some ⟨b.toNat, h⟩ else none

/-! ### Footprints and words -/

/-- The 512-bit value of a register: slot a lowest, slot d highest (R20). -/
def Mat.bits (M : Mat) : BitVec 512 := M.d ++ M.c ++ M.b ++ M.a

/-- The register of a 512-bit value (R20). -/
def Mat.ofBits (v : BitVec 512) : Mat :=
  ⟨v.extractLsb' 0 128, v.extractLsb' 128 128, v.extractLsb' 256 128, v.extractLsb' 384 128⟩

/-- The footprint `F[0] .. F[63]`, `F[k] = M[8k+7 : 8k]` (R52). -/
def footprint (M : Mat) : List Byte := leDigits 8 footBytes M.bits.toNat

/-- The register value assembled from a list of words, `sum over j of word_j << (w * j)`, 512 bits
(R81, R170, R184). -/
def ofWords {w : Nat} (ws : List (BitVec w)) : Mat := Mat.ofBits (BitVec.ofNat 512 (leNat ws))

/-! ### Text -/

/-- `hexdigit(n)` (R180): '0'..'9', then 'a'..'f'. -/
def hexDigit (n : BitVec 4) : Byte :=
  if n.toNat < 10 then BitVec.ofNat 8 (0x30 + n.toNat) else BitVec.ofNat 8 (0x61 + (n.toNat - 10))

/-- The value of a hexadecimal character; none for any character but '0'..'9', 'a'..'f' (R182). -/
def hexValue? (c : Byte) : Option (BitVec 4) :=
  if 0x30 ≤ c.toNat ∧ c.toNat ≤ 0x39 then some (BitVec.ofNat 4 (c.toNat - 0x30))
  else if 0x61 ≤ c.toNat ∧ c.toNat ≤ 0x66 then some (BitVec.ofNat 4 (c.toNat - 0x61 + 10))
  else none

/-- `show(M)` (R180): two characters per footprint byte, the high nibble first. -/
def showText (M : Mat) : List Byte :=
  (footprint M).flatMap fun b => [hexDigit (b.extractLsb' 4 4), hexDigit (b.extractLsb' 0 4)]

/-- The bytes `F[k] = value(t[2k]) << 4 | value(t[2k+1])` of a text (R182); none when a character is not a
hexadecimal digit or one is left over. -/
def textBytes? : List Byte → Option (List Byte)
  | [] => some []
  | [_] => none
  | h :: l :: rest =>
    match hexValue? h, hexValue? l, textBytes? rest with
    | some x, some y, some bs => some ((x ++ y) :: bs)
    | _, _, _ => none

/-- The register value of a text of 128 hexadecimal characters (R182, before its validity check); none
for any other text. -/
def textMat? (t : List Byte) : Option Mat :=
  if t.length = 128 then (textBytes? t).map fun F => ofWords F else none

/-- `parse(t)` (R182): the register value of a well-formed text, when it is valid. -/
def parseText (t : List Byte) : Option Mat :=
  match textMat? t with
  | some M => if M.valid then some M else none
  | none => none

namespace Machine

/-! ### Registers -/

/-- `m[i]` (R12, R20). -/
def State.getM (s : State) (i : MIdx) : Mat := s.m[i]

/-- `m[i] <- v` (R12): all four slots change in one step. -/
def State.setM (s : State) (i : MIdx) (v : Mat) : State := { s with m := s.m.set i v }

/-- `e[k]` (R12, R23). -/
def State.getE (s : State) (k : EIdx) : Slot := (s.getM (regOf k)).slot (slotOf k)

/-- `e[k] <- v` (R12, R23). -/
def State.setE (s : State) (k : EIdx) (v : Slot) : State :=
  s.setM (regOf k) ((s.getM (regOf k)).setSlot (slotOf k) v)

/-- The field element an element command reads from `e[k]`; none when its range bit is set (R111). -/
def State.fe? (s : State) (k : EIdx) : Option Fe := Slot.fe? (s.getE k)

/-- The matrix an arithmetic matrix command reads from `m[i]`; none when it is not canonical (R133,
R165). -/
def State.field? (s : State) (i : MIdx) : Option FMat := (s.getM i).field?

end Machine

end Sys2Proof
end

