-- ==== Sys2Proof/Machine/Flags.lean ====
section
/-! DEFINITION. The status register: its codes, its word, and every computation of the truth flag
(spec/10_state.md R26, R27; spec/60_exceptions.md R210; spec/42_group.md R132). -/

namespace Sys2Proof.Machine

/-- The status code of success (R210). -/
def codeOk : Byte := 0x00#8

/-- The code numbers of the five errors (R210). -/
def Err.code : Err → Byte
  | .illegal => 0x01#8
  | .len => 0x02#8
  | .invalid => 0x03#8
  | .parse => 0x04#8
  | .range => 0x05#8

/-- `ST` as RDST reads it, `{0000000, T, CODE}` (R26, R200). -/
def Status.word (st : Status) : BitVec 16 := 0#7 ++ BitVec.ofBool st.t ++ st.code

/-- `ST.CODE <- c`. -/
def State.setCode (s : State) (c : Byte) : State := { s with st := { s.st with code := c } }

/-- `ST.T <- t`: done by FEQ, ISVALID, MEQ and MCMP alone (R27). -/
def State.setT (s : State) (t : Bool) : State := { s with st := { s.st with t := t } }

/-- The data byte of a truth value: 0x01 or 0x00 (R109, R129, R131). -/
def truthByte (t : Bool) : Byte := if t then 0x01#8 else 0x00#8

/-- The data byte of a comparison: 0x00 equal, 0x01 greater, 0xFF less (R132). -/
def orderByte : Ordering → Byte
  | .eq => 0x00#8
  | .gt => 0x01#8
  | .lt => 0xFF#8

/-- The truth flag of a comparison: 1 when equal, else 0 (R132). -/
def orderFlag : Ordering → Bool
  | .eq => true
  | .gt => false
  | .lt => false

end Sys2Proof.Machine
end

