-- ==== Sys2Proof/Machine/Ops.lean ====
section
/-! DEFINITION. The operations every command ends in: answering OK, and raising an error, which is all
there is of "taking an exception" on this engine (spec/60_exceptions.md R216). Nothing returns from one:
"There is no return-from-trap command and nothing to return from" (R220). -/

namespace Sys2Proof.Machine

/-- The response record (spec/20_memory.md R54): code, the 16-bit little-endian data length, the data. -/
def record (code : Byte) (data : List Byte) : List Byte := code :: (leDigits 8 2 data.length ++ data)

/-- One record goes out on the response stream (R54); `ST` is not touched. -/
def State.emit (s : State) (code : Byte) (data : List Byte) : State :=
  { s with rsp := s.rsp ++ record code data }

/-- `respond(code, data)` of spec/00_scope.md R12, for every command but RDST: the record, and
`ST.CODE <- code`. -/
def State.respond (s : State) (code : Byte) (data : List Byte) : State := (s.setCode code).emit code data

/-- `respond(OK, data)`: the command has succeeded. -/
def done (data : List Byte) (s : State) : Out := .next (s.respond codeOk data)

/-- `raise E_X` (R216): no register and not `ST.T` is written, `ST.CODE <- E_X`, an empty record with the
code goes out, and the next command on the stream is executed next. -/
def raise (e : Err) (s : State) : Out := .next (s.respond e.code [])

/-- A predicate command completes OK: `ST.T <- t`, then the response (R27). -/
def doneFlag (t : Bool) (data : List Byte) (s : State) : Out := done data (s.setT t)

/-- The command in front of the stream has been consumed; `rest` are the bytes after it (R75). -/
def State.consume (s : State) (rest : List Byte) : State := { s with cmd := rest }

end Sys2Proof.Machine
end

