-- ==== Sys2Proof/Machine/Codec.lean ====
section
/-! DEFINITION. The codec commands PACK8/16/32/64, UNPACK8/16/32/64, SHOW, PARSE, LOADU
(spec/45_codec.md R170 to R184). -/

namespace Sys2Proof.Machine

/-- The checked load of R170 for word width w: E_LEN unless there are `512 / w` words, then E_INVALID
unless the assembled value is valid. -/
def pack {w : Nat} (md : MIdx) (ws : List (BitVec w)) (s : State) : Out :=
  if ws.length = 512 / w then
    if (ofWords ws).valid then done [] (s.setM md (ofWords ws)) else raise .invalid s
  else raise .len s

/-- PACK8 md, 8-bit words (R171). -/
def execPack8 (md : MIdx) (ws : List (BitVec 8)) (s : State) : Out := pack md ws s

/-- PACK16 md, 16-bit words (R172). -/
def execPack16 (md : MIdx) (ws : List (BitVec 16)) (s : State) : Out := pack md ws s

/-- PACK32 md, 32-bit words (R173). -/
def execPack32 (md : MIdx) (ws : List (BitVec 32)) (s : State) : Out := pack md ws s

/-- PACK64 md, 64-bit words (R174). -/
def execPack64 (md : MIdx) (ws : List (BitVec 64)) (s : State) : Out := pack md ws s

/-- The store of R175: the 64 footprint bytes, the same for every word width. -/
def unpack (ma : MIdx) (s : State) : Out := done (footprint (s.getM ma)) s

/-- UNPACK8 ma (R176). -/
def execUnpack8 (ma : MIdx) (s : State) : Out := unpack ma s

/-- UNPACK16 ma (R177). -/
def execUnpack16 (ma : MIdx) (s : State) : Out := unpack ma s

/-- UNPACK32 ma (R178). -/
def execUnpack32 (ma : MIdx) (s : State) : Out := unpack ma s

/-- UNPACK64 ma (R179). -/
def execUnpack64 (ma : MIdx) (s : State) : Out := unpack ma s

/-- SHOW ma (R181): the text form, without a validity check. -/
def execShow (ma : MIdx) (s : State) : Out := done (showText (s.getM ma)) s

/-- PARSE md, text (R183): E_PARSE for a text that is none, then E_INVALID for one of an invalid matrix. -/
def execParse (md : MIdx) (text : List Byte) (s : State) : Out :=
  match textMat? text with
  | none => raise .parse s
  | some M => if M.valid then done [] (s.setM md M) else raise .invalid s

/-- LOADU md, bytes (R184): E_LEN unless there are 64 bytes; no validity check of any kind. -/
def execLoadu (md : MIdx) (ws : List (BitVec 8)) (s : State) : Out :=
  if ws.length = 64 then done [] (s.setM md (ofWords ws)) else raise .len s

end Sys2Proof.Machine
end

