-- ==== Sys2Proof/Machine/Engine.lean ====
section
/-! DEFINITION. The hash engine commands HASH, APPEND, PREPEND, FOLDAPP, FOLDPRE, CONCATALL
(spec/44_engine.md R153 to R159, R165). -/

namespace Sys2Proof.Machine

/-- The shape of the four commands that extend the matrix of `ms` into `md`: the source must be canonical
(R165). -/
def extend (f : FMat → FMat) (md ms : MIdx) (s : State) : Out :=
  match s.field? ms with
  | some H => done [] (s.setM md (f H).reg)
  | none => raise .range s

/-- HASH md, bytes (R153). -/
def execHash (md : MIdx) (msg : List Byte) (s : State) : Out :=
  done [] (s.setM md (hashBytes s.gen msg).reg)

/-- APPEND md, ms, bytes (R154). -/
def execAppend (md ms : MIdx) (msg : List Byte) (s : State) : Out :=
  extend (fun H => appendBytes s.gen H msg) md ms s

/-- PREPEND md, ms, bytes (R155). -/
def execPrepend (md ms : MIdx) (msg : List Byte) (s : State) : Out :=
  extend (fun H => prependBytes s.gen msg H) md ms s

/-- FOLDAPP md, ms, [chunks] (R157). -/
def execFoldapp (md ms : MIdx) (chunks : List (List Byte)) (s : State) : Out :=
  extend (fun H => foldAppend s.gen H chunks) md ms s

/-- FOLDPRE md, ms, [chunks] (R158). -/
def execFoldpre (md ms : MIdx) (chunks : List (List Byte)) (s : State) : Out :=
  extend (fun H => foldPrepend s.gen chunks H) md ms s

/-- CONCATALL md, [register numbers] (R159): E_ILLEGAL for a number above 7, then E_RANGE for a register
that is not canonical, then the product; all reads are of the values before the command. -/
def execConcatall (md : MIdx) (regs : List Byte) (s : State) : Out :=
  match allSome (regs.map regNumber?) with
  | none => raise .illegal s
  | some rs =>
    match allSome (rs.map s.field?) with
    | none => raise .range s
    | some Xs => done [] (s.setM md (concatAll Xs).reg)

end Sys2Proof.Machine
end

