-- ==== Sys2Proof/Machine/Field.lean ====
section
/-! DEFINITION. The element commands FADD, FMUL, FMULADD, FEQ (spec/41_field.md R106 to R109, R111). -/

namespace Sys2Proof.Machine

/-- FADD ed, ea, eb (R106). -/
def execFadd (ed ea eb : EIdx) (s : State) : Out :=
  match s.fe? ea, s.fe? eb with
  | some a, some b => done [] (s.setE ed ((fadd a b).setWidth 128))
  | _, _ => raise .range s

/-- FMUL ed, ea, eb (R107). -/
def execFmul (ed ea eb : EIdx) (s : State) : Out :=
  match s.fe? ea, s.fe? eb with
  | some a, some b => done [] (s.setE ed ((fmul a b).setWidth 128))
  | _, _ => raise .range s

/-- FMULADD ed, ea, eb, ec (R108): `ea * eb + ec`. -/
def execFmuladd (ed ea eb ec : EIdx) (s : State) : Out :=
  match s.fe? ea, s.fe? eb, s.fe? ec with
  | some a, some b, some c => done [] (s.setE ed ((fmuladd a b c).setWidth 128))
  | _, _, _ => raise .range s

/-- FEQ ea, eb (R109). -/
def execFeq (ea eb : EIdx) (s : State) : Out :=
  match s.fe? ea, s.fe? eb with
  | some a, some b => doneFlag (feq a b) [truthByte (feq a b)] s
  | _, _ => raise .range s

end Sys2Proof.Machine
end

