-- ==== Sys2Proof/Machine/Group.lean ====
section
/-! DEFINITION. The matrix group commands UNIT, MMUL, ISVALID, VALIDATE, MEQ, MCMP
(spec/42_group.md R128 to R133) and the table lookup BYTEMAT (spec/43_generator.md R142). -/

namespace Sys2Proof.Machine

/-- UNIT md (R128). -/
def execUnit (md : MIdx) (s : State) : Out := done [] (s.setM md ident.reg)

/-- MMUL md, ma, mb (R133): `ma` the left factor; determinants are not checked. -/
def execMmul (md ma mb : MIdx) (s : State) : Out :=
  match s.field? ma, s.field? mb with
  | some X, some Y => done [] (s.setM md (mmul X Y).reg)
  | _, _ => raise .range s

/-- ISVALID ma (R129): a false result is no error. -/
def execIsvalid (ma : MIdx) (s : State) : Out :=
  doneFlag (s.getM ma).valid [truthByte (s.getM ma).valid] s

/-- VALIDATE md, ma (R130): copy if valid. -/
def execValidate (md ma : MIdx) (s : State) : Out :=
  if (s.getM ma).valid then done [] (s.setM md (s.getM ma)) else raise .invalid s

/-- MEQ ma, mb (R131): the registers are compared as they stand. -/
def execMeq (ma mb : MIdx) (s : State) : Out :=
  doneFlag (meq (s.getM ma) (s.getM mb)) [truthByte (meq (s.getM ma) (s.getM mb))] s

/-- MCMP ma, mb (R132). -/
def execMcmp (ma mb : MIdx) (s : State) : Out :=
  doneFlag (orderFlag (mcmp (s.getM ma) (s.getM mb))) [orderByte (mcmp (s.getM ma) (s.getM mb))] s

/-- BYTEMAT md, imm8 (R142): every index is legal. -/
def execBytemat (md : MIdx) (imm8 : Byte) (s : State) : Out :=
  done [] (s.setM md (GT s.gen imm8).reg)

end Sys2Proof.Machine
end

