-- ==== Sys2Proof/Machine/System.lean ====
section
/-! DEFINITION. The one system command, RDST (spec/46_system.md R200). -/

namespace Sys2Proof.Machine

/-- RDST (R200): the response carries `ST` little-endian; `ST` is not changed, not even `ST.CODE`. -/
def execRdst (s : State) : Out := .next (s.emit codeOk (leDigits 8 2 s.st.word.toNat))

end Sys2Proof.Machine
end

