-- ==== Sys2Proof/Machine/Dispatch.lean ====
section
/-! DEFINITION. The meaning of every command: one arm per constructor of Instr. -/

namespace Sys2Proof.Machine

def exec (i : Instr) (s : State) : Host.Outcome State Fault Refusal :=
  match i with
  | .fadd ed ea eb => Sys2Proof.Machine.execFadd ed ea eb s
  | .fmul ed ea eb => Sys2Proof.Machine.execFmul ed ea eb s
  | .fmuladd ed ea eb ec => Sys2Proof.Machine.execFmuladd ed ea eb ec s
  | .feq ea eb => Sys2Proof.Machine.execFeq ea eb s
  | .unit md => Sys2Proof.Machine.execUnit md s
  | .mmul md ma mb => Sys2Proof.Machine.execMmul md ma mb s
  | .isvalid ma => Sys2Proof.Machine.execIsvalid ma s
  | .validate md ma => Sys2Proof.Machine.execValidate md ma s
  | .meq ma mb => Sys2Proof.Machine.execMeq ma mb s
  | .mcmp ma mb => Sys2Proof.Machine.execMcmp ma mb s
  | .bytemat md imm8 => Sys2Proof.Machine.execBytemat md imm8 s
  | .hash md msg => Sys2Proof.Machine.execHash md msg s
  | .append md ms msg => Sys2Proof.Machine.execAppend md ms msg s
  | .prepend md ms msg => Sys2Proof.Machine.execPrepend md ms msg s
  | .foldapp md ms chunks => Sys2Proof.Machine.execFoldapp md ms chunks s
  | .foldpre md ms chunks => Sys2Proof.Machine.execFoldpre md ms chunks s
  | .concatall md regs => Sys2Proof.Machine.execConcatall md regs s
  | .pack8 md ws => Sys2Proof.Machine.execPack8 md ws s
  | .pack16 md ws => Sys2Proof.Machine.execPack16 md ws s
  | .pack32 md ws => Sys2Proof.Machine.execPack32 md ws s
  | .pack64 md ws => Sys2Proof.Machine.execPack64 md ws s
  | .unpack8 ma => Sys2Proof.Machine.execUnpack8 ma s
  | .unpack16 ma => Sys2Proof.Machine.execUnpack16 ma s
  | .unpack32 ma => Sys2Proof.Machine.execUnpack32 ma s
  | .unpack64 ma => Sys2Proof.Machine.execUnpack64 ma s
  | .showm ma => Sys2Proof.Machine.execShow ma s
  | .parse md text => Sys2Proof.Machine.execParse md text s
  | .loadu md ws => Sys2Proof.Machine.execLoadu md ws s
  | .rdst => Sys2Proof.Machine.execRdst s

end Sys2Proof.Machine
end

