-- ==== Sys2Proof/Machine/Fetch.lean ====
section
/-! DEFINITION. Taking the next command from the command stream (spec/30_encoding.md R75, R76) and the
host's side of the engine (spec/20_memory.md R63, spec/70_reset_and_hazards.md R240, R245). -/

namespace Sys2Proof.Machine

/-- What stands in front of the bytes that have arrived (R75). -/
def fetch (s : State) : Decoded := decode s.cmd

/-- The engine while its reset input is asserted (R240): the reset state of R31, any command not yet
complete and any response not yet delivered dropped; the constants survive (R28). -/
def State.held (s : State) : State := { State.resetWith s.gen with resetIn := true }

/-- What the host can do to an engine (R63, R245): nothing else. -/
inductive HostEvent where
  /-- Send command bytes, at any pace. -/
  | send (bytes : List Byte)
  /-- Read up to `n` response bytes. -/
  | read (n : Nat)
  /-- Assert the reset input, at any time. -/
  | assertReset
  /-- Release the reset input. -/
  | releaseReset
  deriving DecidableEq, Repr

/-- The state after a host event. Bytes sent while reset is asserted are dropped, since after the release
the engine "takes the next byte on the command stream as the first byte of a header" (R240; DEDUCED, log
entry 5). -/
def State.onHost (s : State) : HostEvent → State
  | .send bytes => if s.resetIn then s else { s with cmd := s.cmd ++ bytes }
  | .read n => { s with rsp := s.rsp.drop n }
  | .assertReset => s.held
  | .releaseReset => { s with resetIn := false }

/-- The bytes the host gets by reading up to `n` response bytes. -/
def State.delivered (s : State) (n : Nat) : List Byte := s.rsp.take n

end Sys2Proof.Machine
end

