-- ==== Sys2Proof/Machine/Step.lean ====
section
/-! DEFINITION. One step of the engine: one whole command (spec/00_scope.md R13, spec/30_encoding.md R75). -/

namespace Sys2Proof.Machine

/-- One step. Under reset the engine is in the reset state (R240). Otherwise it consumes the command in
front of the stream and executes it; an illegal one is consumed and answered E_ILLEGAL (R75, R211); with no
complete command there the engine holds: "it changes no state and emits nothing" (R76, R227; as a step to the
same state, DESIGN CHOICE, log entry 3). -/
def step (s : State) : Host.Outcome State Fault Refusal :=
  if s.resetIn then .next s.held
  else
    match fetch s with
    | .incomplete => .next s
    | .illegal _ rest => raise .illegal (s.consume rest)
    | .command i rest => exec i (s.consume rest)

/-- The state whose next step runs exactly the instruction whose `nbits` bits are `w`: it is the whole
content of the command stream, and the reset input is released. -/
def State.withFetchWord (s : State) (nbits w : Nat) : State :=
  { s with cmd := tableStream nbits w, resetIn := false }

end Sys2Proof.Machine
end

