-- ==== Sys2Proof/Machine/Assembler.lean ====
section
/-! DEFINITION. The assembler of spec/30_encoding.md R83 and R84: one line of text to one command. It stands
outside the engine, which sees bytes only; it is how R83, R84 and R86 name commands. What R83 leaves open is
settled as log entry 13 lists (DESIGN CHOICE). -/

namespace Sys2Proof.Asm

/-! ### Tokens -/

/-- A token of a line. -/
inductive Token where
  /-- A mnemonic, a register name or a number. -/
  | word (w : List Char)
  /-- A double-quoted ASCII string, as its bytes. -/
  | text (bytes : List Byte)
  | comma
  | openBrace
  | closeBrace
  | openBracket
  | closeBracket
  deriving DecidableEq, Repr

/-- Where the lexer is: between tokens, inside a word, or inside a string (the characters in reverse). -/
inductive LexMode where
  | idle
  | word (rev : List Char)
  | text (rev : List Byte)
  deriving DecidableEq, Repr

/-- The word in progress, finished. -/
def LexMode.flush : LexMode → List Token
  | .idle => []
  | .word rev => [.word rev.reverse]
  | .text _ => []

/-- The characters of the word in progress, in reverse. -/
def LexMode.pending : LexMode → List Char
  | .idle => []
  | .word rev => rev
  | .text _ => []

/-- The separators of R83: `,`, braces and brackets. -/
def separator? (c : Char) : Option Token :=
  if c.toNat = 0x2C then some .comma
  else if c.toNat = 0x7B then some .openBrace
  else if c.toNat = 0x7D then some .closeBrace
  else if c.toNat = 0x5B then some .openBracket
  else if c.toNat = 0x5D then some .closeBracket
  else none

/-- Characters of mnemonics, register names and numbers; the underscore is the reading aid of R8. -/
def wordChar (c : Char) : Bool := c.isAlphanum || c == '_' || c == '.'

/-- The tokens of a line; none for a character that R83 gives no use, or a string without its closing quote.
A comment runs from `;` to the end of the line; a `;` inside a double-quoted string starts none, it is a byte of
the string like every character there but the closing quote (DESIGN CHOICE: R83 says neither; log entry 13). -/
def lex : LexMode → List Char → Option (List Token)
  | .text _, [] => none
  | mode, [] => some mode.flush
  | .text rev, c :: cs =>
    if c.toNat = 0x22 then (lex .idle cs).map fun ts => .text rev.reverse :: ts
    else if c.toNat < 0x80 then lex (.text (BitVec.ofNat 8 c.toNat :: rev)) cs
    else none
  | mode, c :: cs =>
    if wordChar c then lex (.word (c :: mode.pending)) cs
    else if c = ';' then some mode.flush
    else if c = ' ' ∨ c = '\t' then (lex .idle cs).map fun ts => mode.flush ++ ts
    else if c.toNat = 0x22 then (lex (.text []) cs).map fun ts => mode.flush ++ ts
    else
      match separator? c with
      | some t => (lex .idle cs).map fun ts => mode.flush ++ t :: ts
      | none => none

/-! ### Numbers and registers -/

/-- The value of a digit character of base 16 (either case) or base 10. -/
def digit? (base : Nat) (c : Char) : Option Nat :=
  let v := if c.isDigit then c.toNat - 0x30
    else if 'a' ≤ c ∧ c ≤ 'f' then c.toNat - 0x61 + 10
    else if 'A' ≤ c ∧ c ≤ 'F' then c.toNat - 0x41 + 10
    else base
  if v < base then some v else none

/-- The number of a list of digits, underscores left out. -/
def digits? (base : Nat) : Nat → List Char → Option Nat
  | acc, [] => some acc
  | acc, c :: cs =>
    if c = '_' then digits? base acc cs
    else
      match digit? base c with
      | some d => digits? base (acc * base + d) cs
      | none => none

/-- A number: `0x` and hexadecimal digits, or decimal digits (R8). -/
def number? : List Char → Option Nat
  | '0' :: 'x' :: c :: cs => if (digit? 16 c).isSome then digits? 16 0 (c :: cs) else none
  | c :: cs => if (digit? 10 c).isSome then digits? 10 0 (c :: cs) else none
  | [] => none

/-- `m0` .. `m7`. -/
def matrix? : List Char → Option MIdx
  | ['m', c] =>
    match digit? 10 c with
    | some n => if h : n < 8 then some ⟨n, h⟩ else none
    | none => none
  | _ => none

/-- The slot letter of `m<i>.a` .. `m<i>.d`. -/
def slot? (c : Char) : Option Nat :=
  if c = 'a' then some 0 else if c = 'b' then some 1 else if c = 'c' then some 2
  else if c = 'd' then some 3 else none

/-- The element register of a number; none above 31. -/
def elementNumber? (n : Nat) : Option EIdx := if h : n < 32 then some ⟨n, h⟩ else none

/-- `e0` .. `e31`, or `m<i>.a` .. `m<i>.d` for `e<4i>` .. `e<4i+3>` (R23). -/
def element? : List Char → Option EIdx
  | ['e', c] => (digit? 10 c).bind elementNumber?
  | ['e', c, c'] =>
    match digit? 10 c, digit? 10 c' with
    | some n, some n' => if n = 0 then none else elementNumber? (10 * n + n')
    | _, _ => none
  | ['m', c, '.', l] =>
    match matrix? ['m', c], slot? l with
    | some i, some j => elementNumber? (4 * i.val + j)
    | _, _ => none
  | _ => none

/-! ### Operands -/

/-- An operand that holds no brackets. -/
inductive Item where
  | word (w : List Char)
  | text (bytes : List Byte)
  | nums (ns : List Nat)
  deriving DecidableEq, Repr

/-- An operand: an item, or a bracketed list of items. -/
inductive Operand where
  | item (x : Item)
  | list (xs : List Item)
  deriving DecidableEq, Repr

/-- The numbers up to the closing brace, one at least. -/
def bracedItems : List Token → Option (List Nat × List Token)
  | .word w :: .closeBrace :: ts => (number? w).map fun n => ([n], ts)
  | .word w :: .comma :: ts =>
    match number? w, bracedItems ts with
    | some n, some (ns, rest) => some (n :: ns, rest)
    | _, _ => none
  | _ => none

/-- One item and the tokens after it. -/
def item : List Token → Option (Item × List Token)
  | .word w :: ts => some (.word w, ts)
  | .text bytes :: ts => some (.text bytes, ts)
  | .openBrace :: .closeBrace :: ts => some (.nums [], ts)
  | .openBrace :: ts => (bracedItems ts).map fun p => (.nums p.1, p.2)
  | _ => none

/-- The items up to the closing bracket, one at least; `fuel` bounds their number. -/
def bracketItems : Nat → List Token → Option (List Item × List Token)
  | 0, _ => none
  | fuel + 1, ts =>
    match item ts with
    | some (x, .closeBracket :: rest) => some ([x], rest)
    | some (x, .comma :: rest) => (bracketItems fuel rest).map fun p => (x :: p.1, p.2)
    | _ => none

/-- One operand and the tokens after it. -/
def operand : List Token → Option (Operand × List Token)
  | .openBracket :: .closeBracket :: ts => some (.list [], ts)
  | .openBracket :: ts => (bracketItems ts.length ts).map fun p => (.list p.1, p.2)
  | ts => (item ts).map fun p => (.item p.1, p.2)

/-- The operands of a line, separated by commas; `fuel` bounds their number. -/
def operands : Nat → List Token → Option (List Operand)
  | 0, _ => none
  | fuel + 1, ts =>
    match operand ts with
    | some (x, []) => some [x]
    | some (x, .comma :: rest) => (operands fuel rest).map fun xs => x :: xs
    | _ => none

/-- Every number as a word of w bits; none when one does not fit. -/
def fitAll (w : Nat) : List Nat → Option (List (BitVec w))
  | [] => some []
  | n :: ns => if n < 2 ^ w then (fitAll w ns).map fun xs => BitVec.ofNat w n :: xs else none

/-- `bytes`: a string, or a braced list of byte values. -/
def Item.bytes? : Item → Option (List Byte)
  | .word _ => none
  | .text bytes => some bytes
  | .nums ns => fitAll 8 ns

/-- A matrix register. -/
def Operand.matrix? : Operand → Option MIdx
  | .item (.word w) => Asm.matrix? w
  | _ => none

/-- An element register. -/
def Operand.element? : Operand → Option EIdx
  | .item (.word w) => Asm.element? w
  | _ => none

/-- `imm8`, a number 0..255. -/
def Operand.imm? : Operand → Option Byte
  | .item (.word w) => (number? w).bind fun n => if n < 256 then some (BitVec.ofNat 8 n) else none
  | _ => none

/-- `bytes`. -/
def Operand.bytes? : Operand → Option (List Byte)
  | .item x => x.bytes?
  | .list _ => none

/-- `"text"`. -/
def Operand.text? : Operand → Option (List Byte)
  | .item (.text bytes) => some bytes
  | _ => none

/-- A braced list of numbers that fit w bits. -/
def Operand.words? (w : Nat) : Operand → Option (List (BitVec w))
  | .item (.nums ns) => fitAll w ns
  | _ => none

/-- A bracketed list of `bytes`. -/
def chunks? : List Item → Option (List (List Byte))
  | [] => some []
  | x :: xs =>
    match x.bytes?, chunks? xs with
    | some c, some cs => some (c :: cs)
    | _, _ => none

/-- A bracketed list of matrix registers, as their payload bytes. -/
def registers? : List Item → Option (List Byte)
  | [] => some []
  | x :: xs =>
    match (Operand.item x).matrix?, registers? xs with
    | some i, some rs => some (BitVec.ofNat 8 i.val :: rs)
    | _, _ => none

/-- A bracketed list of `bytes`. -/
def Operand.chunks? : Operand → Option (List (List Byte))
  | .item _ => none
  | .list xs => Asm.chunks? xs

/-- A bracketed list of matrix registers. -/
def Operand.registers? : Operand → Option (List Byte)
  | .item _ => none
  | .list xs => Asm.registers? xs

/-! ### Lines -/

/-- A line with one operand, read by `p`. -/
def args1 {α : Type} (p : Operand → Option α) (f : α → Instr) : List Operand → Option Instr
  | [x] => (p x).map f
  | _ => none

/-- A line with two operands. -/
def args2 {α β : Type} (p : Operand → Option α) (q : Operand → Option β) (f : α → β → Instr) :
    List Operand → Option Instr
  | x :: xs => (p x).bind fun a => args1 q (f a) xs
  | [] => none

/-- A line with three operands. -/
def args3 {α β γ : Type} (p : Operand → Option α) (q : Operand → Option β) (r : Operand → Option γ)
    (f : α → β → γ → Instr) : List Operand → Option Instr
  | x :: xs => (p x).bind fun a => args2 q r (f a) xs
  | [] => none

/-- A line with four operands. -/
def args4 {α β γ δ : Type} (p : Operand → Option α) (q : Operand → Option β) (r : Operand → Option γ)
    (t : Operand → Option δ) (f : α → β → γ → δ → Instr) : List Operand → Option Instr
  | x :: xs => (p x).bind fun a => args3 q r t (f a) xs
  | [] => none

/-- The command of an opcode and its operands, destination first (R83). -/
def build (o : Opcode) (xs : List Operand) : Option Instr :=
  match o with
  | .fadd => args3 Operand.element? Operand.element? Operand.element? .fadd xs
  | .fmul => args3 Operand.element? Operand.element? Operand.element? .fmul xs
  | .fmuladd => args4 Operand.element? Operand.element? Operand.element? Operand.element? .fmuladd xs
  | .feq => args2 Operand.element? Operand.element? .feq xs
  | .unit => args1 Operand.matrix? .unit xs
  | .mmul => args3 Operand.matrix? Operand.matrix? Operand.matrix? .mmul xs
  | .isvalid => args1 Operand.matrix? .isvalid xs
  | .validate => args2 Operand.matrix? Operand.matrix? .validate xs
  | .meq => args2 Operand.matrix? Operand.matrix? .meq xs
  | .mcmp => args2 Operand.matrix? Operand.matrix? .mcmp xs
  | .bytemat => args2 Operand.matrix? Operand.imm? .bytemat xs
  | .hash => args2 Operand.matrix? Operand.bytes? .hash xs
  | .append => args3 Operand.matrix? Operand.matrix? Operand.bytes? .append xs
  | .prepend => args3 Operand.matrix? Operand.matrix? Operand.bytes? .prepend xs
  | .foldapp => args3 Operand.matrix? Operand.matrix? Operand.chunks? .foldapp xs
  | .foldpre => args3 Operand.matrix? Operand.matrix? Operand.chunks? .foldpre xs
  | .concatall => args2 Operand.matrix? Operand.registers? .concatall xs
  | .pack8 => args2 Operand.matrix? (Operand.words? 8) .pack8 xs
  | .pack16 => args2 Operand.matrix? (Operand.words? 16) .pack16 xs
  | .pack32 => args2 Operand.matrix? (Operand.words? 32) .pack32 xs
  | .pack64 => args2 Operand.matrix? (Operand.words? 64) .pack64 xs
  | .unpack8 => args1 Operand.matrix? .unpack8 xs
  | .unpack16 => args1 Operand.matrix? .unpack16 xs
  | .unpack32 => args1 Operand.matrix? .unpack32 xs
  | .unpack64 => args1 Operand.matrix? .unpack64 xs
  | .showm => args1 Operand.matrix? .showm xs
  | .parse => args2 Operand.matrix? Operand.text? .parse xs
  | .loadu => args2 Operand.matrix? (Operand.words? 8) .loadu xs
  | .rdst => if xs = [] then some .rdst else none

/-- The mnemonic of R79 and, after it, the pseudo-instructions of R84 that are other names for it. -/
def names (o : Opcode) : List String :=
  match o with
  | .fadd => ["FADD"]
  | .fmul => ["FMUL"]
  | .fmuladd => ["FMULADD"]
  | .feq => ["FEQ"]
  | .unit => ["UNIT", "IDENTITY"]
  | .mmul => ["MMUL", "CONCAT", "MULTIPLY"]
  | .isvalid => ["ISVALID", "VALID"]
  | .validate => ["VALIDATE"]
  | .meq => ["MEQ", "EQUALS"]
  | .mcmp => ["MCMP", "COMPARE"]
  | .bytemat => ["BYTEMAT", "BYTEMATRIX"]
  | .hash => ["HASH"]
  | .append => ["APPEND"]
  | .prepend => ["PREPEND"]
  | .foldapp => ["FOLDAPP"]
  | .foldpre => ["FOLDPRE"]
  | .concatall => ["CONCATALL"]
  | .pack8 => ["PACK8"]
  | .pack16 => ["PACK16"]
  | .pack32 => ["PACK32"]
  | .pack64 => ["PACK64"]
  | .unpack8 => ["UNPACK8"]
  | .unpack16 => ["UNPACK16"]
  | .unpack32 => ["UNPACK32"]
  | .unpack64 => ["UNPACK64"]
  | .showm => ["SHOW"]
  | .parse => ["PARSE"]
  | .loadu => ["LOADU"]
  | .rdst => ["RDST"]

/-- The opcode of a mnemonic, in capitals as R83 writes it. -/
def opcodeOf? (w : List Char) : Option Opcode :=
  Opcode.all.find? fun o => (names o).any fun n => n.toList == w

/-- The operands of a mnemonic's tokens. -/
def operandsOf? : List Token → Option (List Operand)
  | [] => some []
  | ts => operands ts.length ts

/-- One line: no command for a blank line or a comment, one command otherwise; none for a line that is not of
R83's form or whose list is too long for its count field (R72, R74). -/
def assembleLine (line : List Char) : Option (List Instr) :=
  match lex .idle line with
  | some [] => some []
  | some (.word w :: ts) =>
    match opcodeOf? w, operandsOf? ts with
    | some o, some xs =>
      match build o xs with
      | some i => if i.wellFormed then some [i] else none
      | none => none
    | _, _ => none
  | _ => none

/-- The commands of a program, one line each. -/
def assemble : List (List Char) → Option (List Instr)
  | [] => some []
  | line :: lines =>
    match assembleLine line, assemble lines with
    | some is, some more => some (is ++ more)
    | _, _ => none

end Sys2Proof.Asm
end

