-- ==== Sys2Proof/Safety.lean ====
section
/-! DEFINITION. The terms the statements are made in: what an answered command leaves behind, what a safe
state is (spec/10_state.md R21, R24, R32; spec/60_exceptions.md R210, R228), and the register access table of
spec/10_state.md R22. No definition here is used by the machine. -/

namespace Sys2Proof.Machine

/-! ### After one command -/

/-- `t` is `s` after one response record `code, dlen, data` (R54), with `ST = {flag, code}` and, but for the
matrix registers, everything else as before. -/
def State.Answered (s t : State) (code : Byte) (flag : Bool) (data : List Byte) : Prop :=
  t = { s with
        m := t.m
        st := ⟨code, flag⟩
        rsp := s.rsp ++ code :: BitVec.ofNat 8 data.length :: BitVec.ofNat 8 (data.length / 256) :: data }

/-- `t` is `s` after a command that failed with the error code `code`: nothing but `ST.CODE` and the
response stream differs (R216). -/
def State.failed (s : State) (code : Byte) : State :=
  { s with st := { s.st with code := code }, rsp := s.rsp ++ [code, 0x00#8, 0x00#8] }

/-- Register `md` holds `v` in `t`, every other matrix register what it held in `s`. -/
def State.WroteOnly (s t : State) (md : MIdx) (v : Mat) : Prop :=
  ∀ i, t.getM i = if i = md then v else s.getM i

/-- Element register `ed` holds `v` in `t`, every other element register what it held in `s`. -/
def State.WroteOnlySlot (s t : State) (ed : EIdx) (v : Slot) : Prop :=
  ∀ k, t.getE k = if k = ed then v else s.getE k

/-- A sequence of commands, one after another. -/
def runCommands : List Instr → State → Out
  | [], s => .next s
  | i :: is, s =>
    match exec i s with
    | .next t => runCommands is t
    | .fault r => .fault r
    | .refused r => .refused r

/-- `n` steps of the engine, one after another. -/
def runSteps : Nat → State → Out
  | 0, s => .next s
  | n + 1, s =>
    match step s with
    | .next t => runSteps n t
    | .fault r => .fault r
    | .refused r => .refused r

/-- The run is over, as far as the engine can tell: no byte of a command is left (R246); the engine is idle
(R227). -/
def State.Idle (s : State) : Prop := s.resetIn = false ∧ s.cmd = []

/-! ### Complete commands (R74, R76) -/

/-- The bytes of one whole command have arrived. -/
def Complete (bs : List Byte) : Prop :=
  ∃ b0 b1 b2 b3 tail n, bs = b0 :: b1 :: b2 :: b3 :: tail ∧
    payloadLength (headerWord b0 b1 b2 b3) tail = some n ∧ n ≤ tail.length

/-! ### Safe states -/

/-- Every slot of every matrix register is canonical (R32). -/
def State.Canonical (s : State) : Prop := ∀ i, (s.getM i).canon = true

/-- Every matrix register is valid: canonical, with determinant 1 (R32). -/
def State.AllValid (s : State) : Prop := ∀ i, (s.getM i).valid = true

/-- The byte is a status code of R210: "Codes `0x06` to `0xFF` are never produced". -/
def IsCode (c : Byte) : Prop := c.toNat ≤ 5

/-- The bytes are a sequence of whole response records of R54, each with a code of R210, and with data only
when the code is OK. -/
inductive Records : List Byte → Prop where
  | none : Records []
  | more (bs : List Byte) (code : Byte) (data : List Byte) : Records bs → IsCode code →
      data.length ≤ 128 → (code ≠ 0x00#8 → data = []) →
      Records (bs ++ code :: BitVec.ofNat 8 data.length :: BitVec.ofNat 8 (data.length / 256) :: data)

/-- What holds of every engine at every time, as long as the host reads whole records: `ST.CODE` is a code
of R210 and the responses not yet read are whole records. -/
structure State.Sound (s : State) : Prop where
  code : IsCode s.st.code
  records : Records s.rsp

end Sys2Proof.Machine

namespace Sys2Proof

/-- The 29 opcode numbers of R79. -/
def assignedOpcodes : List Byte :=
  [0x01, 0x02, 0x03, 0x04, 0x10, 0x11, 0x12, 0x13, 0x14, 0x15, 0x20, 0x30, 0x31, 0x32, 0x33, 0x34, 0x35,
   0x40, 0x41, 0x42, 0x43, 0x44, 0x45, 0x46, 0x47, 0x48, 0x49, 0x4A, 0x50]

/-! ### The commands by what they touch (R22, R27, R54) -/

/-- The matrix registers a command reads. -/
def Instr.reads : Instr → List MIdx
  | .fadd _ ea eb => [regOf ea, regOf eb]
  | .fmul _ ea eb => [regOf ea, regOf eb]
  | .fmuladd _ ea eb ec => [regOf ea, regOf eb, regOf ec]
  | .feq ea eb => [regOf ea, regOf eb]
  | .unit _ => []
  | .mmul _ ma mb => [ma, mb]
  | .isvalid ma => [ma]
  | .validate _ ma => [ma]
  | .meq ma mb => [ma, mb]
  | .mcmp ma mb => [ma, mb]
  | .bytemat _ _ => []
  | .hash _ _ => []
  | .append _ ms _ => [ms]
  | .prepend _ ms _ => [ms]
  | .foldapp _ ms _ => [ms]
  | .foldpre _ ms _ => [ms]
  | .concatall _ regs => regs.filterMap regNumber?
  | .pack8 _ _ => []
  | .pack16 _ _ => []
  | .pack32 _ _ => []
  | .pack64 _ _ => []
  | .unpack8 ma => [ma]
  | .unpack16 ma => [ma]
  | .unpack32 ma => [ma]
  | .unpack64 ma => [ma]
  | .showm ma => [ma]
  | .parse _ _ => []
  | .loadu _ _ => []
  | .rdst => []

/-- The matrix register a command may write, whole. -/
def Instr.writesReg : Instr → Option MIdx
  | .fadd _ _ _ => none
  | .fmul _ _ _ => none
  | .fmuladd _ _ _ _ => none
  | .feq _ _ => none
  | .unit md => some md
  | .mmul md _ _ => some md
  | .isvalid _ => none
  | .validate md _ => some md
  | .meq _ _ => none
  | .mcmp _ _ => none
  | .bytemat md _ => some md
  | .hash md _ => some md
  | .append md _ _ => some md
  | .prepend md _ _ => some md
  | .foldapp md _ _ => some md
  | .foldpre md _ _ => some md
  | .concatall md _ => some md
  | .pack8 md _ => some md
  | .pack16 md _ => some md
  | .pack32 md _ => some md
  | .pack64 md _ => some md
  | .unpack8 _ => none
  | .unpack16 _ => none
  | .unpack32 _ => none
  | .unpack64 _ => none
  | .showm _ => none
  | .parse md _ => some md
  | .loadu md _ => some md
  | .rdst => none

/-- The element register, one slot of a matrix register, a command may write. -/
def Instr.writesSlot : Instr → Option EIdx
  | .fadd ed _ _ => some ed
  | .fmul ed _ _ => some ed
  | .fmuladd ed _ _ _ => some ed
  | _ => none

/-- The command may write element register `k`, alone or with its whole matrix register. -/
def Instr.MayWrite (i : Instr) (k : EIdx) : Prop := i.writesSlot = some k ∨ i.writesReg = some (regOf k)

/-- One of the four commands that write `ST.T` (R27). -/
def Instr.isPredicate : Instr → Bool
  | .feq _ _ => true
  | .isvalid _ => true
  | .meq _ _ => true
  | .mcmp _ _ => true
  | _ => false

/-- `dlen` of an OK response (R54). -/
def Instr.dataLength : Instr → Nat
  | .unpack8 _ => 64
  | .unpack16 _ => 64
  | .unpack32 _ => 64
  | .unpack64 _ => 64
  | .showm _ => 128
  | .feq _ _ => 1
  | .isvalid _ => 1
  | .meq _ _ => 1
  | .mcmp _ _ => 1
  | .rdst => 2
  | _ => 0

/-- The command is LOADU, the one unchecked load (R21). -/
def Instr.isLoadu : Instr → Bool
  | .loadu _ _ => true
  | _ => false

/-- The command writes a single element (R24). -/
def Instr.writesElement : Instr → Bool
  | .fadd _ _ _ => true
  | .fmul _ _ _ => true
  | .fmuladd _ _ _ _ => true
  | _ => false

end Sys2Proof
end

