-- ==== Sys2Proof/Certificates/Slice0/Obligations.lean ====
section
/-! DEFINITION. The statements for the provers. Each docstring names the rules of spec/ it formalises. -/

open Sys2Proof Sys2Proof.Machine

/-! ## The command stream -/

/-- R75, R56, R85: the command in front of the stream is the one executed, at the state whose stream is what
comes after it, and whatever its outcome the next command is the next one on the stream. -/
def Obligations.StepExecutesDecodedCommand : Prop :=
  ∀ (s : State) (i : Instr) (rest : List Byte), s.resetIn = false → decode s.cmd = .command i rest →
    step s = exec i { s with cmd := rest } ∧ ∀ t, step s = .next t → t.cmd = rest

/-- R211, R216: a header that is no legal command is answered E_ILLEGAL, its bytes consumed, nothing but
`ST.CODE` and the response stream changed. -/
def Obligations.IllegalHeaderIsAnswered : Prop :=
  ∀ (s : State) (c : IllegalCause) (rest : List Byte), s.resetIn = false →
    decode s.cmd = .illegal c rest → step s = .next (State.failed { s with cmd := rest } 0x01#8)

/-- R76: while a command is incomplete the engine holds, changing nothing and emitting nothing; the missing
bytes or reset lift the hold. That the hold is a step to the same state is the model's form of R76 (DESIGN
CHOICE, log entry 3; the spec's U14 calls it stuck). -/
def Obligations.EngineHoldsUntilCommandComplete : Prop :=
  ∀ s : State, s.resetIn = false →
    (¬ Complete s.cmd → step s = .next s) ∧
    (Complete s.cmd → ∃ t, step s = .next t ∧ s.rsp.length < t.rsp.length) ∧
    (∀ bytes, Complete (s.cmd ++ bytes) →
      ∃ t, step (s.onHost (.send bytes)) = .next t ∧ s.rsp.length < t.rsp.length) ∧
    (s.onHost .assertReset).cmd = []

/-- R74, R75: the length of a command is fixed before its legality is looked at. -/
def Obligations.LengthIsFixedBeforeLegality : Prop :=
  ∀ (b0 b1 b2 b3 : Byte) (tail : List Byte) (n : Nat),
    payloadLength (headerWord b0 b1 b2 b3) tail = some n → n ≤ tail.length →
    (∃ i, decode (b0 :: b1 :: b2 :: b3 :: tail) = .command i (tail.drop n)) ∨
    (∃ c, decode (b0 :: b1 :: b2 :: b3 :: tail) = .illegal c (tail.drop n))

/-- R70 to R74, R79, R81: every command that has an encoding is read back from it, every operand with it. -/
def Obligations.DecodeOfEncode : Prop :=
  ∀ (i : Instr) (rest : List Byte), i.wellFormed = true → decode (encode i ++ rest) = .command i rest

/-- R70 to R74, R78, R79: a command is read from no bytes but its own encoding. -/
def Obligations.EncodeOfDecode : Prop :=
  ∀ (bs : List Byte) (i : Instr) (rest : List Byte), decode bs = .command i rest →
    i.wellFormed = true ∧ bs = encode i ++ rest

/-- R77 to R80: a header is a legal command exactly when it matches a row of spec/opcode_table.json, and
then it is that row's command. -/
def Obligations.HeaderLegalIffTableRow : Prop :=
  ∀ (w : BitVec 32) (tail : List Byte) (n : Nat), payloadLength w tail = some n → n ≤ tail.length →
    ((∃ i rest, decode (headerBytes w ++ tail) = .command i rest) ↔
      ∃ r ∈ opcodeTable, w &&& r.mask = r.value) ∧
    ∀ r ∈ opcodeTable, w &&& r.mask = r.value →
      ∀ i rest, decode (headerBytes w ++ tail) = .command i rest → i.opcode = r.opcode

/-- R86: the seven worked encodings, assembly, header word and stream bytes. -/
def Obligations.WorkedEncodings : Prop :=
  ∀ row ∈ ([("FADD e0, e1, e2", .fadd 0 1 2, 0x00082001#32, [0x01, 0x20, 0x08, 0x00]),
      ("FMULADD e7, e4, e5, e6", .fmuladd 7 4 5 6, 0x03148703#32, [0x03, 0x87, 0x14, 0x03]),
      ("MMUL m2, m0, m1", .mmul 2 0 1, 0x00040211#32, [0x11, 0x02, 0x04, 0x00]),
      ("BYTEMAT m3, 0x41", .bytemat 3 0x41, 0x01040320#32, [0x20, 0x03, 0x04, 0x01]),
      ("HASH m0, \"ABC\"", .hash 0 [0x41, 0x42, 0x43], 0x000C0030#32,
        [0x30, 0x00, 0x0C, 0x00, 0x41, 0x42, 0x43]),
      ("APPEND m1, m0, \"BC\"", .append 1 0 [0x42, 0x43], 0x00080131#32,
        [0x31, 0x01, 0x08, 0x00, 0x42, 0x43]),
      ("RDST", .rdst, 0x00000050#32, [0x50, 0x00, 0x00, 0x00])] :
        List (String × Instr × BitVec 32 × List Byte)),
    Asm.assembleLine row.1.toList = some [row.2.1] ∧ row.2.1.header = row.2.2.1 ∧
      encode row.2.1 = row.2.2.2 ∧ decode row.2.2.2 = .command row.2.1 []

/-- R84: a pseudo-instruction is another name for its command, with the same operands, whatever they are; and
no line stands for more than one command. That a line stands for no command without an encoding is the model's
choice, log entry 13. -/
def Obligations.PseudoInstructionsAreOtherNames : Prop :=
  (∀ p ∈ [("CONCAT", "MMUL"), ("MULTIPLY", "MMUL"), ("IDENTITY", "UNIT"), ("VALID", "ISVALID"),
      ("EQUALS", "MEQ"), ("COMPARE", "MCMP"), ("BYTEMATRIX", "BYTEMAT")], ∀ operands : List Char,
    Asm.assembleLine (p.1.toList ++ ' ' :: operands) = Asm.assembleLine (p.2.toList ++ ' ' :: operands)) ∧
  ∀ (line : List Char) (is : List Instr), Asm.assembleLine line = some is →
    is.length ≤ 1 ∧ ∀ i ∈ is, i.wellFormed = true

/-- R80: the other 227 values are unassigned, each a 4-byte command answered E_ILLEGAL with no state change
but `ST.CODE`; and every header is either a legal command of a table row or answered E_ILLEGAL. -/
def Obligations.UnassignedOpcodesAreIllegal : Prop :=
  ((List.range 256).filter fun n => BitVec.ofNat 8 n ∉ assignedOpcodes).length = 227 ∧
  0x00#8 ∉ assignedOpcodes ∧ 0xFF#8 ∉ assignedOpcodes ∧
  (∀ (s : State) (b0 b1 b2 b3 : Byte) (tail : List Byte), b0 ∉ assignedOpcodes → s.resetIn = false →
    s.cmd = b0 :: b1 :: b2 :: b3 :: tail →
    step s = .next (State.failed { s with cmd := tail } 0x01#8)) ∧
  (∀ (s : State) (b0 b1 b2 b3 : Byte) (tail : List Byte) (n : Nat), s.resetIn = false →
    s.cmd = b0 :: b1 :: b2 :: b3 :: tail →
    payloadLength (headerWord b0 b1 b2 b3) tail = some n → n ≤ tail.length →
    (∃ r ∈ opcodeTable, headerWord b0 b1 b2 b3 &&& r.mask = r.value ∧
      ∃ i, i.opcode = r.opcode ∧ step s = exec i { s with cmd := tail.drop n }) ∨
    step s = .next (State.failed { s with cmd := tail.drop n } 0x01#8))

/-! ## Every command -/

/-- R228, R216: no step stops; there is no fatal state, whatever the state and the bytes. Two things are the
model's: that there is neither a fault nor a refusal is its reading of R216 and R228 (log entry 12), and the hold
of R76, which R228 excepts, is a step to the same state (log entry 3). -/
def Obligations.EveryStepGoesOn : Prop :=
  (∀ s : State, ∃ t, step s = .next t) ∧ ∀ (i : Instr) (s : State), ∃ t, exec i s = .next t

/-- R56, R246: a stream of whole commands is executed in order, one step each: the end state is that of the
commands one after another, the bytes after them are next, and what the engine answered is one record per
command, in order; with nothing left to execute the engine is idle (R227), which the model says as a step to the
same state (log entry 3). -/
def Obligations.CommandStreamRunsInOrder : Prop :=
  ∀ (s : State) (is : List Instr) (rest : List Byte), s.resetIn = false →
    (∀ i ∈ is, i.wellFormed = true) → s.cmd = is.flatMap encode ++ rest →
    ∃ t answers, runSteps is.length s = .next t ∧ runCommands is { s with cmd := rest } = .next t ∧
      t.cmd = rest ∧ t.rsp = s.rsp ++ (answers : List (Byte × List Byte)).flatMap (fun a => record a.1 a.2) ∧
      answers.length = is.length ∧ (∀ a ∈ answers, IsCode a.1 ∧ (a.1 ≠ 0x00#8 → a.2 = [])) ∧
      (rest = [] → t.Idle ∧ step t = .next t)

/-- R54: every complete command produces exactly one response record, of the length R54 gives it when the
code is OK and without data otherwise. -/
def Obligations.OneResponseRecordPerCommand : Prop :=
  ∀ s : State, s.resetIn = false → Complete s.cmd → ∃ t code data, step s = .next t ∧
    t.rsp = s.rsp ++ code :: BitVec.ofNat 8 data.length :: BitVec.ofNat 8 (data.length / 256) :: data ∧
    (code = 0x00#8 → ∃ i rest, decode s.cmd = .command i rest ∧ data.length = i.dataLength) ∧
    (code ≠ 0x00#8 → IsCode code ∧ data = [])

/-- R216: a command that answers an error code writes no register and not `ST.T`; it sets `ST.CODE`, answers
without data, and the bytes after it are next. -/
def Obligations.FailedCommandChangesOnlyCode : Prop :=
  ∀ (s t : State) (code : Byte) (more : List Byte), s.resetIn = false → step s = .next t →
    t.rsp = s.rsp ++ code :: more → code ≠ 0x00#8 →
    more = [0x00#8, 0x00#8] ∧ ∃ rest, t = State.failed { s with cmd := rest } code ∧
      ((∃ c, decode s.cmd = .illegal c rest) ∨ ∃ i, decode s.cmd = .command i rest)

/-- R27: `ST.T` is written by FEQ, ISVALID, MEQ and MCMP alone, only with code OK, with the truth value of
each, which the response data carries too; no other command's behaviour depends on it. -/
def Obligations.TruthFlagWritersAndReader : Prop :=
  (∀ s t : State, s.resetIn = false → step s = .next t → t.st.t ≠ s.st.t →
    t.st.code = 0x00#8 ∧ ∃ i rest, decode s.cmd = .command i rest ∧ i.isPredicate = true) ∧
  (∀ (s t : State) (ea eb : EIdx), exec (.feq ea eb) s = .next t → t.st.code = 0x00#8 →
    (t.st.t = true ↔ s.getE ea = s.getE eb) ∧
    t.rsp = s.rsp ++ [0x00#8, 0x01#8, 0x00#8, if t.st.t then 0x01#8 else 0x00#8]) ∧
  (∀ (s t : State) (ma : MIdx), exec (.isvalid ma) s = .next t → t.st.t = (s.getM ma).valid ∧
    t.rsp = s.rsp ++ [0x00#8, 0x01#8, 0x00#8, if t.st.t then 0x01#8 else 0x00#8]) ∧
  (∀ (s t : State) (ma mb : MIdx), exec (.meq ma mb) s = .next t →
    (t.st.t = true ↔ s.getM ma = s.getM mb) ∧
    t.rsp = s.rsp ++ [0x00#8, 0x01#8, 0x00#8, if t.st.t then 0x01#8 else 0x00#8]) ∧
  (∀ (s t : State) (ma mb : MIdx), exec (.mcmp ma mb) s = .next t →
    (t.st.t = true ↔ s.getM ma = s.getM mb) ∧
    ∃ d, t.rsp = s.rsp ++ [0x00#8, 0x01#8, 0x00#8, d] ∧ (d = 0x00#8 ↔ t.st.t = true)) ∧
  (∀ (i : Instr) (s t : State) (b : Bool), i ≠ .rdst → exec i s = .next t →
    ∃ t', exec i { s with st := { s.st with t := b } } = .next t' ∧
      t = { t' with st := { t'.st with t := t.st.t } })

/-- R22, R23: a command leaves every element register unchanged that is neither its destination slot nor
in its destination register. -/
def Obligations.RegistersOutsideDestinationKept : Prop :=
  ∀ (i : Instr) (s t : State) (k : EIdx), exec i s = .next t → ¬ i.MayWrite k → t.getE k = s.getE k

/-- R22, R13: what a command answers and writes depends on no register but the ones it reads (and on the
generator pair); RDST, which reads `ST`, is left to its own statement. -/
def Obligations.ResultDependsOnlyOnRegistersRead : Prop :=
  ∀ (i : Instr) (s s' t : State), i ≠ .rdst → s'.gen = s.gen →
    (∀ r ∈ i.reads, s'.getM r = s.getM r) → exec i s = .next t →
    ∃ t' bytes, exec i s' = .next t' ∧ t.rsp = s.rsp ++ bytes ∧ t'.rsp = s'.rsp ++ bytes ∧
      t'.st.code = t.st.code ∧ (i.isPredicate = true → t.st.code = 0x00#8 → t'.st.t = t.st.t) ∧
      ∀ k, i.MayWrite k → t'.getE k = t.getE k ∨ (t'.getE k = s'.getE k ∧ t.getE k = s.getE k)

/-- R28, R245: no step and no host event changes the generator pair; the host reaches registers and status
only through commands and reset. -/
def Obligations.ConstantsAndHostReach : Prop :=
  (∀ s t : State, step s = .next t → t.gen = s.gen) ∧
  ∀ (s : State) (e : HostEvent), (s.onHost e).gen = s.gen ∧
    (e ≠ .assertReset → (s.onHost e).m = s.m ∧ (s.onHost e).st = s.st)

/-! ## Invariants -/

/-- R210, R54: `ST.CODE` stays a code of R210, and the response stream a sequence of whole records. -/
def Obligations.StatusAndResponsesStaySound : Prop :=
  ∀ s t : State, s.Sound → step s = .next t → t.Sound

/-- R21, R32: only LOADU can put a non-canonical slot into a register. -/
def Obligations.OnlyLoaduBreaksCanonicalForm : Prop :=
  ∀ s t : State, s.Canonical → step s = .next t →
    (∀ i rest, decode s.cmd = .command i rest → i.isLoadu = false) → t.Canonical

/-- R24, R32: only LOADU and the element commands can make a register invalid, for every valid generator
pair. -/
def Obligations.OnlyLoaduAndElementWritesBreakValidity : Prop :=
  ∀ s t : State, s.gen.valid = true → s.AllValid → step s = .next t →
    (∀ i rest, decode s.cmd = .command i rest → i.isLoadu = false ∧ i.writesElement = false) → t.AllValid

/-- R31, R32: the three invariants hold after reset, for every generator pair; the default pair, which is
the spec's general knowledge (log entry 1), is valid. -/
def Obligations.InvariantsHoldAtReset : Prop :=
  (∀ G : GenPair, (State.resetWith G).Sound ∧ (State.resetWith G).Canonical ∧ (State.resetWith G).AllValid) ∧
  State.reset.Sound ∧ State.reset.Canonical ∧ State.reset.AllValid ∧ State.reset.gen.valid = true

/-- R32: after reset and any commands without LOADU every register is canonical, and valid when there is no
element command either and the generators are valid. -/
def Obligations.RunsWithoutLoaduKeepRegistersGood : Prop :=
  ∀ (G : GenPair) (is : List Instr) (t : State), runCommands is (State.resetWith G) = .next t →
    (∀ i ∈ is, i.isLoadu = false) →
    t.Canonical ∧ (G.valid = true → (∀ i ∈ is, i.writesElement = false) → t.AllValid)

/-! ## Reset -/

/-- R31: the value of every piece of state after reset, which is `State.reset` and, from any state, the state
after the reset input is asserted and released; the constants are unaffected. That no response is left after a
reset is the model's reading of R240 (log entry 6). -/
def Obligations.ResetState : Prop :=
  (∀ r : State, (r = State.reset ∨ ∃ s : State, r = (s.onHost .assertReset).onHost .releaseReset) →
    (∀ i, r.getM i = ⟨1, 0, 0, 1⟩ ∧ (r.getM i).bits = (1#512 ||| (1#512 <<< 384))) ∧
    (∀ k : EIdx, r.getE k = if k.val % 4 = 0 ∨ k.val % 4 = 3 then 1#128 else 0#128) ∧
    r.st = ⟨0x00#8, false⟩ ∧ r.st.word = 0#16 ∧ r.cmd = [] ∧ r.rsp = [] ∧ r.resetIn = false) ∧
  ∀ s : State, ((s.onHost .assertReset).onHost .releaseReset).gen = s.gen

/-- R240: reset drops a command not yet complete and a response not yet delivered, and the next byte after
it is the first byte of a header. Two readings are the model's: that no unread response is left (log entry 6), and
that a step while reset is asserted leaves the reset state with the input still asserted (log entry 5). -/
def Obligations.ResetDropsUnfinishedCommand : Prop :=
  (∀ (s : State) (bytes : List Byte),
    (((s.onHost .assertReset).onHost .releaseReset).onHost (.send bytes)) =
      { State.resetWith s.gen with cmd := bytes }) ∧
  ∀ s : State, s.resetIn = true →
    step s = .next { State.resetWith s.gen with resetIn := true }

/-! ## The field -/

/-- R101: `fmul(a, b)` is the reduced product, the unique polynomial of degree < 127 congruent to the product modulo `P`, and the
product has at most 253 bits. -/
def Obligations.FmulIsUniqueRemainder : Prop :=
  ∀ a b : Fe, fmul a b = reduce (clmul a b) ∧ clmul a b < 2 ^ 253 ∧
    (∃ q : BitVec 126, clmul a b = clmul q reductionPoly ^^^ (fmul a b).toNat) ∧
    ∀ (q : BitVec 126) (r : Fe), clmul a b = clmul q reductionPoly ^^^ r.toNat → r = fmul a b

/-- R104: two shift-and-XOR folds reduce every product of at most 253 bits, with the widths R104 gives the
intermediate values, and one fold does not. -/
def Obligations.TwoFoldsReduce : Prop :=
  (∀ p : Nat, p < 2 ^ 253 → foldOnce p < 2 ^ 189 ∧ foldOnce (foldOnce p) < 2 ^ 127 ∧
    reduce p = reduceTwoFold p) ∧
  ∃ a b : Fe, 2 ^ 127 ≤ foldOnce (clmul a b)

/-- R102: fusing changes no bit. -/
def Obligations.FusedMultiplyAdd : Prop :=
  ∀ a b c : Fe, fmuladd a b c = fadd (fmul a b) c ∧ fmuladd a b c = reduce (clmul a b ^^^ c.toNat)

/-- R110, first half: the field functions form a commutative ring of characteristic 2. -/
def Obligations.FieldRingLaws : Prop :=
  (∀ a b c : Fe, fadd (fadd a b) c = fadd a (fadd b c)) ∧ (∀ a b : Fe, fadd a b = fadd b a) ∧
  (∀ a : Fe, fadd a 0 = a) ∧ (∀ a : Fe, fadd a a = 0) ∧
  (∀ a b c : Fe, fmul (fmul a b) c = fmul a (fmul b c)) ∧ (∀ a b : Fe, fmul a b = fmul b a) ∧
  (∀ a : Fe, fmul a 1 = a) ∧ (∀ a : Fe, fmul a 0 = 0) ∧
  ∀ a b c : Fe, fmul a (fadd b c) = fadd (fmul a b) (fmul a c)

/-- R110, second half, and R7: there are no zero divisors, and every nonzero element has an inverse. -/
def Obligations.FieldHasInverses : Prop :=
  (∀ a b : Fe, fmul a b = 0 → a = 0 ∨ b = 0) ∧ (∀ a : Fe, a ≠ 0 → ∃ b, fmul a b = 1) ∧
  fmul 2 0x40000000000000004000000000000000 = 1

/-- R113: the products by x, x + 1, 0, 1 and a bit as shift, XOR and AND. -/
def Obligations.SpecialProducts : Prop :=
  ∀ a : Fe,
    fmul a 2 = (a <<< 1) ^^^ (if a.getLsbD 126 then 0x8000000000000001#127 else 0#127) ∧
    fmul a 3 = fmul a 2 ^^^ a ∧ fmul a 0 = 0 ∧ fmul a 1 = a ∧
    ∀ bit : Bool, fmul a (if bit then 1 else 0) = a &&& (if bit then BitVec.allOnes 127 else 0#127)

/-- R106, R107, R108, R105: the three element arithmetic commands on canonical sources. -/
def Obligations.ElementArithmeticCommands : Prop :=
  (∀ (s : State) (ed ea eb : EIdx), (s.getE ea).getLsbD 127 = false → (s.getE eb).getLsbD 127 = false →
    ∃ t, exec (.fadd ed ea eb) s = .next t ∧ s.Answered t 0x00#8 s.st.t [] ∧
      s.WroteOnlySlot t ed (s.getE ea ^^^ s.getE eb)) ∧
  (∀ (s : State) (ed ea eb : EIdx), (s.getE ea).getLsbD 127 = false → (s.getE eb).getLsbD 127 = false →
    ∃ t, exec (.fmul ed ea eb) s = .next t ∧ s.Answered t 0x00#8 s.st.t [] ∧
      s.WroteOnlySlot t ed
        (0#1 ++ fmul ((s.getE ea).extractLsb' 0 127) ((s.getE eb).extractLsb' 0 127))) ∧
  ∀ (s : State) (ed ea eb ec : EIdx), (s.getE ea).getLsbD 127 = false → (s.getE eb).getLsbD 127 = false →
    (s.getE ec).getLsbD 127 = false →
    ∃ t, exec (.fmuladd ed ea eb ec) s = .next t ∧ s.Answered t 0x00#8 s.st.t [] ∧
      s.WroteOnlySlot t ed
        ((0#1 ++ fmul ((s.getE ea).extractLsb' 0 127) ((s.getE eb).extractLsb' 0 127)) ^^^ s.getE ec)

/-- R109: FEQ on canonical sources answers the truth value and writes it to `ST.T`, no register. -/
def Obligations.FeqCommand : Prop :=
  ∀ (s : State) (ea eb : EIdx), (s.getE ea).getLsbD 127 = false → (s.getE eb).getLsbD 127 = false →
    (s.getE ea = s.getE eb →
      exec (.feq ea eb) s = .next { s with st := ⟨0x00#8, true⟩, rsp := s.rsp ++ [0x00, 0x01, 0x00, 0x01] }) ∧
    (s.getE ea ≠ s.getE eb →
      exec (.feq ea eb) s = .next { s with st := ⟨0x00#8, false⟩, rsp := s.rsp ++ [0x00, 0x01, 0x00, 0x00] })

/-! ## The matrix group -/

/-- R128: UNIT loads the identity. -/
def Obligations.UnitCommand : Prop :=
  ∀ (s : State) (md : MIdx), ∃ t, exec (.unit md) s = .next t ∧ s.Answered t 0x00#8 s.st.t [] ∧
    s.WroteOnly t md ⟨1, 0, 0, 1⟩

/-- R133, R122: MMUL writes the product, row times column with `ma` the left factor, of two canonical
registers, valid or not (for one that is not canonical see ArithmeticCommandsCheckRange). -/
def Obligations.MmulCommand : Prop :=
  ∀ (s : State) (md ma mb : MIdx) (a b c d e f g h : Fe),
    s.getM ma = ⟨0#1 ++ a, 0#1 ++ b, 0#1 ++ c, 0#1 ++ d⟩ →
    s.getM mb = ⟨0#1 ++ e, 0#1 ++ f, 0#1 ++ g, 0#1 ++ h⟩ →
    ∃ t, exec (.mmul md ma mb) s = .next t ∧ s.Answered t 0x00#8 s.st.t [] ∧
      s.WroteOnly t md ⟨0#1 ++ (fmul a e ^^^ fmul b g), 0#1 ++ (fmul a f ^^^ fmul b h),
        0#1 ++ (fmul c e ^^^ fmul d g), 0#1 ++ (fmul c f ^^^ fmul d h)⟩

/-- R124, R121: valid is four range bits 0 and determinant 1. -/
def Obligations.ValidMeansCanonicalWithDeterminantOne : Prop :=
  ∀ M : Mat, (M.valid = true ↔ M.canon = true ∧
      fmul (M.a.extractLsb' 0 127) (M.d.extractLsb' 0 127) ^^^
        fmul (M.b.extractLsb' 0 127) (M.c.extractLsb' 0 127) = 1) ∧
    (M.canon = true ↔ M.a.getLsbD 127 = false ∧ M.b.getLsbD 127 = false ∧ M.c.getLsbD 127 = false ∧
      M.d.getLsbD 127 = false)

/-- R129, R130: ISVALID answers the truth value, with code OK either way, and writes no register; VALIDATE
copies a valid register and refuses any other with E_INVALID. -/
def Obligations.IsvalidAndValidateCommands : Prop :=
  ∀ (s : State) (md ma : MIdx),
    ((s.getM ma).valid = true →
      exec (.isvalid ma) s = .next { s with st := ⟨0x00#8, true⟩, rsp := s.rsp ++ [0x00, 0x01, 0x00, 0x01] } ∧
      ∃ t, exec (.validate md ma) s = .next t ∧ s.Answered t 0x00#8 s.st.t [] ∧
        s.WroteOnly t md (s.getM ma)) ∧
    ((s.getM ma).valid = false →
      exec (.isvalid ma) s = .next { s with st := ⟨0x00#8, false⟩, rsp := s.rsp ++ [0x00, 0x01, 0x00, 0x00] } ∧
      exec (.validate md ma) s = .next (s.failed 0x03#8))

/-- R131, R132: MEQ and MCMP on any registers; no register is written. -/
def Obligations.CompareCommands : Prop :=
  ∀ (s : State) (ma mb : MIdx),
    (s.getM ma = s.getM mb →
      exec (.meq ma mb) s = .next { s with st := ⟨0x00#8, true⟩, rsp := s.rsp ++ [0x00, 0x01, 0x00, 0x01] } ∧
      exec (.mcmp ma mb) s = .next { s with st := ⟨0x00#8, true⟩, rsp := s.rsp ++ [0x00, 0x01, 0x00, 0x00] }) ∧
    (s.getM ma ≠ s.getM mb →
      exec (.meq ma mb) s =
        .next { s with st := ⟨0x00#8, false⟩, rsp := s.rsp ++ [0x00, 0x01, 0x00, 0x00] }) ∧
    (mcmp (s.getM ma) (s.getM mb) = .gt →
      exec (.mcmp ma mb) s =
        .next { s with st := ⟨0x00#8, false⟩, rsp := s.rsp ++ [0x00, 0x01, 0x00, 0x01] }) ∧
    (mcmp (s.getM ma) (s.getM mb) = .lt →
      exec (.mcmp ma mb) s =
        .next { s with st := ⟨0x00#8, false⟩, rsp := s.rsp ++ [0x00, 0x01, 0x00, 0xFF] })

/-- R125: equality is of all four slots, and `mcmp` is the lexicographic order of the slots (a, b, c, d) as
unsigned numbers. -/
def Obligations.McmpIsLexicographicOrder : Prop :=
  ∀ M N : Mat, (meq M N = true ↔ M.a = N.a ∧ M.b = N.b ∧ M.c = N.c ∧ M.d = N.d) ∧
    (mcmp M N = .eq ↔ M = N) ∧
    (mcmp M N = .lt ↔ M.a.toNat < N.a.toNat ∨ (M.a = N.a ∧ (M.b.toNat < N.b.toNat ∨
      (M.b = N.b ∧ (M.c.toNat < N.c.toNat ∨ (M.c = N.c ∧ M.d.toNat < N.d.toNat)))))) ∧
    (mcmp M N = .gt ↔ mcmp N M = .lt)

/-- R127: the determinant of a product is the product of the determinants, so valid matrices are closed
under `mmul`. -/
def Obligations.DeterminantIsMultiplicative : Prop :=
  ∀ X Y : FMat, det (mmul X Y) = fmul (det X) (det Y) ∧
    (X.valid = true → Y.valid = true → (mmul X Y).valid = true)

/-- R135: `mmul` is associative and `IDENT` neutral on both sides, valid or not. -/
def Obligations.MmulIsMonoid : Prop :=
  (∀ X Y Z : FMat, mmul (mmul X Y) Z = mmul X (mmul Y Z)) ∧
  ∀ X : FMat, mmul ident X = X ∧ mmul X ident = X

/-! ## The generator table -/

/-- R141, R143: a table entry is the product of the eight bit generators, bit 7 the leftmost factor, and is
valid when the generators are. -/
def Obligations.TableEntryIsOrderedProduct : Prop :=
  ∀ (G : GenPair) (v : Byte),
    (GT G v = mmul (G.bit (v.getLsbD 7)) (mmul (G.bit (v.getLsbD 6)) (mmul (G.bit (v.getLsbD 5))
      (mmul (G.bit (v.getLsbD 4)) (mmul (G.bit (v.getLsbD 3)) (mmul (G.bit (v.getLsbD 2))
        (mmul (G.bit (v.getLsbD 1)) (G.bit (v.getLsbD 0))))))))) ∧
    (G.valid = true → (GT G v).valid = true)

/-- R145: folding byte by byte through the table is folding bit by bit, bit 7 of each byte first. -/
def Obligations.ByteFoldIsBitFold : Prop :=
  ∀ (G : GenPair) (H : FMat) (msg : List Byte),
    appendBytes G H msg =
      (msg.flatMap fun v => [7, 6, 5, 4, 3, 2, 1, 0].map fun i => v.getLsbD i).foldl
        (fun X t => mmul X (G.bit t)) H

/-- R144: for the default pair (the spec's general knowledge, log entry 1) multiplication by one generator is
shift, XOR and AND. -/
def Obligations.DefaultPairNeedsOnlyShifts : Prop :=
  GenPair.default.valid = true ∧
  ∀ M : FMat,
    mmul M GenPair.default.g0 = ⟨fmul M.a 2 ^^^ M.b, M.a, fmul M.c 2 ^^^ M.d, M.c⟩ ∧
    mmul M GenPair.default.g1 = ⟨fmul M.a 2 ^^^ M.b, M.a ^^^ (fmul M.a 2 ^^^ M.b), fmul M.c 2 ^^^ M.d,
      M.c ^^^ (fmul M.c 2 ^^^ M.d)⟩ ∧
    mmul GenPair.default.g0 M = ⟨fmul M.a 2 ^^^ M.c, fmul M.b 2 ^^^ M.d, M.a, M.b⟩ ∧
    mmul GenPair.default.g1 M = ⟨fmul M.a 2 ^^^ fmul M.c 3, fmul M.b 2 ^^^ fmul M.d 3, M.a ^^^ M.c,
      M.b ^^^ M.d⟩

/-- R142: BYTEMAT writes the table entry of its byte, the value HASH writes for that one byte. -/
def Obligations.BytematCommand : Prop :=
  ∀ (s : State) (md : MIdx) (v : Byte), ∃ t, exec (.bytemat md v) s = .next t ∧
    s.Answered t 0x00#8 s.st.t [] ∧ s.WroteOnly t md (GT s.gen v).reg ∧
    exec (.hash md [v]) s = .next t

/-! ## The hash engine -/

/-- R150 to R155: HASH always, APPEND and PREPEND on a canonical source, with the folds of R150 to R152. -/
def Obligations.HashAppendPrependCommands : Prop :=
  (∀ (s : State) (md : MIdx) (msg : List Byte), ∃ t, exec (.hash md msg) s = .next t ∧
    s.Answered t 0x00#8 s.st.t [] ∧ s.WroteOnly t md (appendBytes s.gen ident msg).reg) ∧
  (∀ (s : State) (md ms : MIdx) (msg : List Byte) (H : FMat), s.getM ms = H.reg →
    (∃ t, exec (.append md ms msg) s = .next t ∧ s.Answered t 0x00#8 s.st.t [] ∧
      s.WroteOnly t md (appendBytes s.gen H msg).reg) ∧
    ∃ t, exec (.prepend md ms msg) s = .next t ∧ s.Answered t 0x00#8 s.st.t [] ∧
      s.WroteOnly t md (prependBytes s.gen msg H).reg) ∧
  ∀ (G : GenPair) (H : FMat) (msg : List Byte) (v : Byte),
    appendBytes G H [] = H ∧ appendBytes G H (msg ++ [v]) = mmul (appendBytes G H msg) (GT G v) ∧
    prependBytes G [] H = H ∧ prependBytes G (v :: msg) H = mmul (GT G v) (prependBytes G msg H)

/-- R156 to R158: FOLDAPP and FOLDPRE on a canonical source append and prepend the chunks, a fold's last
chunk being prepended first. -/
def Obligations.FoldCommands : Prop :=
  (∀ (s : State) (md ms : MIdx) (cs : List (List Byte)) (H : FMat), s.getM ms = H.reg →
    (∃ t, exec (.foldapp md ms cs) s = .next t ∧ s.Answered t 0x00#8 s.st.t [] ∧
      s.WroteOnly t md (foldAppend s.gen H cs).reg) ∧
    ∃ t, exec (.foldpre md ms cs) s = .next t ∧ s.Answered t 0x00#8 s.st.t [] ∧
      s.WroteOnly t md (foldPrepend s.gen cs H).reg) ∧
  ∀ (G : GenPair) (H : FMat) (cs : List (List Byte)) (c : List Byte),
    foldAppend G H [] = H ∧ foldAppend G H (cs ++ [c]) = appendBytes G (foldAppend G H cs) c ∧
    foldPrepend G [] H = H ∧ foldPrepend G (c :: cs) H = prependBytes G c (foldPrepend G cs H)

/-- R159, R217: CONCATALL: a register number above 7 is E_ILLEGAL, whatever the registers hold; else a named
register that is not canonical is E_RANGE; else the canonical registers give their left-to-right product, all
reads being of the values before the command. -/
def Obligations.ConcatallCommand : Prop :=
  (∀ (s : State) (md : MIdx) (regs : List Byte), (∃ b ∈ regs, 7 < b.toNat) →
    exec (.concatall md regs) s = .next (s.failed 0x01#8)) ∧
  (∀ (s : State) (md : MIdx) (rs : List MIdx), (∃ r ∈ rs, (s.getM r).canon = false) →
    exec (.concatall md (rs.map fun r => BitVec.ofNat 8 r.val)) s = .next (s.failed 0x05#8)) ∧
  (∀ (s : State) (md : MIdx) (rs : List MIdx) (Xs : List FMat),
    rs.map (fun r => s.getM r) = Xs.map FMat.reg →
    ∃ t, exec (.concatall md (rs.map fun r => BitVec.ofNat 8 r.val)) s = .next t ∧
      s.Answered t 0x00#8 s.st.t [] ∧ s.WroteOnly t md (concatAll Xs).reg) ∧
  concatAll [] = ident ∧ (∀ X : FMat, concatAll [X] = X) ∧
  ∀ (Xs : List FMat) (Y : FMat), Xs ≠ [] → concatAll (Xs ++ [Y]) = mmul (concatAll Xs) Y

/-- R111, R165, R215: an arithmetic command with a source whose range bit is set fails with E_RANGE and writes
nothing: the element commands by slot, the matrix commands by register. -/
def Obligations.ArithmeticCommandsCheckRange : Prop :=
  (∀ (s : State) (ed ea eb : EIdx), (s.getE ea).getLsbD 127 = true ∨ (s.getE eb).getLsbD 127 = true →
    exec (.fadd ed ea eb) s = .next (s.failed 0x05#8) ∧ exec (.fmul ed ea eb) s = .next (s.failed 0x05#8) ∧
    exec (.feq ea eb) s = .next (s.failed 0x05#8)) ∧
  (∀ (s : State) (ed ea eb ec : EIdx),
    (s.getE ea).getLsbD 127 = true ∨ (s.getE eb).getLsbD 127 = true ∨ (s.getE ec).getLsbD 127 = true →
    exec (.fmuladd ed ea eb ec) s = .next (s.failed 0x05#8)) ∧
  (∀ (s : State) (md ma mb : MIdx), (s.getM ma).canon = false ∨ (s.getM mb).canon = false →
    exec (.mmul md ma mb) s = .next (s.failed 0x05#8)) ∧
  (∀ (s : State) (md ms : MIdx) (msg : List Byte) (cs : List (List Byte)), (s.getM ms).canon = false →
    exec (.append md ms msg) s = .next (s.failed 0x05#8) ∧
    exec (.prepend md ms msg) s = .next (s.failed 0x05#8) ∧
    exec (.foldapp md ms cs) s = .next (s.failed 0x05#8) ∧
    exec (.foldpre md ms cs) s = .next (s.failed 0x05#8)) ∧
  ∀ (s : State) (md : MIdx) (rs : List MIdx), (∃ r ∈ rs, (s.getM r).canon = false) →
    exec (.concatall md (rs.map fun r => BitVec.ofNat 8 r.val)) s = .next (s.failed 0x05#8)

/-- R151, R156, R161: each fold is one multiplication by the hash of the bytes it folds, for every matrix of
field elements, valid or not. -/
def Obligations.FoldsAreMultiplicationByHash : Prop :=
  ∀ (G : GenPair) (H : FMat) (msg : List Byte) (cs : List (List Byte)),
    mmul H (hashBytes G msg) = appendBytes G H msg ∧ mmul (hashBytes G msg) H = prependBytes G msg H ∧
    foldAppend G H cs = mmul H (hashBytes G cs.flatten) ∧
    foldPrepend G cs H = mmul (hashBytes G cs.flatten) H

/-- R162: the hash is a homomorphism, and hashing the chunks of a message separately and multiplying the
hashes in chunk order, with any parenthesization, gives the hash of the message. -/
def Obligations.HashIsHomomorphism : Prop :=
  ∀ G : GenPair,
    (∀ s1 s2 : List Byte, hashBytes G (s1 ++ s2) = mmul (hashBytes G s1) (hashBytes G s2)) ∧
    (∀ cs : List (List Byte), concatAll (cs.map (hashBytes G)) = hashBytes G cs.flatten) ∧
    ∀ Xs Ys : List FMat, concatAll (Xs ++ Ys) = mmul (concatAll Xs) (concatAll Ys)

/-- R161 in commands, and R163: the command sequences R161 names leave the same register value, and a long
message is hashed by HASH of its first part and APPEND of each further part. The last clause compares with HASH
of the whole message also where that, or a part, is too long to have an encoding (log entry 14). -/
def Obligations.CommandSequencesAgree : Prop :=
  (∀ (s t u : State) (m0 m1 m2 : MIdx) (msg : List Byte), m1 ≠ m0 → (s.getM m0).canon = true →
    runCommands [.hash m1 msg, .mmul m2 m0 m1] s = .next t → exec (.append m2 m0 msg) s = .next u →
    t.getM m2 = u.getM m2) ∧
  (∀ (s t u : State) (m0 m1 m2 : MIdx) (msg : List Byte), m1 ≠ m0 → (s.getM m0).canon = true →
    runCommands [.hash m1 msg, .mmul m2 m1 m0] s = .next t → exec (.prepend m2 m0 msg) s = .next u →
    t.getM m2 = u.getM m2) ∧
  (∀ (s t u : State) (m0 m1 : MIdx) (c : List Byte) (cs : List (List Byte)), (s.getM m0).canon = true →
    runCommands (.append m1 m0 c :: cs.map fun c' => .append m1 m1 c') s = .next t →
    exec (.foldapp m1 m0 (c :: cs)) s = .next u → t.getM m1 = u.getM m1) ∧
  (∀ (s t u : State) (m0 m1 : MIdx) (c : List Byte) (cs : List (List Byte)), (s.getM m0).canon = true →
    runCommands (.prepend m1 m0 c :: cs.reverse.map fun c' => .prepend m1 m1 c') s = .next t →
    exec (.foldpre m1 m0 (cs ++ [c])) s = .next u → t.getM m1 = u.getM m1) ∧
  ∀ (s t u : State) (md : MIdx) (p : List Byte) (ps : List (List Byte)),
    runCommands (.hash md p :: ps.map fun p' => .append md md p') s = .next t →
    exec (.hash md (p ++ ps.flatten)) s = .next u → t.getM md = u.getM md

/-! ## The codec -/

/-- R170 to R174: the four checked loads. `M` is the register value whose w-bit word j is word j of the
list; every list of the right length has one. -/
def Obligations.PackCommands : Prop :=
  ∀ (s : State) (md : MIdx),
    (∀ ws : List (BitVec 8),
      (ws.length ≠ 64 → exec (.pack8 md ws) s = .next (s.failed 0x02#8)) ∧
      (ws.length = 64 → ∃ M : Mat, ws = (List.range 64).map fun j => M.bits.extractLsb' (8 * j) 8) ∧
      ∀ M : Mat, ws = (List.range 64).map (fun j => M.bits.extractLsb' (8 * j) 8) →
        (M.valid = false → exec (.pack8 md ws) s = .next (s.failed 0x03#8)) ∧
        (M.valid = true → ∃ t, exec (.pack8 md ws) s = .next t ∧ s.Answered t 0x00#8 s.st.t [] ∧
          s.WroteOnly t md M)) ∧
    (∀ ws : List (BitVec 16),
      (ws.length ≠ 32 → exec (.pack16 md ws) s = .next (s.failed 0x02#8)) ∧
      (ws.length = 32 → ∃ M : Mat, ws = (List.range 32).map fun j => M.bits.extractLsb' (16 * j) 16) ∧
      ∀ M : Mat, ws = (List.range 32).map (fun j => M.bits.extractLsb' (16 * j) 16) →
        (M.valid = false → exec (.pack16 md ws) s = .next (s.failed 0x03#8)) ∧
        (M.valid = true → ∃ t, exec (.pack16 md ws) s = .next t ∧ s.Answered t 0x00#8 s.st.t [] ∧
          s.WroteOnly t md M)) ∧
    (∀ ws : List (BitVec 32),
      (ws.length ≠ 16 → exec (.pack32 md ws) s = .next (s.failed 0x02#8)) ∧
      (ws.length = 16 → ∃ M : Mat, ws = (List.range 16).map fun j => M.bits.extractLsb' (32 * j) 32) ∧
      ∀ M : Mat, ws = (List.range 16).map (fun j => M.bits.extractLsb' (32 * j) 32) →
        (M.valid = false → exec (.pack32 md ws) s = .next (s.failed 0x03#8)) ∧
        (M.valid = true → ∃ t, exec (.pack32 md ws) s = .next t ∧ s.Answered t 0x00#8 s.st.t [] ∧
          s.WroteOnly t md M)) ∧
    (∀ ws : List (BitVec 64),
      (ws.length ≠ 8 → exec (.pack64 md ws) s = .next (s.failed 0x02#8)) ∧
      (ws.length = 8 → ∃ M : Mat, ws = (List.range 8).map fun j => M.bits.extractLsb' (64 * j) 64) ∧
      ∀ M : Mat, ws = (List.range 8).map (fun j => M.bits.extractLsb' (64 * j) 64) →
        (M.valid = false → exec (.pack64 md ws) s = .next (s.failed 0x03#8)) ∧
        (M.valid = true → ∃ t, exec (.pack64 md ws) s = .next t ∧ s.Answered t 0x00#8 s.st.t [] ∧
          s.WroteOnly t md M))

/-- R184: LOADU loads any 64 bytes unchecked, and any other number of bytes is E_LEN. -/
def Obligations.LoaduCommand : Prop :=
  ∀ (s : State) (md : MIdx) (ws : List (BitVec 8)),
    (ws.length ≠ 64 → exec (.loadu md ws) s = .next (s.failed 0x02#8)) ∧
    (ws.length = 64 → ∃ M t, exec (.loadu md ws) s = .next t ∧ s.Answered t 0x00#8 s.st.t [] ∧
      s.WroteOnly t md M ∧ ws = (List.range 64).map fun k => M.bits.extractLsb' (8 * k) 8)

/-- R175 to R179, R181, R52: UNPACKw and SHOW answer the register as it stands, valid or not, and write no
register. -/
def Obligations.StoreCommands : Prop :=
  ∀ (s : State) (ma : MIdx),
    (∀ i ∈ [Instr.unpack8 ma, .unpack16 ma, .unpack32 ma, .unpack64 ma],
      exec i s = .next { s with
        st := { s.st with code := 0x00#8 }
        rsp := s.rsp ++ [0x00, 0x40, 0x00] ++
          (List.range 64).map fun k => (s.getM ma).bits.extractLsb' (8 * k) 8 }) ∧
    exec (.showm ma) s = .next { s with
        st := { s.st with code := 0x00#8 }
        rsp := s.rsp ++ [0x00, 0x80, 0x00] ++ showText (s.getM ma) }

/-- R183, R182: PARSE of a text that is none is E_PARSE; of the text of an invalid value E_INVALID; of the
text of a valid value it loads the value; and `parse` yields a value for no other text. -/
def Obligations.ParseCommand : Prop :=
  ∀ (s : State) (md : MIdx) (text : List Byte),
    (text.length ≠ 128 ∨ (∃ c ∈ text, ¬ ((0x30 ≤ c.toNat ∧ c.toNat ≤ 0x39) ∨
        (0x61 ≤ c.toNat ∧ c.toNat ≤ 0x66))) →
      exec (.parse md text) s = .next (s.failed 0x04#8)) ∧
    (∀ M : Mat, text = showText M →
      (M.valid = false → exec (.parse md text) s = .next (s.failed 0x03#8)) ∧
      (M.valid = true → ∃ t, exec (.parse md text) s = .next t ∧ s.Answered t 0x00#8 s.st.t [] ∧
        s.WroteOnly t md M)) ∧
    ∀ M : Mat, parseText text = some M ↔ text = showText M ∧ M.valid = true

/-- R185: the bytes of UNPACKw rebuild the value by LOADU, and by PACKw of any width when it is valid, and
the text of SHOW by PARSE; PACKw and PARSE refuse an invalid value with E_INVALID. -/
def Obligations.CodecRoundTrips : Prop :=
  ∀ (s : State) (ma md : MIdx) (F T rest : List Byte), s.resetIn = false →
    (∃ t i, i ∈ [Instr.unpack8 ma, .unpack16 ma, .unpack32 ma, .unpack64 ma] ∧ exec i s = .next t ∧
      t.rsp = s.rsp ++ [0x00, 0x40, 0x00] ++ F) →
    (∃ t, exec (.showm ma) s = .next t ∧ t.rsp = s.rsp ++ [0x00, 0x80, 0x00] ++ T) →
    (∀ u : State, u.resetIn = false →
      u.cmd = headerBytes (headerP .loadu (matrixCode md) 0 64) ++ F ++ rest →
      ∃ t, step u = .next t ∧ t.getM md = s.getM ma ∧ t.st.code = 0x00#8 ∧ t.cmd = rest) ∧
    ∀ (u : State) (o : Opcode) (n : Nat), u.resetIn = false →
      ((o, n) ∈ [(Opcode.pack8, 64), (.pack16, 32), (.pack32, 16), (.pack64, 8)] ∧
          u.cmd = headerBytes (headerP o (matrixCode md) 0 n) ++ F ++ rest ∨
        (o, n) = (.parse, 128) ∧ u.cmd = headerBytes (headerP o (matrixCode md) 0 n) ++ T ++ rest) →
      ((s.getM ma).valid = true →
        ∃ t, step u = .next t ∧ t.getM md = s.getM ma ∧ t.st.code = 0x00#8 ∧ t.cmd = rest) ∧
      ((s.getM ma).valid = false → step u = .next (State.failed { u with cmd := rest } 0x03#8))

/-- R180: the text form: 128 characters, two lowercase hexadecimal digits per footprint byte, the high nibble
first; deterministic and one-to-one. -/
def Obligations.TextFormOfRegister : Prop :=
  (∀ M : Mat, (showText M).length = 128 ∧
    ∀ k < 64, ∃ hi lo : Byte, (showText M)[2 * k]? = some hi ∧ (showText M)[2 * k + 1]? = some lo ∧
      (M.bits.extractLsb' (8 * k + 4) 4).toNat =
        (if hi.toNat < 0x61 then hi.toNat - 0x30 else hi.toNat - 0x61 + 10) ∧
      (M.bits.extractLsb' (8 * k) 4).toNat =
        (if lo.toNat < 0x61 then lo.toNat - 0x30 else lo.toNat - 0x61 + 10) ∧
      ∀ c ∈ [hi, lo], (0x30 ≤ c.toNat ∧ c.toNat ≤ 0x39) ∨ (0x61 ≤ c.toNat ∧ c.toNat ≤ 0x66)) ∧
  ∀ M N : Mat, showText M = showText N → M = N

/-- R20, R52, R53: the footprint and the four word views of a register. -/
def Obligations.FootprintAndWordViews : Prop :=
  (∀ M : Mat, M.bits.extractLsb' 0 128 = M.a ∧ M.bits.extractLsb' 128 128 = M.b ∧
    M.bits.extractLsb' 256 128 = M.c ∧ M.bits.extractLsb' 384 128 = M.d ∧
    (footprint M).length = 64 ∧
    (∀ k < 64, (footprint M)[k]? = some (M.bits.extractLsb' (8 * k) 8)) ∧
    ∀ w ∈ [8, 16, 32, 64],
      wordBytes (w / 8) ((List.range (512 / w)).map fun j => M.bits.extractLsb' (w * j) w) = footprint M) ∧
  footprint identReg = 0x01#8 :: List.replicate 47 0x00#8 ++ 0x01#8 :: List.replicate 15 0x00#8

/-! ## The status register -/

/-- R200, R26: RDST answers `{0000000, T, CODE}` little-endian and changes nothing, not even `ST.CODE`; every
other command leaves its own code there. -/
def Obligations.RdstReadsStatus : Prop :=
  (∀ s : State, exec .rdst s = .next { s with
    rsp := s.rsp ++ [0x00#8, 0x02#8, 0x00#8, s.st.code, if s.st.t then 0x01#8 else 0x00#8] }) ∧
  (∀ s : State, s.st.word.extractLsb' 0 8 = s.st.code ∧ s.st.word.getLsbD 8 = s.st.t ∧
    s.st.word.extractLsb' 9 7 = 0#7) ∧
  ∀ (i : Instr) (s t : State), i ≠ .rdst → exec i s = .next t →
    ∃ more, t.rsp = s.rsp ++ t.st.code :: more
end

