-- ==== Sys2Proof/Laws/Bytes.lean ====
section
/-! SUPPORT. The little-endian helpers and the stream readers: digits and numbers are inverse, and a reader
takes exactly what the matching writer wrote. -/

namespace Sys2Proof

@[simp] theorem length_leDigits (w n v : Nat) : (leDigits w n v).length = n := by
  induction n generalizing v with
  | zero => rfl
  | succ n ih => simp [leDigits, ih]

theorem leNat_lt {w : Nat} (ws : List (BitVec w)) : leNat ws < 2 ^ (w * ws.length) := by
  induction ws with
  | nil => simp [leNat]
  | cons x xs ih =>
    have hx := x.isLt
    simp only [leNat, List.length_cons, Nat.mul_add, Nat.mul_one, Nat.pow_add]
    rw [Nat.mul_comm (2 ^ (w * xs.length))]
    calc x.toNat + 2 ^ w * leNat xs < 2 ^ w * 1 + 2 ^ w * leNat xs := by omega
      _ = 2 ^ w * (leNat xs + 1) := by ring
      _ ≤ 2 ^ w * 2 ^ (w * xs.length) := Nat.mul_le_mul_left _ ih

/-- The digits of a number give it back, as far as they reach. -/
theorem leNat_leDigits (w n v : Nat) : leNat (leDigits w n v) = v % 2 ^ (w * n) := by
  induction n generalizing v with
  | zero => simp [leDigits, leNat, Nat.mod_one]
  | succ n ih =>
    simp only [leDigits, leNat, ih, BitVec.toNat_ofNat, Nat.mul_add, Nat.mul_one]
    rw [Nat.add_comm (w * n), Nat.pow_add, Nat.mod_mul]

/-- The number of a list of digits gives them back. -/
theorem leDigits_leNat {w : Nat} (ws : List (BitVec w)) : leDigits w ws.length (leNat ws) = ws := by
  induction ws with
  | nil => rfl
  | cons x xs ih =>
    have hx := x.isLt
    have h1 : BitVec.ofNat w (x.toNat + 2 ^ w * leNat xs) = x := by
      apply BitVec.eq_of_toNat_eq
      simp [Nat.add_mul_mod_self_left, Nat.mod_eq_of_lt hx]
    have h2 : (x.toNat + 2 ^ w * leNat xs) / 2 ^ w = leNat xs := by
      rw [Nat.add_mul_div_left _ _ (Nat.two_pow_pos w), Nat.div_eq_of_lt hx, Nat.zero_add]
    simp only [List.length_cons, leDigits, leNat, h1, h2, ih]

/-- Digit k of a number is its bits `w*k + w-1 .. w*k` (R53). -/
theorem getElem?_leDigits (w n v k : Nat) (h : k < n) :
    (leDigits w n v)[k]? = some (BitVec.ofNat w (v >>> (w * k))) := by
  induction n generalizing v k with
  | zero => omega
  | succ n ih =>
    cases k with
    | zero => simp [leDigits]
    | succ k =>
      rw [leDigits, List.getElem?_cons_succ, ih _ _ (by omega), Nat.shiftRight_eq_div_pow,
        Nat.shiftRight_eq_div_pow, Nat.div_div_eq_div_mul, ← Nat.pow_add, Nat.mul_add, Nat.mul_one,
        Nat.add_comm]

@[simp] theorem takeBytes_append (xs rest : List Byte) :
    takeBytes xs.length (xs ++ rest) = some (xs, rest) := by
  induction xs with
  | nil => rfl
  | cons x xs ih => simp [takeBytes, ih]

theorem takeBytes_append_of_length {n : Nat} {xs : List Byte} (h : xs.length = n) (rest : List Byte) :
    takeBytes n (xs ++ rest) = some (xs, rest) := h ▸ takeBytes_append xs rest

theorem takeBytes_eq_some {n : Nat} {bs xs rest : List Byte} (h : takeBytes n bs = some (xs, rest)) :
    xs.length = n ∧ bs = xs ++ rest := by
  induction n generalizing bs xs with
  | zero => simp [takeBytes] at h; simp [← h]
  | succ n ih =>
    cases bs with
    | nil => simp [takeBytes] at h
    | cons b bs =>
      simp only [takeBytes] at h
      split at h
      · rename_i hb
        simp only [Option.some.injEq, Prod.mk.injEq] at h
        obtain ⟨rfl, rfl⟩ := h
        obtain ⟨hl, rfl⟩ := ih hb
        simp [hl]
      · simp at h

/-- The reader answers exactly when enough bytes have arrived (R76). -/
theorem takeBytes_eq_none (n : Nat) (bs : List Byte) : takeBytes n bs = none ↔ bs.length < n := by
  constructor
  · intro h
    by_contra hlt
    have := takeBytes_append_of_length (n := n) (xs := bs.take n) (by simp; omega) (bs.drop n)
    simp [List.take_append_drop, h] at this
  · intro h
    cases hb : takeBytes n bs with
    | none => rfl
    | some p =>
      obtain ⟨hl, rfl⟩ := takeBytes_eq_some (rest := p.2) (xs := p.1) hb
      simp at h; omega

theorem takeBytes_of_le {n : Nat} {bs : List Byte} (h : n ≤ bs.length) :
    takeBytes n bs = some (bs.take n, bs.drop n) := by
  have := takeBytes_append_of_length (n := n) (xs := bs.take n) (by simp; omega) (bs.drop n)
  rwa [List.take_append_drop] at this

/-- Words written by `wordBytes` are read back by `takeWords`. -/
theorem takeWords_wordBytes {w k : Nat} (hw : 8 * k = w) (ws : List (BitVec w)) (rest : List Byte) :
    takeWords w k ws.length (wordBytes k ws ++ rest) = some (ws, rest) := by
  induction ws with
  | nil => rfl
  | cons x xs ih =>
    have hx : BitVec.ofNat w (leNat (leDigits 8 k x.toNat)) = x := by
      apply BitVec.eq_of_toNat_eq
      rw [leNat_leDigits, hw, BitVec.toNat_ofNat, Nat.mod_mod, Nat.mod_eq_of_lt x.isLt]
    have happ : wordBytes k (x :: xs) ++ rest = leDigits 8 k x.toNat ++ (wordBytes k xs ++ rest) := by
      simp [wordBytes]
    rw [happ]
    simp only [takeWords, List.length_cons,
      takeBytes_append_of_length (length_leDigits 8 k x.toNat), ih, hx]

theorem takeWords_eq_some {w k : Nat} (hw : 8 * k = w) {n : Nat} {bs rest : List Byte}
    {ws : List (BitVec w)} (h : takeWords w k n bs = some (ws, rest)) :
    ws.length = n ∧ bs = wordBytes k ws ++ rest := by
  induction n generalizing bs ws with
  | zero =>
    obtain ⟨rfl, rfl⟩ : ws = [] ∧ bs = rest := by simpa [takeWords, eq_comm] using h
    exact ⟨rfl, rfl⟩
  | succ n ih =>
    simp only [takeWords] at h
    split at h
    · rename_i x bs' hb
      split at h
      · rename_i xs r hr
        simp only [Option.some.injEq, Prod.mk.injEq] at h
        obtain ⟨rfl, rfl⟩ := h
        obtain ⟨hl, rfl⟩ := takeBytes_eq_some hb
        obtain ⟨hn, rfl⟩ := ih hr
        have hx : leDigits 8 k (BitVec.ofNat w (leNat x)).toNat = x := by
          have hlt := leNat_lt x
          rw [hl, hw] at hlt
          rw [BitVec.toNat_ofNat, Nat.mod_eq_of_lt hlt, ← hl, leDigits_leNat]
        exact ⟨by simp [hn], by simp only [wordBytes, List.flatMap_cons, hx, List.append_assoc]⟩
      · simp at h
    · simp at h

/-- Chunks written by `chunkBytes` are read back by `takeChunks`. -/
theorem takeChunks_chunkBytes (cs : List (List Byte)) (hc : ∀ c ∈ cs, c.length ≤ chunkMax)
    (rest : List Byte) : takeChunks cs.length (chunkBytes cs ++ rest) = some (cs, rest) := by
  induction cs with
  | nil => rfl
  | cons c cs ih =>
    have hn : leNat [BitVec.ofNat 8 c.length, BitVec.ofNat 8 (c.length / 2 ^ 8)] = c.length := by
      have h1 : c.length ≤ 65535 := hc c (by simp)
      have := leNat_leDigits 8 2 c.length
      rw [Nat.mod_eq_of_lt (by omega)] at this
      exact this
    have happ : chunkBytes (c :: cs) ++ rest =
        BitVec.ofNat 8 c.length :: BitVec.ofNat 8 (c.length / 2 ^ 8) :: (c ++ (chunkBytes cs ++ rest)) := by
      simp [chunkBytes, leDigits]
    rw [happ]
    simp only [takeChunks, List.length_cons, hn, takeBytes_append, ih fun c hm => hc c (by simp [hm])]

theorem takeChunks_eq_some {n : Nat} {bs rest : List Byte} {cs : List (List Byte)}
    (h : takeChunks n bs = some (cs, rest)) :
    cs.length = n ∧ (∀ c ∈ cs, c.length ≤ chunkMax) ∧ bs = chunkBytes cs ++ rest := by
  induction n generalizing bs cs with
  | zero =>
    obtain ⟨rfl, rfl⟩ : cs = [] ∧ bs = rest := by simpa [takeChunks, eq_comm] using h
    exact ⟨rfl, by simp, rfl⟩
  | succ n ih =>
    match bs, h with
    | [], h => simp [takeChunks] at h
    | [_], h => simp [takeChunks] at h
    | lo :: hi :: bs, h =>
      simp only [takeChunks] at h
      split at h
      · rename_i c bs' hb
        split at h
        · rename_i cs' r hr
          simp only [Option.some.injEq, Prod.mk.injEq] at h
          obtain ⟨rfl, rfl⟩ := h
          obtain ⟨hl, rfl⟩ := takeBytes_eq_some hb
          obtain ⟨hn, hm, rfl⟩ := ih hr
          have hlt : leNat [lo, hi] < 2 ^ 16 := leNat_lt [lo, hi]
          have hd : leDigits 8 2 c.length = [lo, hi] := by rw [hl]; exact leDigits_leNat [lo, hi]
          refine ⟨by simp [hn], ?_, by simp [chunkBytes, hd]⟩
          intro c' hc'
          rcases List.mem_cons.mp hc' with rfl | hc'
          · simp only [chunkMax]; omega
          · exact hm c' hc'
        · simp at h
      · simp at h

end Sys2Proof
end

