-- ==== Sys2Proof/Laws/Codec.lean ====
section
/-! SUPPORT. The small lemmas of the footprint and the text form (spec/20_memory.md R52, R53;
spec/45_codec.md R180, R182). -/

namespace Sys2Proof

/-- The digits of a number, written as a list over their indices (R53). -/
theorem leDigits_eq_map (w n v : Nat) :
    leDigits w n v = (List.range n).map fun j => BitVec.ofNat w (v >>> (w * j)) := by
  apply List.ext_getElem?
  intro k
  rcases Nat.lt_or_ge k n with h | h
  · rw [getElem?_leDigits w n v k h]; simp [h]
  · rw [List.getElem?_eq_none (by simpa using h), List.getElem?_eq_none (by simpa using h)]

/-- A word of a register value as a digit of its number. -/
theorem extractLsb'_eq_ofNat (x : BitVec 512) (w j : Nat) :
    x.extractLsb' (w * j) w = BitVec.ofNat w (x.toNat >>> (w * j)) := by
  apply BitVec.eq_of_toNat_eq; simp

theorem toNat_bits (M : Mat) : M.bits.toNat =
    M.a.toNat + 2 ^ 128 * (M.b.toNat + 2 ^ 128 * (M.c.toNat + 2 ^ 128 * M.d.toNat)) := by
  have ha := M.a.isLt
  have hb := M.b.isLt
  have hc := M.c.isLt
  have e : ∀ {m n : Nat} (x : BitVec m) (y : BitVec n), (x ++ y).toNat = 2 ^ n * x.toNat + y.toNat := by
    intro m n x y
    rw [BitVec.toNat_append, ← Nat.shiftLeft_add_eq_or_of_lt y.isLt, Nat.shiftLeft_eq, Nat.mul_comm]
  have h1 : M.bits.toNat = 2 ^ 128 * (M.d ++ M.c ++ M.b).toNat + M.a.toNat := e _ _
  have h2 : (M.d ++ M.c ++ M.b).toNat = 2 ^ 128 * (M.d ++ M.c).toNat + M.b.toNat := e _ _
  have h3 : (M.d ++ M.c).toNat = 2 ^ 128 * M.d.toNat + M.c.toNat := e _ _
  omega

/-- A register value is determined by its 512 bits, and every 512-bit value is one (R20). -/
theorem ofBits_bits (M : Mat) : Mat.ofBits M.bits = M := by
  have ha := M.a.isLt
  have hb := M.b.isLt
  have hc := M.c.isLt
  have hd := M.d.isLt
  have h := toNat_bits M
  obtain ⟨a, b, c, d⟩ := M
  simp only [Mat.ofBits, Mat.mk.injEq]
  simp only at ha hb hc hd h
  refine ⟨?_, ?_, ?_, ?_⟩ <;> apply BitVec.eq_of_toNat_eq <;>
    simp only [BitVec.extractLsb'_toNat, Nat.shiftRight_eq_div_pow] <;> omega

theorem bits_ofBits (x : BitVec 512) : (Mat.ofBits x).bits = x := by
  have hx := x.isLt
  apply BitVec.eq_of_toNat_eq
  rw [toNat_bits]
  simp only [Mat.ofBits, BitVec.extractLsb'_toNat, Nat.shiftRight_eq_div_pow]
  omega

/-- The value of a hexadecimal digit is read back (R182). -/
@[simp] theorem hexValue?_hexDigit (n : BitVec 4) : hexValue? (hexDigit n) = some n := by revert n; decide

/-- No other character has a value (R182). -/
theorem hexValue?_eq_none {c : Byte}
    (h : ¬ ((0x30 ≤ c.toNat ∧ c.toNat ≤ 0x39) ∨ (0x61 ≤ c.toNat ∧ c.toNat ≤ 0x66))) :
    hexValue? c = none := by
  rw [hexValue?, if_neg, if_neg] <;> tauto

end Sys2Proof
end

