-- ==== Sys2Proof/Laws/Decode.lean ====
section
/-! SUPPORT. Headers and their fields: a header built from fields gives them back, a header is the one its
fields build, and what the legality checks answer. -/

namespace Sys2Proof

/-! ### Well-formedness -/

theorem lenFits_iff {α : Type} (xs : List α) : lenFits xs = true ↔ xs.length ≤ 16383 :=
  decide_eq_true_iff

theorem chunksFit_iff (cs : List (List Byte)) : chunksFit cs = true ↔ ∀ c ∈ cs, c.length ≤ chunkMax := by
  simp [chunksFit]

/-! ### Headers as numbers -/

/-- Appending bit vectors places the left one above the right one. -/
theorem toNat_append_add {m n k : Nat} (h : m + n = k) (x : BitVec m) (y : BitVec n) (z : BitVec k)
    (hz : z = (x ++ y).cast h) : z.toNat = 2 ^ n * x.toNat + y.toNat := by
  subst h
  rw [hz, BitVec.toNat_cast, BitVec.toNat_append, ← Nat.shiftLeft_add_eq_or_of_lt y.isLt, Nat.shiftLeft_eq, Nat.mul_comm]

theorem toNat_headerWord (b0 b1 b2 b3 : Byte) :
    (headerWord b0 b1 b2 b3).toNat = b0.toNat + 2^8 * (b1.toNat + 2^8 * (b2.toNat + 2^8 * b3.toNat)) := by
  rw [toNat_append_add rfl (b3 ++ b2 ++ b1) b0 (headerWord b0 b1 b2 b3) rfl, toNat_append_add rfl (b3 ++ b2) b1 (b3 ++ b2 ++ b1) rfl, toNat_append_add rfl b3 b2 (b3 ++ b2) rfl]
  omega

theorem toNat_headerR (o : Opcode) (a b c d : BitVec 5) : (headerR o a b c d).toNat =
    o.code.toNat + 2^8 * a.toNat + 2 ^ 13 * b.toNat + 2 ^ 18 * c.toNat + 2 ^ 23 * d.toNat := by
  rw [toNat_append_add rfl (0#4 ++ d ++ c ++ b ++ a) o.code (headerR o a b c d) rfl,
    toNat_append_add rfl (0#4 ++ d ++ c ++ b) a (0#4 ++ d ++ c ++ b ++ a) rfl,
    toNat_append_add rfl (0#4 ++ d ++ c) b (0#4 ++ d ++ c ++ b) rfl,
    toNat_append_add rfl (0#4 ++ d) c (0#4 ++ d ++ c) rfl, toNat_append_add rfl (0#4) d (0#4 ++ d) rfl]
  simp; omega

theorem toNat_headerP (o : Opcode) (a b : BitVec 5) (n : Nat) : (headerP o a b n).toNat =
    o.code.toNat + 2^8 * a.toNat + 2 ^ 13 * b.toNat + 2 ^ 18 * (n % 2 ^ 14) := by
  rw [toNat_append_add rfl (BitVec.ofNat 14 n ++ b ++ a) o.code (headerP o a b n) rfl,
    toNat_append_add rfl (BitVec.ofNat 14 n ++ b) a (BitVec.ofNat 14 n ++ b ++ a) rfl,
    toNat_append_add rfl (BitVec.ofNat 14 n) b (BitVec.ofNat 14 n ++ b) rfl]
  simp; omega

theorem toNat_headerI (o : Opcode) (a : BitVec 5) (imm : Byte) : (headerI o a imm).toNat =
    o.code.toNat + 2^8 * a.toNat + 2 ^ 18 * imm.toNat := by
  rw [toNat_append_add rfl (0#6 ++ imm ++ 0#5 ++ a) o.code (headerI o a imm) rfl,
    toNat_append_add rfl (0#6 ++ imm ++ 0#5) a (0#6 ++ imm ++ 0#5 ++ a) rfl,
    toNat_append_add rfl (0#6 ++ imm) 0#5 (0#6 ++ imm ++ 0#5) rfl,
    toNat_append_add rfl (0#6) imm (0#6 ++ imm) rfl]
  simp; omega

theorem toNat_opField (w : BitVec 32) : (opField w).toNat = w.toNat % 2 ^ 8 := by simp [opField]
theorem toNat_fieldA (w : BitVec 32) : (fieldA w).toNat = w.toNat / 2 ^ 8 % 2 ^ 5 := by simp [fieldA, Nat.shiftRight_eq_div_pow]
theorem toNat_fieldB (w : BitVec 32) : (fieldB w).toNat = w.toNat / 2 ^ 13 % 2 ^ 5 := by simp [fieldB, Nat.shiftRight_eq_div_pow]
theorem toNat_fieldC (w : BitVec 32) : (fieldC w).toNat = w.toNat / 2 ^ 18 % 2 ^ 5 := by simp [fieldC, Nat.shiftRight_eq_div_pow]
theorem toNat_fieldD (w : BitVec 32) : (fieldD w).toNat = w.toNat / 2 ^ 23 % 2 ^ 5 := by simp [fieldD, Nat.shiftRight_eq_div_pow]
theorem toNat_fieldZ (w : BitVec 32) : (fieldZ w).toNat = w.toNat / 2 ^ 28 % 2 ^ 4 := by simp [fieldZ, Nat.shiftRight_eq_div_pow]
theorem toNat_fieldLen (w : BitVec 32) : (fieldLen w).toNat = w.toNat / 2 ^ 18 % 2 ^ 14 := by simp [fieldLen, Nat.shiftRight_eq_div_pow]
theorem toNat_fieldImm (w : BitVec 32) : (fieldImm w).toNat = w.toNat / 2 ^ 18 % 2 ^ 8 := by simp [fieldImm, Nat.shiftRight_eq_div_pow]
theorem toNat_fieldZI (w : BitVec 32) : (fieldZI w).toNat = w.toNat / 2 ^ 26 % 2 ^ 6 := by simp [fieldZI, Nat.shiftRight_eq_div_pow]

/-! ### Fields of a built header -/

section
variable (o : Opcode) (a b c d : BitVec 5) (n : Nat) (imm : Byte)

@[simp] theorem opField_headerR : opField (headerR o a b c d) = o.code := by
  have := o.code.isLt; have := a.isLt; have := b.isLt; have := c.isLt; have := d.isLt;
  apply BitVec.eq_of_toNat_eq; rw [toNat_opField, toNat_headerR]; omega

@[simp] theorem fieldA_headerR : fieldA (headerR o a b c d) = a := by
  have := o.code.isLt; have := a.isLt; have := b.isLt; have := c.isLt; have := d.isLt;
  apply BitVec.eq_of_toNat_eq; rw [toNat_fieldA, toNat_headerR]; omega

@[simp] theorem fieldB_headerR : fieldB (headerR o a b c d) = b := by
  have := o.code.isLt; have := a.isLt; have := b.isLt; have := c.isLt; have := d.isLt;
  apply BitVec.eq_of_toNat_eq; rw [toNat_fieldB, toNat_headerR]; omega

@[simp] theorem fieldC_headerR : fieldC (headerR o a b c d) = c := by
  have := o.code.isLt; have := a.isLt; have := b.isLt; have := c.isLt; have := d.isLt;
  apply BitVec.eq_of_toNat_eq; rw [toNat_fieldC, toNat_headerR]; omega

@[simp] theorem fieldD_headerR : fieldD (headerR o a b c d) = d := by
  have := o.code.isLt; have := a.isLt; have := b.isLt; have := c.isLt; have := d.isLt;
  apply BitVec.eq_of_toNat_eq; rw [toNat_fieldD, toNat_headerR]; omega

@[simp] theorem fieldZ_headerR : fieldZ (headerR o a b c d) = 0 := by
  have := o.code.isLt; have := a.isLt; have := b.isLt; have := c.isLt; have := d.isLt;
  apply BitVec.eq_of_toNat_eq; rw [toNat_fieldZ, toNat_headerR]; simp only [BitVec.toNat_ofNat, BitVec.ofNat_eq_ofNat]; omega

@[simp] theorem opField_headerP : opField (headerP o a b n) = o.code := by
  have := o.code.isLt; have := a.isLt; have := b.isLt;
  apply BitVec.eq_of_toNat_eq; rw [toNat_opField, toNat_headerP]; omega

@[simp] theorem fieldA_headerP : fieldA (headerP o a b n) = a := by
  have := o.code.isLt; have := a.isLt; have := b.isLt;
  apply BitVec.eq_of_toNat_eq; rw [toNat_fieldA, toNat_headerP]; omega

@[simp] theorem fieldB_headerP : fieldB (headerP o a b n) = b := by
  have := o.code.isLt; have := a.isLt; have := b.isLt;
  apply BitVec.eq_of_toNat_eq; rw [toNat_fieldB, toNat_headerP]; omega

@[simp] theorem lenField_headerP : lenField (headerP o a b n) = n % 2 ^ 14 := by
  have := o.code.isLt; have := a.isLt; have := b.isLt
  rw [lenField, toNat_fieldLen, toNat_headerP]; omega

@[simp] theorem opField_headerI : opField (headerI o a imm) = o.code := by
  have := o.code.isLt; have := a.isLt; have := imm.isLt;
  apply BitVec.eq_of_toNat_eq; rw [toNat_opField, toNat_headerI]; omega

@[simp] theorem fieldA_headerI : fieldA (headerI o a imm) = a := by
  have := o.code.isLt; have := a.isLt; have := imm.isLt;
  apply BitVec.eq_of_toNat_eq; rw [toNat_fieldA, toNat_headerI]; omega

@[simp] theorem fieldB_headerI : fieldB (headerI o a imm) = 0 := by
  have := o.code.isLt; have := a.isLt; have := imm.isLt;
  apply BitVec.eq_of_toNat_eq; rw [toNat_fieldB, toNat_headerI]; simp only [BitVec.toNat_ofNat, BitVec.ofNat_eq_ofNat]; omega

@[simp] theorem fieldImm_headerI : fieldImm (headerI o a imm) = imm := by
  have := o.code.isLt; have := a.isLt; have := imm.isLt;
  apply BitVec.eq_of_toNat_eq; rw [toNat_fieldImm, toNat_headerI]; omega

@[simp] theorem fieldZI_headerI : fieldZI (headerI o a imm) = 0 := by
  have := o.code.isLt; have := a.isLt; have := imm.isLt;
  apply BitVec.eq_of_toNat_eq; rw [toNat_fieldZI, toNat_headerI]; simp only [BitVec.toNat_ofNat, BitVec.ofNat_eq_ofNat]; omega

end

/-! ### A header is the one its fields build -/

theorem headerR_of_fields {w : BitVec 32} {o : Opcode} (ho : opField w = o.code) (hz : fieldZ w = 0) :
    headerR o (fieldA w) (fieldB w) (fieldC w) (fieldD w) = w := by
  have h := congrArg BitVec.toNat ho
  have h' := congrArg BitVec.toNat hz
  rw [toNat_opField] at h; rw [toNat_fieldZ] at h'
  have := w.isLt
  apply BitVec.eq_of_toNat_eq
  rw [toNat_headerR, toNat_fieldA, toNat_fieldB, toNat_fieldC, toNat_fieldD, ← h]
  simp at h'
  omega

theorem headerP_of_fields {w : BitVec 32} {o : Opcode} (ho : opField w = o.code) :
    headerP o (fieldA w) (fieldB w) (lenField w) = w := by
  have h := congrArg BitVec.toNat ho
  rw [toNat_opField] at h
  have := w.isLt
  apply BitVec.eq_of_toNat_eq
  rw [toNat_headerP, toNat_fieldA, toNat_fieldB, lenField, toNat_fieldLen, ← h]
  omega

theorem headerI_of_fields {w : BitVec 32} {o : Opcode} (ho : opField w = o.code) (hb : fieldB w = 0)
    (hz : fieldZI w = 0) : headerI o (fieldA w) (fieldImm w) = w := by
  have h := congrArg BitVec.toNat ho
  have h' := congrArg BitVec.toNat hb
  have h'' := congrArg BitVec.toNat hz
  rw [toNat_opField] at h; rw [toNat_fieldB] at h'; rw [toNat_fieldZI] at h''
  have := w.isLt
  apply BitVec.eq_of_toNat_eq
  rw [toNat_headerI, toNat_fieldA, toNat_fieldImm, ← h]
  simp at h' h''
  omega

/-! ### Header bytes -/

theorem headerBytes_headerWord (b0 b1 b2 b3 : Byte) :
    headerBytes (headerWord b0 b1 b2 b3) = [b0, b1, b2, b3] := by
  have : (headerWord b0 b1 b2 b3).toNat = leNat [b0, b1, b2, b3] := by
    rw [toNat_headerWord]; simp only [leNat, Nat.mul_zero, Nat.add_zero]
  rw [headerBytes, this]
  exact leDigits_leNat [b0, b1, b2, b3]

/-- The four bytes of a header are a header word again. -/
theorem headerBytes_eq (w : BitVec 32) :
    ∃ b0 b1 b2 b3, headerBytes w = [b0, b1, b2, b3] ∧ headerWord b0 b1 b2 b3 = w := by
  refine ⟨_, _, _, _, rfl, BitVec.eq_of_toNat_eq ?_⟩
  have := w.isLt
  rw [toNat_headerWord]
  simp only [BitVec.toNat_ofNat]
  omega

/-! ### Opcodes -/

@[simp] theorem ofByte_code (o : Opcode) : Opcode.ofByte o.code = some o := by cases o <;> rfl

theorem code_of_ofByte {b : Byte} {o : Opcode} (h : Opcode.ofByte b = some o) : b = o.code := by
  have h' := List.find?_some (p := fun o : Opcode => o.code == b) h
  exact (eq_of_beq h').symm

/-! ### Well-formed lists of items -/

@[simp] theorem lenFits_eq_true {α : Type} (xs : List α) : lenFits xs = true ↔ xs.length ≤ 16383 := by
  rw [lenFits, decide_eq_true_eq]; rfl

@[simp] theorem chunksFit_eq_true (cs : List (List Byte)) :
    chunksFit cs = true ↔ ∀ c ∈ cs, c.length ≤ chunkMax := by
  simp [chunksFit]

/-! ### What the legality checks answer -/

theorem zeroField_eq_ok {n : Nat} {f : BitVec n} {u : Unit} : zeroField f = .ok u ↔ f = 0 := by
  unfold zeroField
  split <;> rename_i h
  · simp [h]
  · simp only [reduceCtorEq, false_iff]; exact h

@[simp] theorem zeroField_zero (n : Nat) : zeroField (0 : BitVec n) = .ok () := by simp [zeroField]

@[simp] theorem zeroField_ofNat (n : Nat) : zeroField (0#n) = .ok () := by simp [zeroField]

@[simp] theorem matrixField_matrixCode (i : MIdx) : matrixField (matrixCode i) = .ok i := by
  fin_cases i <;> rfl

theorem matrixField_eq_ok {f : BitVec 5} {i : MIdx} (h : matrixField f = .ok i) : f = matrixCode i := by
  unfold matrixField at h
  split at h
  · cases h; apply BitVec.eq_of_toNat_eq; simp [matrixCode]
  · cases h

@[simp] theorem elementField_elementCode (k : EIdx) : elementField (elementCode k) = k := by
  apply Fin.ext; simp [elementField, elementCode]

@[simp] theorem elementCode_elementField (f : BitVec 5) : elementCode (elementField f) = f := by
  apply BitVec.eq_of_toNat_eq; simp [elementField, elementCode]

/-- The decoder on a stream that begins with the header of an assigned opcode. -/
theorem decode_headerBytes (w : BitVec 32) (tail : List Byte) {o : Opcode} (h : opField w = o.code) :
    decode (headerBytes w ++ tail) = decodeBody o w tail := by
  obtain ⟨b0, b1, b2, b3, hb, rfl⟩ := headerBytes_eq w
  simp [hb, decode, h]

/-! ### What a decoded command was read from -/

theorem noPayload_eq_command {legal : Except IllegalCause Instr} {tail rest : List Byte} {i : Instr} :
    noPayload legal tail = .command i rest ↔ legal = .ok i ∧ tail = rest := by
  cases legal <;> simp [noPayload]

theorem withPayload_eq_command {α : Type} {taken : Option (α × List Byte)}
    {legal : α → Except IllegalCause Instr} {rest : List Byte} {i : Instr} :
    withPayload taken legal = .command i rest ↔ ∃ x, taken = some (x, rest) ∧ legal x = .ok i := by
  rcases taken with - | ⟨x, r⟩
  · simp [withPayload]
  · simp only [withPayload, noPayload_eq_command, Option.some.injEq, Prod.mk.injEq]
    constructor
    · rintro ⟨h, rfl⟩; exact ⟨x, ⟨rfl, rfl⟩, h⟩
    · rintro ⟨y, ⟨rfl, rfl⟩, h⟩; exact ⟨h, rfl⟩

theorem except_bind_eq_ok {ε α β : Type} {x : Except ε α} {f : α → Except ε β} {b : β} :
    (x >>= f) = .ok b ↔ ∃ a, x = .ok a ∧ f a = .ok b := by
  cases x <;> simp [Bind.bind, Except.bind]

theorem matrixField_eq_ok_iff {f : BitVec 5} {i : MIdx} : matrixField f = .ok i ↔ f = matrixCode i :=
  ⟨matrixField_eq_ok, fun h => h ▸ matrixField_matrixCode i⟩

theorem except_pure_eq_ok {ε α : Type} {a b : α} : (pure a : Except ε α) = .ok b ↔ a = b := by
  simp [Pure.pure, Except.pure]

theorem sourceOnly_eq_ok {w : BitVec 32} {ma : MIdx} : sourceOnly w = .ok ma ↔
    fieldA w = 0 ∧ fieldC w = 0 ∧ fieldD w = 0 ∧ fieldZ w = 0 ∧ fieldB w = matrixCode ma := by
  simp only [sourceOnly, except_bind_eq_ok, zeroField_eq_ok, exists_const, matrixField_eq_ok_iff]

theorem destOnly_eq_ok {w : BitVec 32} {md : MIdx} : destOnly w = .ok md ↔
    fieldB w = 0 ∧ fieldA w = matrixCode md := by
  simp only [destOnly, except_bind_eq_ok, zeroField_eq_ok, exists_const, matrixField_eq_ok_iff]

theorem destSource_eq_ok {w : BitVec 32} {p : MIdx × MIdx} : destSource w = .ok p ↔
    fieldA w = matrixCode p.1 ∧ fieldB w = matrixCode p.2 := by
  obtain ⟨md, ms⟩ := p
  simp only [destSource, except_bind_eq_ok, matrixField_eq_ok_iff, except_pure_eq_ok, Prod.mk.injEq]
  constructor
  · rintro ⟨a, h, b, h', rfl, rfl⟩; exact ⟨h, h'⟩
  · rintro ⟨h, h'⟩; exact ⟨_, h, _, h', rfl, rfl⟩

theorem twoSources_eq_ok {w : BitVec 32} {p : MIdx × MIdx} : twoSources w = .ok p ↔
    fieldA w = 0 ∧ fieldD w = 0 ∧ fieldZ w = 0 ∧ fieldB w = matrixCode p.1 ∧ fieldC w = matrixCode p.2 := by
  obtain ⟨ma, mb⟩ := p
  simp only [twoSources, except_bind_eq_ok, zeroField_eq_ok, exists_const, matrixField_eq_ok_iff, except_pure_eq_ok, Prod.mk.injEq]
  constructor
  · rintro ⟨h1, h2, h3, a, h, b, h', rfl, rfl⟩; exact ⟨h1, h2, h3, h, h'⟩
  · rintro ⟨h1, h2, h3, h, h'⟩; exact ⟨h1, h2, h3, _, h, _, h', rfl, rfl⟩

/-- The one thing decoding a body can do: read a command of its opcode from that command's own header and
payload. -/
theorem decodeBody_eq_command {o : Opcode} {w : BitVec 32} {tail rest : List Byte} {i : Instr}
    (ho : opField w = o.code) (h : decodeBody o w tail = .command i rest) :
    i.opcode = o ∧ i.wellFormed = true ∧ i.header = w ∧ tail = i.payload ++ rest := by
  have hlen : lenField w ≤ 16383 := by have := (fieldLen w).isLt; simp only [lenField]; omega
  have hR := headerR_of_fields (w := w) (o := o) ho
  have hP := headerP_of_fields ho
  have hI := headerI_of_fields (w := w) (o := o) ho
  cases o <;>
  simp only [decodeBody, noPayload_eq_command, withPayload_eq_command, except_bind_eq_ok, zeroField_eq_ok, exists_const,
    except_pure_eq_ok, matrixField_eq_ok_iff, sourceOnly_eq_ok, destOnly_eq_ok, destSource_eq_ok, twoSources_eq_ok] at h
  case fadd | fmul =>
    obtain ⟨⟨hd, hz, rfl⟩, rfl⟩ := h
    exact ⟨rfl, rfl, by simp only [Instr.header, elementCode_elementField]; rw [← hd]; exact hR hz, rfl⟩
  case fmuladd =>
    obtain ⟨⟨hz, rfl⟩, rfl⟩ := h
    exact ⟨rfl, rfl, by simp only [Instr.header, elementCode_elementField]; exact hR hz, rfl⟩
  case feq =>
    obtain ⟨⟨ha, hd, hz, rfl⟩, rfl⟩ := h
    refine ⟨rfl, rfl, ?_, rfl⟩
    simp only [Instr.header, elementCode_elementField]; rw [← hR hz, ha, hd]; simp
  case unit =>
    obtain ⟨⟨hb, hc, hd, hz, a, ha, rfl⟩, rfl⟩ := h
    exact ⟨rfl, rfl, by simp only [Instr.header]; rw [← hR hz, hb, hc, hd, ha], rfl⟩
  case mmul =>
    obtain ⟨⟨hd, hz, a, ha, b, hb, c, hc, rfl⟩, rfl⟩ := h
    exact ⟨rfl, rfl, by simp only [Instr.header]; rw [← hR hz, hb, hc, hd, ha], rfl⟩
  case isvalid | unpack8 | unpack16 | unpack32 | unpack64 | showm =>
    obtain ⟨⟨a, ⟨ha, hc, hd, hz, hb⟩, rfl⟩, rfl⟩ := h
    exact ⟨rfl, rfl, by simp only [Instr.header]; rw [← hR hz, ha, hb, hc, hd], rfl⟩
  case validate =>
    obtain ⟨⟨hc, hd, hz, a, ha, b, hb, rfl⟩, rfl⟩ := h
    exact ⟨rfl, rfl, by simp only [Instr.header]; rw [← hR hz, ha, hb, hc, hd], rfl⟩
  case meq | mcmp =>
    obtain ⟨⟨p, ⟨ha, hd, hz, hb, hc⟩, rfl⟩, rfl⟩ := h
    exact ⟨rfl, rfl, by simp only [Instr.header]; rw [← hR hz, ha, hb, hc, hd], rfl⟩
  case bytemat =>
    obtain ⟨⟨hb, hz, a, ha, rfl⟩, rfl⟩ := h
    exact ⟨rfl, rfl, by simp only [Instr.header]; rw [← ha]; exact hI hb hz, rfl⟩
  case rdst =>
    obtain ⟨⟨ha, hb, hc, hd, hz, rfl⟩, rfl⟩ := h
    exact ⟨rfl, rfl, by simp only [Instr.header]; rw [← hR hz, ha, hb, hc, hd], rfl⟩
  case hash | concatall | parse =>
    obtain ⟨x, hx, a, ⟨hb, ha⟩, rfl⟩ := h
    obtain ⟨hl, rfl⟩ := takeBytes_eq_some hx
    refine ⟨rfl, by simp [Instr.wellFormed]; omega, ?_, rfl⟩
    simp only [Instr.header]; rw [hl, ← ha, show (0 : BitVec 5) = fieldB w from hb.symm]; exact hP
  case append | prepend =>
    obtain ⟨x, hx, a, ⟨ha, hb⟩, rfl⟩ := h
    obtain ⟨hl, rfl⟩ := takeBytes_eq_some hx
    refine ⟨rfl, by simp [Instr.wellFormed]; omega, ?_, rfl⟩
    simp only [Instr.header]; rw [hl, ← ha, ← hb]; exact hP
  case foldapp | foldpre =>
    obtain ⟨x, hx, a, ⟨ha, hb⟩, rfl⟩ := h
    obtain ⟨hl, hm, rfl⟩ := takeChunks_eq_some hx
    refine ⟨rfl, by simp [Instr.wellFormed]; exact ⟨by omega, hm⟩, ?_, rfl⟩
    simp only [Instr.header]; rw [hl, ← ha, ← hb]; exact hP
  all_goals
    obtain ⟨x, hx, a, ⟨hb, ha⟩, rfl⟩ := h
    obtain ⟨hl, rfl⟩ := takeWords_eq_some (by rfl) hx
    refine ⟨rfl, by simp [Instr.wellFormed]; omega, ?_, rfl⟩
    simp only [Instr.header]; rw [hl, ← ha, show (0 : BitVec 5) = fieldB w from hb.symm]; exact hP

/-! ### How many bytes the readers take -/

/-- Enough bytes for n words of k bytes give n words and the bytes after them. -/
theorem takeWords_of_le {w k n : Nat} (bs : List Byte) (h : k * n ≤ bs.length) :
    ∃ ws, takeWords w k n bs = some (ws, bs.drop (k * n)) := by
  induction n generalizing bs with
  | zero => exact ⟨[], by simp [takeWords]⟩
  | succ n ih =>
    rw [Nat.mul_succ] at h
    have h1 : k ≤ bs.length := by omega
    obtain ⟨ws, hw⟩ := ih (bs.drop k) (by rw [List.length_drop]; omega)
    refine ⟨BitVec.ofNat w (leNat (bs.take k)) :: ws, ?_⟩
    simp only [takeWords, takeBytes_of_le h1, hw, List.drop_drop, Nat.mul_succ]
    rw [Nat.add_comm]

/-- Too few bytes give no words. -/
theorem takeWords_none {w k n : Nat} (bs : List Byte) (h : bs.length < k * n) :
    takeWords w k n bs = none := by
  induction n generalizing bs with
  | zero => simp at h
  | succ n ih =>
    rw [Nat.mul_succ] at h
    simp only [takeWords]
    split
    · rename_i x bs' hb
      obtain ⟨hl, rfl⟩ := takeBytes_eq_some hb
      rw [ih bs' (by simp at h; omega)]
    · rfl

/-- The chunks are there exactly when the payload length of R74 is known and has arrived. -/
theorem takeChunks_cases (n : Nat) (bs : List Byte) :
    (∃ m cs, foldPayloadLength n bs = some m ∧ m ≤ bs.length ∧ takeChunks n bs = some (cs, bs.drop m)) ∨
    (takeChunks n bs = none ∧ ∀ m, foldPayloadLength n bs = some m → bs.length < m) := by
  induction n generalizing bs with
  | zero => exact Or.inl ⟨0, [], by simp [foldPayloadLength, takeChunks]⟩
  | succ n ih =>
    match bs with
    | [] => right; simp [foldPayloadLength, takeChunks]
    | [_] => right; simp [foldPayloadLength, takeChunks]
    | lo :: hi :: bs =>
      rcases Nat.lt_or_ge bs.length (leNat [lo, hi]) with hlt | hge
      · right
        have := (takeBytes_eq_none _ _).mpr hlt
        simp only [takeChunks, this, foldPayloadLength, Option.map_eq_some_iff, true_and]
        rintro m ⟨a, ha, rfl⟩
        simp; omega
      · rcases ih (bs.drop (leNat [lo, hi])) with ⟨m, cs, h1, h2, h3⟩ | ⟨h1, h2⟩
        · left
          refine ⟨2 + leNat [lo, hi] + m, bs.take (leNat [lo, hi]) :: cs, ?_, ?_, ?_⟩
          · simp [foldPayloadLength, h1]
          · rw [List.length_drop] at h2; simp; omega
          · simp only [takeChunks, takeBytes_of_le hge, h3, List.drop_drop]
            rw [show 2 + leNat [lo, hi] + m = (leNat [lo, hi] + m) + 1 + 1 by omega]
            simp only [List.drop_succ_cons]
        · right
          simp only [takeChunks, takeBytes_of_le hge, h1, foldPayloadLength, Option.map_eq_some_iff,
            true_and]
          rintro m ⟨a, ha, rfl⟩
          have := h2 a ha
          rw [List.length_drop] at this
          simp; omega

end Sys2Proof
end

