-- ==== Sys2Proof/Laws/State.lean ====
section
/-! SUPPORT. One lemma per field per update of State, and the read-after-write laws of the two register
views (spec/10_state.md R20, R23). -/

namespace Sys2Proof

/-! ### Slots of one register value -/

@[simp] theorem Mat.slot_setSlot_self (M : Mat) (j : Fin 4) (v : Slot) : (M.setSlot j v).slot j = v := by
  fin_cases j <;> rfl

@[simp] theorem Mat.slot_setSlot_ne (M : Mat) {i j : Fin 4} (v : Slot) (h : i ≠ j) :
    (M.setSlot j v).slot i = M.slot i := by
  fin_cases j <;> fin_cases i <;> first | rfl | exact absurd rfl h

/-- An element register is determined by its register and its slot. -/
theorem eidx_ext {k l : EIdx} (hr : regOf k = regOf l) (hs : slotOf k = slotOf l) : k = l := by
  simp only [regOf, slotOf, Fin.mk.injEq] at hr hs
  exact Fin.ext (by omega)

/-- The element register of a register and a slot (R23: `e[4i + j]`). -/
def eidx (i : MIdx) (j : Fin 4) : EIdx := ⟨4 * i.val + j.val, by omega⟩

@[simp] theorem regOf_eidx (i : MIdx) (j : Fin 4) : regOf (eidx i j) = i := by
  simp only [regOf, eidx, Fin.ext_iff]; omega

@[simp] theorem slotOf_eidx (i : MIdx) (j : Fin 4) : slotOf (eidx i j) = j := by
  simp only [slotOf, eidx, Fin.ext_iff]; omega

/-- A register value is determined by its slots. -/
theorem Mat.ext_slot {M N : Mat} (h : ∀ j, M.slot j = N.slot j) : M = N := by
  obtain ⟨a, b, c, d⟩ := M
  obtain ⟨a', b', c', d'⟩ := N
  obtain rfl : a = a' := h 0
  obtain rfl : b = b' := h 1
  obtain rfl : c = c' := h 2
  obtain rfl : d = d' := h 3
  rfl

end Sys2Proof

namespace Sys2Proof.Machine

variable (s : State)

/-! ### Reads of an updated state -/

@[simp] theorem getM_setM (i j : MIdx) (v : Mat) :
    (s.setM i v).getM j = if j = i then v else s.getM j := by
  simp only [State.getM, State.setM, Fin.getElem_fin, Vector.getElem_set, Fin.ext_iff]
  grind

@[simp] theorem getE_setE (k l : EIdx) (v : Slot) :
    (s.setE k v).getE l = if l = k then v else s.getE l := by
  simp only [State.getE, State.setE, getM_setM]
  by_cases hr : regOf l = regOf k
  · by_cases hs : slotOf l = slotOf k
    · simp [eidx_ext hr hs]
    · rw [if_pos hr, Mat.slot_setSlot_ne _ _ hs, if_neg (fun h => hs (by rw [h])), hr]
  · rw [if_neg hr, if_neg (fun h => hr (by rw [h]))]

theorem getE_setM (i : MIdx) (v : Mat) (k : EIdx) :
    (s.setM i v).getE k = if regOf k = i then v.slot (slotOf k) else s.getE k := by
  simp only [State.getE, getM_setM]
  split <;> rfl

@[simp] theorem setM_gen (i : MIdx) (v : Mat) : (s.setM i v).gen = s.gen := rfl
@[simp] theorem setM_st (i : MIdx) (v : Mat) : (s.setM i v).st = s.st := rfl
@[simp] theorem setM_cmd (i : MIdx) (v : Mat) : (s.setM i v).cmd = s.cmd := rfl
@[simp] theorem setM_rsp (i : MIdx) (v : Mat) : (s.setM i v).rsp = s.rsp := rfl
@[simp] theorem setM_resetIn (i : MIdx) (v : Mat) : (s.setM i v).resetIn = s.resetIn := rfl

@[simp] theorem setE_gen (k : EIdx) (v : Slot) : (s.setE k v).gen = s.gen := rfl
@[simp] theorem setE_st (k : EIdx) (v : Slot) : (s.setE k v).st = s.st := rfl
@[simp] theorem setE_cmd (k : EIdx) (v : Slot) : (s.setE k v).cmd = s.cmd := rfl
@[simp] theorem setE_rsp (k : EIdx) (v : Slot) : (s.setE k v).rsp = s.rsp := rfl
@[simp] theorem setE_resetIn (k : EIdx) (v : Slot) : (s.setE k v).resetIn = s.resetIn := rfl

@[simp] theorem setCode_gen (c : Byte) : (s.setCode c).gen = s.gen := rfl
@[simp] theorem setCode_m (c : Byte) : (s.setCode c).m = s.m := rfl
@[simp] theorem setCode_code (c : Byte) : (s.setCode c).st.code = c := rfl
@[simp] theorem setCode_t (c : Byte) : (s.setCode c).st.t = s.st.t := rfl
@[simp] theorem setCode_cmd (c : Byte) : (s.setCode c).cmd = s.cmd := rfl
@[simp] theorem setCode_rsp (c : Byte) : (s.setCode c).rsp = s.rsp := rfl
@[simp] theorem setCode_resetIn (c : Byte) : (s.setCode c).resetIn = s.resetIn := rfl
@[simp] theorem setCode_getM (c : Byte) (i : MIdx) : (s.setCode c).getM i = s.getM i := rfl
@[simp] theorem setCode_getE (c : Byte) (k : EIdx) : (s.setCode c).getE k = s.getE k := rfl

@[simp] theorem setT_gen (t : Bool) : (s.setT t).gen = s.gen := rfl
@[simp] theorem setT_m (t : Bool) : (s.setT t).m = s.m := rfl
@[simp] theorem setT_code (t : Bool) : (s.setT t).st.code = s.st.code := rfl
@[simp] theorem setT_t (t : Bool) : (s.setT t).st.t = t := rfl
@[simp] theorem setT_cmd (t : Bool) : (s.setT t).cmd = s.cmd := rfl
@[simp] theorem setT_rsp (t : Bool) : (s.setT t).rsp = s.rsp := rfl
@[simp] theorem setT_resetIn (t : Bool) : (s.setT t).resetIn = s.resetIn := rfl
@[simp] theorem setT_getM (t : Bool) (i : MIdx) : (s.setT t).getM i = s.getM i := rfl
@[simp] theorem setT_getE (t : Bool) (k : EIdx) : (s.setT t).getE k = s.getE k := rfl

@[simp] theorem emit_gen (c : Byte) (d : List Byte) : (s.emit c d).gen = s.gen := rfl
@[simp] theorem emit_m (c : Byte) (d : List Byte) : (s.emit c d).m = s.m := rfl
@[simp] theorem emit_st (c : Byte) (d : List Byte) : (s.emit c d).st = s.st := rfl
@[simp] theorem emit_cmd (c : Byte) (d : List Byte) : (s.emit c d).cmd = s.cmd := rfl
@[simp] theorem emit_rsp (c : Byte) (d : List Byte) : (s.emit c d).rsp = s.rsp ++ record c d := rfl
@[simp] theorem emit_resetIn (c : Byte) (d : List Byte) : (s.emit c d).resetIn = s.resetIn := rfl
@[simp] theorem emit_getM (c : Byte) (d : List Byte) (i : MIdx) : (s.emit c d).getM i = s.getM i := rfl
@[simp] theorem emit_getE (c : Byte) (d : List Byte) (k : EIdx) : (s.emit c d).getE k = s.getE k := rfl

@[simp] theorem respond_gen (c : Byte) (d : List Byte) : (s.respond c d).gen = s.gen := rfl
@[simp] theorem respond_m (c : Byte) (d : List Byte) : (s.respond c d).m = s.m := rfl
@[simp] theorem respond_code (c : Byte) (d : List Byte) : (s.respond c d).st.code = c := rfl
@[simp] theorem respond_t (c : Byte) (d : List Byte) : (s.respond c d).st.t = s.st.t := rfl
@[simp] theorem respond_cmd (c : Byte) (d : List Byte) : (s.respond c d).cmd = s.cmd := rfl
@[simp] theorem respond_rsp (c : Byte) (d : List Byte) : (s.respond c d).rsp = s.rsp ++ record c d := rfl
@[simp] theorem respond_resetIn (c : Byte) (d : List Byte) : (s.respond c d).resetIn = s.resetIn := rfl
@[simp] theorem respond_getM (c : Byte) (d : List Byte) (i : MIdx) :
    (s.respond c d).getM i = s.getM i := rfl
@[simp] theorem respond_getE (c : Byte) (d : List Byte) (k : EIdx) :
    (s.respond c d).getE k = s.getE k := rfl

@[simp] theorem consume_gen (r : List Byte) : (s.consume r).gen = s.gen := rfl
@[simp] theorem consume_m (r : List Byte) : (s.consume r).m = s.m := rfl
@[simp] theorem consume_st (r : List Byte) : (s.consume r).st = s.st := rfl
@[simp] theorem consume_cmd (r : List Byte) : (s.consume r).cmd = r := rfl
@[simp] theorem consume_rsp (r : List Byte) : (s.consume r).rsp = s.rsp := rfl
@[simp] theorem consume_resetIn (r : List Byte) : (s.consume r).resetIn = s.resetIn := rfl
@[simp] theorem consume_getM (r : List Byte) (i : MIdx) : (s.consume r).getM i = s.getM i := rfl
@[simp] theorem consume_getE (r : List Byte) (k : EIdx) : (s.consume r).getE k = s.getE k := rfl

@[simp] theorem resetWith_gen (G : GenPair) : (State.resetWith G).gen = G := rfl
@[simp] theorem resetWith_st (G : GenPair) : (State.resetWith G).st = ⟨0, false⟩ := rfl
@[simp] theorem resetWith_cmd (G : GenPair) : (State.resetWith G).cmd = [] := rfl
@[simp] theorem resetWith_rsp (G : GenPair) : (State.resetWith G).rsp = [] := rfl
@[simp] theorem resetWith_resetIn (G : GenPair) : (State.resetWith G).resetIn = false := rfl

@[simp] theorem resetWith_getM (G : GenPair) (i : MIdx) : (State.resetWith G).getM i = identReg := by
  simp [State.getM, State.resetWith]

@[simp] theorem record_nil (c : Byte) : record c [] = [c, 0x00#8, 0x00#8] := rfl

end Sys2Proof.Machine
end

