-- ==== Sys2Proof/Laws/Exec.lean ====
section
/-! SUPPORT. One lemma per shared operation that says once everything it can do, and from them one inversion
lemma for `exec`: what any command leaves behind. -/

namespace Sys2Proof

/-! ### Slots, elements and matrices -/

theorem Slot.canon_iff (s : Slot) : Slot.canon s = true ↔ s.getLsbD 127 = false := by simp [Slot.canon]

theorem Slot.fe?_of_canon {s : Slot} (h : s.getLsbD 127 = false) : Slot.fe? s = some (s.setWidth 127) := by
  rw [Slot.fe?, if_pos ((Slot.canon_iff s).mpr h)]

theorem Slot.fe?_of_not_canon {s : Slot} (h : s.getLsbD 127 = true) : Slot.fe? s = none := by
  rw [Slot.fe?, if_neg]; simp [Slot.canon, h]

theorem Slot.fe?_eq_none {s : Slot} : Slot.fe? s = none ↔ s.getLsbD 127 = true := by
  cases h : s.getLsbD 127
  · simp [Slot.fe?_of_canon h]
  · simp [Slot.fe?_of_not_canon h]

/-- An element stored in a slot has range bit 0 (R105). -/
@[simp] theorem canon_setWidth (x : Fe) : Slot.canon (x.setWidth 128) = true := by
  rw [Slot.canon_iff]; simp

@[simp] theorem setWidth_setWidth_fe (x : Fe) : (x.setWidth 128).setWidth 127 = x := by
  apply BitVec.eq_of_toNat_eq
  have := x.isLt
  simp only [BitVec.toNat_setWidth]
  omega

/-- A canonical slot is determined by its element. -/
theorem setWidth_setWidth_slot {s : Slot} (h : s.getLsbD 127 = false) :
    (s.setWidth 127).setWidth 128 = s := by
  apply BitVec.eq_of_getLsbD_eq
  intro i hi
  simp only [BitVec.getLsbD_setWidth]
  rcases Nat.lt_or_ge i 127 with h' | h'
  · simp [hi, h']
  · obtain rfl : i = 127 := by omega
    rw [h]; rfl

@[simp] theorem canon_reg (X : FMat) : X.reg.canon = true := by simp [Mat.canon, FMat.reg]

@[simp] theorem elements_reg (X : FMat) : X.reg.elements = X := by simp [Mat.elements, FMat.reg]

@[simp] theorem field?_reg (X : FMat) : X.reg.field? = some X := by simp [Mat.field?]

/-- A canonical register value is the register value of its elements. -/
theorem reg_elements {M : Mat} (h : M.canon = true) : M.elements.reg = M := by
  obtain ⟨a, b, c, d⟩ := M
  simp only [Mat.canon, Bool.and_eq_true, Slot.canon_iff] at h
  obtain ⟨⟨⟨ha, hb⟩, hc⟩, hd⟩ := h
  simp only [Mat.elements, FMat.reg, setWidth_setWidth_slot ha, setWidth_setWidth_slot hb,
    setWidth_setWidth_slot hc, setWidth_setWidth_slot hd]

theorem field?_eq_some {M : Mat} {X : FMat} : M.field? = some X ↔ M = X.reg := by
  constructor
  · intro h
    rw [Mat.field?] at h
    split at h
    · rename_i hc
      simp only [Option.some.injEq] at h
      rw [← h, reg_elements hc]
    · cases h
  · rintro rfl; exact field?_reg X

theorem field?_eq_none {M : Mat} : M.field? = none ↔ M.canon = false := by
  cases h : M.canon <;> simp [Mat.field?, h]

/-- A register value is valid when it holds a valid matrix of field elements. -/
@[simp] theorem valid_reg (X : FMat) : X.reg.valid = X.valid := by simp [Mat.valid]

theorem Mat.canon_of_valid {M : Mat} (h : M.valid = true) : M.canon = true := by
  simp only [Mat.valid, Bool.and_eq_true] at h; exact h.1

/-- A register value is canonical when its slots are. -/
theorem canon_iff_slot {M : Mat} : M.canon = true ↔ ∀ j, Slot.canon (M.slot j) = true := by
  constructor
  · intro h j
    simp only [Mat.canon, Bool.and_eq_true] at h
    obtain ⟨⟨⟨ha, hb⟩, hc⟩, hd⟩ := h
    match j with
    | 0 => exact ha
    | 1 => exact hb
    | 2 => exact hc
    | 3 => exact hd
  · intro h
    simp only [Mat.canon, Bool.and_eq_true]
    exact ⟨⟨⟨h 0, h 1⟩, h 2⟩, h 3⟩

/-! ### Lists of optional values -/

theorem allSome_eq_some {α : Type} {xs : List (Option α)} {ys : List α} :
    allSome xs = some ys ↔ xs = ys.map some := by
  induction xs generalizing ys with
  | nil => cases ys <;> simp [allSome]
  | cons x xs ih =>
    cases x with
    | none => cases ys <;> simp [allSome]
    | some x =>
      rw [allSome]
      cases ys with
      | nil => cases allSome xs <;> simp
      | cons y ys =>
        rw [List.map_cons, List.cons.injEq, ← ih (ys := ys), Option.some.injEq]
        cases allSome xs <;> simp

theorem allSome_eq_none {α : Type} {xs : List (Option α)} : allSome xs = none ↔ none ∈ xs := by
  induction xs with
  | nil => simp [allSome]
  | cons x xs ih =>
    cases x with
    | none => simp [allSome]
    | some x =>
      rw [allSome]
      cases hx : allSome xs <;> simp_all

theorem regNumber?_eq_some {b : Byte} {r : MIdx} : regNumber? b = some r ↔ b = BitVec.ofNat 8 r.val := by
  have := r.isLt
  rw [regNumber?]
  constructor
  · intro h
    split at h
    · simp only [Option.some.injEq] at h
      rw [← h]; simp
    · cases h
  · rintro rfl
    have h : (BitVec.ofNat 8 r.val).toNat = r.val := by rw [BitVec.toNat_ofNat]; omega
    simp [h]

theorem regNumber?_eq_none {b : Byte} : regNumber? b = none ↔ 7 < b.toNat := by
  rw [regNumber?]
  split <;> simp <;> omega

end Sys2Proof

namespace Sys2Proof.Machine

variable (s : State)

/-! ### The shared operations -/

/-- The response record as R54 writes it out. -/
theorem record_eq (code : Byte) (data : List Byte) : record code data =
    code :: BitVec.ofNat 8 data.length :: BitVec.ofNat 8 (data.length / 256) :: data := rfl

/-- `raise` answers the state of `State.failed`. -/
theorem raise_eq (e : Err) : raise e s = .next (s.failed e.code) := rfl

/-- `done` leaves the registers, answers OK, and keeps `ST.T`. -/
theorem done_answered (data : List Byte) :
    ∃ t, done data s = .next t ∧ s.Answered t codeOk s.st.t data ∧ t.m = s.m := ⟨_, rfl, rfl, rfl⟩

/-- `doneFlag` leaves the registers, answers OK, and sets `ST.T`. -/
theorem doneFlag_answered (b : Bool) (data : List Byte) :
    ∃ t, doneFlag b data s = .next t ∧ s.Answered t codeOk b data ∧ t.m = s.m := ⟨_, rfl, rfl, rfl⟩

/-- A command that writes one matrix register and answers OK. -/
theorem done_setM (md : MIdx) (v : Mat) :
    ∃ t, done [] (s.setM md v) = .next t ∧ s.Answered t codeOk s.st.t [] ∧ s.WroteOnly t md v :=
  ⟨_, rfl, rfl, fun i => by simp⟩

/-- A command that writes one element register and answers OK. -/
theorem done_setE (ed : EIdx) (v : Slot) :
    ∃ t, done [] (s.setE ed v) = .next t ∧ s.Answered t codeOk s.st.t [] ∧ s.WroteOnlySlot t ed v :=
  ⟨_, rfl, rfl, fun k => by simp⟩

/-- The four extending commands: the folded source, or E_RANGE. -/
theorem extend_cases (f : FMat → FMat) (md ms : MIdx) :
    (∃ H, s.getM ms = H.reg ∧ extend f md ms s = done [] (s.setM md (f H).reg)) ∨
    ((s.getM ms).canon = false ∧ extend f md ms s = raise .range s) := by
  cases h : s.field? ms with
  | none => exact Or.inr ⟨field?_eq_none.mp h, by simp [extend, h]⟩
  | some H => exact Or.inl ⟨H, field?_eq_some.mp h, by simp [extend, h]⟩

/-- CONCATALL: the product of canonical registers, or E_ILLEGAL, or E_RANGE. -/
theorem execConcatall_cases (md : MIdx) (regs : List Byte) :
    ((∃ b ∈ regs, 7 < b.toNat) ∧ execConcatall md regs s = raise .illegal s) ∨
    (∃ rs : List MIdx, regs = rs.map (fun r => BitVec.ofNat 8 r.val) ∧
      (((∃ r ∈ rs, (s.getM r).canon = false) ∧ execConcatall md regs s = raise .range s) ∨
        ∃ Xs : List FMat, rs.map (fun r => s.getM r) = Xs.map FMat.reg ∧
          execConcatall md regs s = done [] (s.setM md (concatAll Xs).reg))) := by
  cases h : allSome (regs.map regNumber?) with
  | none =>
    refine Or.inl ⟨?_, by simp [execConcatall, h]⟩
    obtain ⟨b, hb, hn⟩ := List.mem_map.mp (allSome_eq_none.mp h)
    exact ⟨b, hb, regNumber?_eq_none.mp hn⟩
  | some rs =>
    refine Or.inr ⟨rs, ?_, ?_⟩
    · have h' := allSome_eq_some.mp h
      clear h
      induction regs generalizing rs with
      | nil => cases rs <;> simp_all
      | cons b bs ih =>
        cases rs with
        | nil => simp at h'
        | cons r rs =>
          simp only [List.map_cons, List.cons.injEq] at h' ⊢
          exact ⟨regNumber?_eq_some.mp h'.1, ih rs h'.2⟩
    · cases h2 : allSome (rs.map s.field?) with
      | none =>
        refine Or.inl ⟨?_, by simp [execConcatall, h, h2]⟩
        obtain ⟨r, hr, hn⟩ := List.mem_map.mp (allSome_eq_none.mp h2)
        exact ⟨r, hr, field?_eq_none.mp hn⟩
      | some Xs =>
        refine Or.inr ⟨Xs, ?_, by simp [execConcatall, h, h2]⟩
        have h' := allSome_eq_some.mp h2
        clear h2 h
        induction rs generalizing Xs with
        | nil => cases Xs <;> simp_all
        | cons b bs ih =>
          cases Xs with
          | nil => simp at h'
          | cons r rs =>
            simp only [List.map_cons, List.cons.injEq] at h' ⊢
            exact ⟨field?_eq_some.mp h'.1, ih rs h'.2⟩

/-- The four checked loads: the assembled value when it is valid, or E_LEN, or E_INVALID. -/
theorem pack_cases {w : Nat} (md : MIdx) (ws : List (BitVec w)) :
    (ws.length ≠ 512 / w ∧ pack md ws s = raise .len s) ∨
    (ws.length = 512 / w ∧ (ofWords ws).valid = false ∧ pack md ws s = raise .invalid s) ∨
    (ws.length = 512 / w ∧ (ofWords ws).valid = true ∧ pack md ws s = done [] (s.setM md (ofWords ws))) := by
  by_cases h : ws.length = 512 / w
  · cases hv : (ofWords ws).valid
    · exact Or.inr (Or.inl ⟨h, rfl, by simp [pack, h, hv]⟩)
    · exact Or.inr (Or.inr ⟨h, rfl, by simp [pack, h, hv]⟩)
  · exact Or.inl ⟨h, by simp [pack, h]⟩

/-- PARSE: the value of the text when it is valid, or E_PARSE, or E_INVALID. -/
theorem execParse_cases (md : MIdx) (text : List Byte) :
    (textMat? text = none ∧ execParse md text s = raise .parse s) ∨
    (∃ M, textMat? text = some M ∧ M.valid = false ∧ execParse md text s = raise .invalid s) ∨
    (∃ M, textMat? text = some M ∧ M.valid = true ∧ execParse md text s = done [] (s.setM md M)) := by
  cases h : textMat? text with
  | none => exact Or.inl ⟨rfl, by simp [execParse, h]⟩
  | some M =>
    cases hv : M.valid
    · exact Or.inr (Or.inl ⟨M, rfl, hv, by simp [execParse, h, hv]⟩)
    · exact Or.inr (Or.inr ⟨M, rfl, hv, by simp [execParse, h, hv]⟩)

@[simp] theorem length_footprint (M : Mat) : (footprint M).length = 64 := by simp [footprint, footBytes]

@[simp] theorem length_showText (M : Mat) : (showText M).length = 128 := by
  have key : ∀ F : List Byte,
      (F.flatMap fun b => [hexDigit (b.extractLsb' 4 4), hexDigit (b.extractLsb' 0 4)]).length
        = 2 * F.length := by
    intro F
    induction F with
    | nil => rfl
    | cons b F ih => simp only [List.flatMap_cons, List.length_append, ih, List.length_cons,
        List.length_nil]; omega
  rw [showText, key, length_footprint]

/-! ### Every command -/

/-- Everything a command can leave behind, but for the value it writes: it fails; it is RDST; or it answers OK,
having written nothing but `ST`, one matrix register, or one element register. -/
inductive Effect (s : State) (i : Instr) : State → Prop where
  | failed (e : Err) : i ≠ .rdst → Effect s i (s.failed e.code)
  | status : i = .rdst → Effect s i (s.emit codeOk (leDigits 8 2 s.st.word.toNat))
  | answered (flag : Bool) (data : List Byte) : i ≠ .rdst → data.length = i.dataLength →
      (i.isPredicate = false → flag = s.st.t) → Effect s i ((s.setT flag).respond codeOk data)
  | register (md : MIdx) (v : Mat) : i ≠ .rdst → i.dataLength = 0 → i.isPredicate = false →
      i.writesReg = some md → Effect s i ((s.setM md v).respond codeOk [])
  | slot (ed : EIdx) (v : Slot) : i ≠ .rdst → i.dataLength = 0 → i.isPredicate = false →
      i.writesSlot = some ed → Effect s i ((s.setE ed v).respond codeOk [])

/-- Every command takes a next state, and that is one of `Effect`. -/
theorem exec_effect (i : Instr) : ∃ t, exec i s = .next t ∧ Effect s i t := by
  have fail : ∀ (i : Instr) (e : Err), i ≠ .rdst → exec i s = raise e s →
      ∃ t, exec i s = .next t ∧ Effect s i t := fun i e hi h => ⟨_, h, .failed e hi⟩
  have reg : ∀ (i : Instr) (md : MIdx) (v : Mat), i ≠ .rdst → i.dataLength = 0 → i.isPredicate = false →
      i.writesReg = some md → exec i s = done [] (s.setM md v) → ∃ t, exec i s = .next t ∧ Effect s i t :=
    fun i md v h1 h2 h3 h4 h => ⟨_, h, .register md v h1 h2 h3 h4⟩
  have pk : ∀ (i : Instr) (w : Nat) (md : MIdx) (ws : List (BitVec w)), i ≠ .rdst → i.dataLength = 0 →
      i.isPredicate = false → i.writesReg = some md → exec i s = pack md ws s →
      ∃ t, exec i s = .next t ∧ Effect s i t := fun i w md ws h1 h2 h3 h4 h => by
    rcases pack_cases s md ws with ⟨-, h'⟩ | ⟨-, -, h'⟩ | ⟨-, -, h'⟩
    · exact fail i _ h1 (h.trans h')
    · exact fail i _ h1 (h.trans h')
    · exact reg i md _ h1 h2 h3 h4 (h.trans h')
  have ex : ∀ (i : Instr) (f : FMat → FMat) (md ms : MIdx), i ≠ .rdst → i.dataLength = 0 →
      i.isPredicate = false → i.writesReg = some md → exec i s = extend f md ms s →
      ∃ t, exec i s = .next t ∧ Effect s i t := fun i f md ms h1 h2 h3 h4 h => by
    rcases extend_cases s f md ms with ⟨H, -, h'⟩ | ⟨-, h'⟩
    · exact reg i md _ h1 h2 h3 h4 (h.trans h')
    · exact fail i _ h1 (h.trans h')
  cases i with
  | rdst => exact ⟨_, rfl, .status rfl⟩
  | fadd ed ea eb =>
    simp only [exec, execFadd]
    split
    · exact ⟨_, rfl, .slot ed _ (by simp) rfl rfl rfl⟩
    · exact ⟨_, rfl, .failed .range (by simp)⟩
  | fmul ed ea eb =>
    simp only [exec, execFmul]
    split
    · exact ⟨_, rfl, .slot ed _ (by simp) rfl rfl rfl⟩
    · exact ⟨_, rfl, .failed .range (by simp)⟩
  | fmuladd ed ea eb ec =>
    simp only [exec, execFmuladd]
    split
    · exact ⟨_, rfl, .slot ed _ (by simp) rfl rfl rfl⟩
    · exact ⟨_, rfl, .failed .range (by simp)⟩
  | feq ea eb =>
    simp only [exec, execFeq]
    split
    · exact ⟨_, rfl, .answered _ _ (by simp) rfl (fun h => by simp [Instr.isPredicate] at h)⟩
    · exact ⟨_, rfl, .failed .range (by simp)⟩
  | isvalid ma =>
    exact ⟨_, rfl, .answered _ _ (by simp) rfl (fun h => by simp [Instr.isPredicate] at h)⟩
  | meq ma mb =>
    exact ⟨_, rfl, .answered _ _ (by simp) rfl (fun h => by simp [Instr.isPredicate] at h)⟩
  | mcmp ma mb =>
    exact ⟨_, rfl, .answered _ _ (by simp) rfl (fun h => by simp [Instr.isPredicate] at h)⟩
  | unit md => exact reg _ md _ (by simp) rfl rfl rfl rfl
  | bytemat md v => exact reg _ md _ (by simp) rfl rfl rfl rfl
  | hash md msg => exact reg _ md _ (by simp) rfl rfl rfl rfl
  | mmul md ma mb =>
    simp only [exec, execMmul]
    split
    · exact ⟨_, rfl, .register md _ (by simp) rfl rfl rfl⟩
    · exact ⟨_, rfl, .failed .range (by simp)⟩
  | validate md ma =>
    simp only [exec, execValidate]
    split
    · exact ⟨_, rfl, .register md _ (by simp) rfl rfl rfl⟩
    · exact ⟨_, rfl, .failed .invalid (by simp)⟩
  | append md ms msg => exact ex _ _ md ms (by simp) rfl rfl rfl rfl
  | prepend md ms msg => exact ex _ _ md ms (by simp) rfl rfl rfl rfl
  | foldapp md ms cs => exact ex _ _ md ms (by simp) rfl rfl rfl rfl
  | foldpre md ms cs => exact ex _ _ md ms (by simp) rfl rfl rfl rfl
  | concatall md regs =>
    rcases execConcatall_cases s md regs with ⟨-, h⟩ | ⟨rs, -, ⟨-, h⟩ | ⟨Xs, -, h⟩⟩
    · exact fail _ _ (by simp) h
    · exact fail _ _ (by simp) h
    · exact reg _ md _ (by simp) rfl rfl rfl h
  | pack8 md ws => exact pk _ _ md ws (by simp) rfl rfl rfl rfl
  | pack16 md ws => exact pk _ _ md ws (by simp) rfl rfl rfl rfl
  | pack32 md ws => exact pk _ _ md ws (by simp) rfl rfl rfl rfl
  | pack64 md ws => exact pk _ _ md ws (by simp) rfl rfl rfl rfl
  | unpack8 ma => exact ⟨_, rfl, .answered s.st.t _ (by simp) (length_footprint _) fun _ => rfl⟩
  | unpack16 ma => exact ⟨_, rfl, .answered s.st.t _ (by simp) (length_footprint _) fun _ => rfl⟩
  | unpack32 ma => exact ⟨_, rfl, .answered s.st.t _ (by simp) (length_footprint _) fun _ => rfl⟩
  | unpack64 ma => exact ⟨_, rfl, .answered s.st.t _ (by simp) (length_footprint _) fun _ => rfl⟩
  | showm ma => exact ⟨_, rfl, .answered s.st.t _ (by simp) (length_showText _) fun _ => rfl⟩
  | parse md text =>
    rcases execParse_cases s md text with ⟨-, h⟩ | ⟨M, -, -, h⟩ | ⟨M, -, -, h⟩
    · exact fail _ _ (by simp) h
    · exact fail _ _ (by simp) h
    · exact reg _ md _ (by simp) rfl rfl rfl h
  | loadu md ws =>
    simp only [exec, execLoadu]
    split
    · exact ⟨_, rfl, .register md _ (by simp) rfl rfl rfl⟩
    · exact ⟨_, rfl, .failed .len (by simp)⟩

section
variable {s} {i : Instr} {t : State}

theorem Effect.gen_eq (h : Effect s i t) : t.gen = s.gen := by cases h <;> rfl
theorem Effect.cmd_eq (h : Effect s i t) : t.cmd = s.cmd := by cases h <;> rfl
theorem Effect.resetIn_eq (h : Effect s i t) : t.resetIn = s.resetIn := by cases h <;> rfl

/-- The error codes are codes of R210, and none of them is OK. -/
theorem Err.isCode (e : Err) : IsCode e.code ∧ e.code ≠ codeOk := by
  cases e <;> exact ⟨by simp [IsCode, Err.code], by decide⟩

theorem isCode_codeOk : IsCode codeOk := by simp [IsCode, codeOk]

end

/-! ### One step -/

theorem step_held (h : s.resetIn = true) : step s = .next s.held := by simp [step, h]

theorem step_incomplete (hr : s.resetIn = false) (h : decode s.cmd = .incomplete) : step s = .next s := by
  simp [step, hr, fetch, h]

theorem step_illegal {c : IllegalCause} {rest : List Byte} (hr : s.resetIn = false)
    (h : decode s.cmd = .illegal c rest) : step s = raise .illegal (s.consume rest) := by
  simp [step, hr, fetch, h]

theorem step_exec {i : Instr} {rest : List Byte} (hr : s.resetIn = false)
    (h : decode s.cmd = .command i rest) : step s = exec i (s.consume rest) := by
  simp [step, hr, fetch, h]

end Sys2Proof.Machine
end

