-- ==== Sys2Proof/Laws/Field.lean ====
section
/-! SUPPORT. The polynomial arithmetic of the model and Mathlib's polynomials over GF(2): a number stands for
the polynomial whose coefficients are its bits (spec/00_scope.md R9), and `clmul`, `polymod` and `reduce` are
its product and its remainder. -/

namespace Sys2Proof

open Polynomial

/-- The polynomial a number stands for: bit i the coefficient of X^i (R9). -/
noncomputable def toPoly (n : Nat) : (ZMod 2)[X] :=
  ∑ i ∈ Finset.range (n.log2 + 1), if n.testBit i then X ^ i else 0

theorem testBit_eq_false_of_log2_lt {n i : Nat} (h : n.log2 < i) : n.testBit i = false :=
  Nat.testBit_lt_two_pow (Nat.lt_of_lt_of_le (Nat.lt_log2_self) (Nat.pow_le_pow_right (by omega) h))

theorem coeff_toPoly (n i : Nat) : (toPoly n).coeff i = if n.testBit i then 1 else 0 := by
  rw [toPoly, finsetSum_coeff]
  have : ∀ j ∈ Finset.range (n.log2 + 1),
      (if n.testBit j then (X : (ZMod 2)[X]) ^ j else 0).coeff i = if j = i ∧ n.testBit i then 1 else 0 := by
    intro j _
    by_cases hj : j = i
    · subst hj; split <;> simp_all
    · split
      · rw [coeff_X_pow, if_neg (by omega), if_neg (by tauto)]
      · simp [hj]
  rw [Finset.sum_congr rfl this]
  by_cases hb : n.testBit i
  · have hi : i ∈ Finset.range (n.log2 + 1) := by
      rw [Finset.mem_range]; by_contra hlt
      simp [testBit_eq_false_of_log2_lt (show n.log2 < i by omega)] at hb
    simp [hb]
    simpa using hi
  · simp [hb]

theorem toPoly_inj {m n : Nat} (h : toPoly m = toPoly n) : m = n := by
  apply Nat.eq_of_testBit_eq
  intro i
  have := congrArg (fun p => p.coeff i) h
  simp only [coeff_toPoly] at this
  by_cases hm : m.testBit i <;> by_cases hn : n.testBit i <;> simp_all

@[simp] theorem toPoly_zero : toPoly 0 = 0 := by
  ext i; simp [coeff_toPoly]

theorem testBit_one_eq (i : Nat) : Nat.testBit 1 i = decide (i = 0) := by
  cases i with
  | zero => rfl
  | succ i => simp [Nat.testBit_succ]

@[simp] theorem toPoly_one : toPoly 1 = 1 := by
  ext i; rw [coeff_toPoly, coeff_one, testBit_one_eq]; simp

/-- Addition is bitwise XOR (R100). -/
theorem toPoly_xor (m n : Nat) : toPoly (m ^^^ n) = toPoly m + toPoly n := by
  ext i
  rw [coeff_add, coeff_toPoly, coeff_toPoly, coeff_toPoly, Nat.testBit_xor]
  cases m.testBit i <;> cases n.testBit i <;> simp <;> decide

theorem toPoly_shiftLeft (n k : Nat) : toPoly (n <<< k) = toPoly n * X ^ k := by
  ext i
  rw [coeff_mul_X_pow', coeff_toPoly, Nat.testBit_shiftLeft]
  by_cases h : k ≤ i <;> simp [h, coeff_toPoly]

/-- The degree of a polynomial is its highest set bit (R9). -/
theorem natDegree_toPoly {n : Nat} (h : n ≠ 0) : (toPoly n).natDegree = n.log2 := by
  apply natDegree_eq_of_le_of_coeff_ne_zero
  · rw [natDegree_le_iff_coeff_eq_zero]
    intro i hi
    rw [coeff_toPoly, testBit_eq_false_of_log2_lt hi]; simp
  · rw [coeff_toPoly, Nat.testBit_log2 h]; simp

theorem toPoly_ne_zero {n : Nat} (h : n ≠ 0) : toPoly n ≠ 0 := fun h' =>
  h (toPoly_inj (by rw [h', toPoly_zero]))

theorem degree_toPoly_lt {n k : Nat} (h : n < 2 ^ k) : (toPoly n).degree < k := by
  rw [degree_lt_iff_coeff_zero]
  intro i hi
  rw [coeff_toPoly, Nat.testBit_lt_two_pow (Nat.lt_of_lt_of_le h (Nat.pow_le_pow_right (by omega) hi))]
  simp

/-! ### The carry-less product -/

theorem toPoly_clmulRounds (a b k : Nat) : toPoly (clmulRounds a b k) = toPoly a * toPoly (b % 2 ^ k) := by
  induction k with
  | zero => simp [clmulRounds, Nat.mod_one]
  | succ k ih =>
    have hb : b % 2 ^ (k + 1) = (b % 2 ^ k) ^^^ (if b.testBit k then 1 <<< k else 0) := by
      apply Nat.eq_of_testBit_eq
      intro i
      rw [Nat.testBit_xor, Nat.testBit_mod_two_pow, Nat.testBit_mod_two_pow]
      rcases Nat.lt_trichotomy i k with h | rfl | h
      · have : (if b.testBit k then 1 <<< k else 0).testBit i = false := by
          split <;> simp [Nat.testBit_shiftLeft]; omega
        simp [this, h, show i < k + 1 by omega]
      · by_cases hb : b.testBit i <;> simp [hb, Nat.testBit_shiftLeft]
      · have : (if b.testBit k then 1 <<< k else 0).testBit i = false := by
          split
          · rw [Nat.testBit_shiftLeft, testBit_one_eq]; simp; omega
          · simp
        simp [this, show ¬ i < k by omega, show ¬ i < k + 1 by omega]
    rw [clmulRounds, hb, toPoly_xor, mul_add, ← ih]
    split
    · rw [toPoly_xor, toPoly_shiftLeft, toPoly_shiftLeft, toPoly_one, one_mul]
    · simp

/-- `clmul` is the product of polynomials (R10). -/
theorem toPoly_clmul {m n : Nat} (a : BitVec m) (b : BitVec n) :
    toPoly (clmul a b) = toPoly a.toNat * toPoly b.toNat := by
  rw [clmul, toPoly_clmulRounds, Nat.mod_eq_of_lt b.isLt]

/-! ### The remainder -/

/-- One round of `polymod` cancels the highest bit. -/
theorem polymod_round_lt {p q : Nat} (hp : p ≠ 0) (hq : q ≠ 0) (h : q.log2 ≤ p.log2) :
    p ^^^ (q <<< (p.log2 - q.log2)) < 2 ^ p.log2 := by
  apply Nat.lt_pow_two_of_testBit
  intro i hi
  rw [Nat.testBit_xor, Nat.testBit_shiftLeft]
  rcases Nat.eq_or_lt_of_le hi with rfl | hlt
  · have h1 : p.log2 - q.log2 ≤ p.log2 := by omega
    have h2 : p.log2 - (p.log2 - q.log2) = q.log2 := by omega
    simp [Nat.testBit_log2 hp, h2, Nat.testBit_log2 hq]
  · rw [testBit_eq_false_of_log2_lt hlt, testBit_eq_false_of_log2_lt (n := q) (by omega)]
    simp

theorem polymodRounds_spec {q : Nat} (hq : q ≠ 0) (fuel p : Nat) (hf : p < 2 ^ fuel) :
    (∃ d, toPoly p = d * toPoly q + toPoly (polymodRounds q fuel p)) ∧
    (polymodRounds q fuel p = 0 ∨ (polymodRounds q fuel p).log2 < q.log2) := by
  induction fuel generalizing p with
  | zero =>
    obtain rfl : p = 0 := by omega
    exact ⟨⟨0, by simp [polymodRounds]⟩, Or.inl rfl⟩
  | succ fuel ih =>
    rw [polymodRounds]
    split
    · rename_i h
      simp only [deg] at h ⊢
      have hlt := polymod_round_lt h.1 hq h.2
      have hle : p.log2 ≤ fuel := by
        have := (Nat.log2_lt h.1).mpr hf; omega
      obtain ⟨⟨d, hd⟩, hr⟩ := ih (p ^^^ (q <<< (p.log2 - q.log2)))
        (Nat.lt_of_lt_of_le hlt (Nat.pow_le_pow_right (by omega) hle))
      refine ⟨⟨d + X ^ (p.log2 - q.log2), ?_⟩, hr⟩
      rw [toPoly_xor, toPoly_shiftLeft] at hd
      have h2 : (toPoly q * X ^ (p.log2 - q.log2)) + toPoly q * X ^ (p.log2 - q.log2) = 0 :=
        CharTwo.add_self_eq_zero _
      linear_combination hd - h2
    · rename_i h
      refine ⟨⟨0, by simp⟩, ?_⟩
      simp only [deg] at h
      by_cases hp : p = 0
      · exact Or.inl hp
      · exact Or.inr (by by_contra hlt; exact h ⟨hp, by omega⟩)

/-- `polymod` is the remainder: congruent to p, and of degree below q's (R10). -/
theorem polymod_spec {q : Nat} (hq : q ≠ 0) (p : Nat) :
    (∃ d, toPoly p = d * toPoly q + toPoly (polymod p q)) ∧ polymod p q < 2 ^ q.log2 := by
  obtain ⟨h1, h2⟩ := polymodRounds_spec hq (p.log2 + 1) p Nat.lt_log2_self
  refine ⟨h1, ?_⟩
  show polymodRounds q (deg p + 1) p < _
  rcases h2 with h | h
  · simp only [deg]; rw [h]; exact Nat.two_pow_pos _
  · simp only [deg]
    by_cases h0 : polymodRounds q (p.log2 + 1) p = 0
    · rw [h0]; exact Nat.two_pow_pos _
    · exact (Nat.log2_lt h0).mp h

/-! ### Reduction modulo P -/

/-- The reduction polynomial (R6). -/
noncomputable def polyP : (ZMod 2)[X] := toPoly reductionPoly.toNat

theorem reductionPoly_log2 : reductionPoly.toNat.log2 = 127 := by decide +kernel

theorem polyP_natDegree : polyP.natDegree = 127 := by
  rw [polyP, natDegree_toPoly (by decide), reductionPoly_log2]

theorem polyP_ne_zero : polyP ≠ 0 := toPoly_ne_zero (by decide)

theorem polyP_eq : polyP = X ^ 127 + X ^ 63 + 1 := by
  have : reductionPoly.toNat = (1 <<< 127) ^^^ (1 <<< 63) ^^^ 1 := by decide +kernel
  rw [polyP, this, toPoly_xor, toPoly_xor, toPoly_shiftLeft, toPoly_shiftLeft, toPoly_one]
  ring

/-- `reduce` gives the residue class of a polynomial modulo P. -/
theorem toPoly_reduce (p : Nat) : ∃ d, toPoly p = d * polyP + toPoly (reduce p).toNat := by
  obtain ⟨h1, h2⟩ := polymod_spec (q := reductionPoly.toNat) (by decide) p
  rw [reductionPoly_log2] at h2
  rwa [reduce, BitVec.toNat_ofNat, Nat.mod_eq_of_lt h2]

/-- Two field elements congruent modulo P are equal (R101: the unique polynomial of degree < 127). -/
theorem fe_eq_of_congr {a b : Fe} {d : (ZMod 2)[X]} (h : toPoly a.toNat = d * polyP + toPoly b.toNat) :
    a = b := by
  apply BitVec.eq_of_toNat_eq
  apply toPoly_inj
  have ha : (toPoly a.toNat).degree < 127 := degree_toPoly_lt a.isLt
  have hb : (toPoly b.toNat).degree < 127 := degree_toPoly_lt b.isLt
  have hd : d * polyP = toPoly a.toNat - toPoly b.toNat := by rw [h]; ring
  have hlt : (d * polyP).degree < 127 := by
    rw [hd]; exact lt_of_le_of_lt (degree_sub_le _ _) (max_lt ha hb)
  by_cases h0 : d = 0
  · rw [h, h0, zero_mul, zero_add]
  · exfalso
    rw [degree_mul, degree_eq_natDegree polyP_ne_zero, polyP_natDegree, degree_eq_natDegree h0] at hlt
    have hlt' : ((d.natDegree + 127 : ℕ) : WithBot ℕ) < (127 : ℕ) := by exact_mod_cast hlt
    have : d.natDegree + 127 < 127 := WithBot.coe_lt_coe.mp hlt'
    omega

/-- A field element is its own reduction. -/
theorem reduce_toNat (a : Fe) : reduce a.toNat = a := by
  obtain ⟨d, h⟩ := toPoly_reduce a.toNat
  exact (fe_eq_of_congr h).symm

/-- Polynomials congruent modulo P reduce to the same element. -/
theorem reduce_eq_of_congr {p q : Nat} {d : (ZMod 2)[X]} (h : toPoly p = d * polyP + toPoly q) :
    reduce p = reduce q := by
  obtain ⟨d₁, h₁⟩ := toPoly_reduce p
  obtain ⟨d₂, h₂⟩ := toPoly_reduce q
  apply fe_eq_of_congr (d := d + d₂ - d₁)
  linear_combination h - h₁ + h₂

/-- The product of two elements as polynomials, modulo P (R101). -/
theorem toPoly_fmul (a b : Fe) :
    ∃ d, toPoly a.toNat * toPoly b.toNat = d * polyP + toPoly (fmul a b).toNat := by
  obtain ⟨d, h⟩ := toPoly_reduce (clmul a b)
  exact ⟨d, by rw [← toPoly_clmul, h]; rfl⟩

theorem toPoly_fadd (a b : Fe) : toPoly (fadd a b).toNat = toPoly a.toNat + toPoly b.toNat := by
  rw [fadd, BitVec.toNat_xor, toPoly_xor]

/-- `reduce` is linear over XOR (R102). -/
theorem reduce_xor (p q : Nat) : reduce (p ^^^ q) = fadd (reduce p) (reduce q) := by
  obtain ⟨d₁, h₁⟩ := toPoly_reduce p
  obtain ⟨d₂, h₂⟩ := toPoly_reduce q
  obtain ⟨d₃, h₃⟩ := toPoly_reduce (p ^^^ q)
  apply fe_eq_of_congr (d := d₁ + d₂ - d₃)
  rw [toPoly_fadd]
  rw [toPoly_xor] at h₃
  linear_combination h₁ + h₂ - h₃

end Sys2Proof
end

