-- ==== Sys2Proof/Laws/Matrix.lean ====
section
/-! SUPPORT. The small lemmas of the matrix and folding functions, so that no proof unfolds them (unfolding
`mmul` or `GT` by `rfl` is costly). -/

namespace Sys2Proof

variable (G : GenPair)

@[simp] theorem mmul_a (X Y : FMat) : (mmul X Y).a = fadd (fmul X.a Y.a) (fmul X.b Y.c) := rfl
@[simp] theorem mmul_b (X Y : FMat) : (mmul X Y).b = fadd (fmul X.a Y.b) (fmul X.b Y.d) := rfl
@[simp] theorem mmul_c (X Y : FMat) : (mmul X Y).c = fadd (fmul X.c Y.a) (fmul X.d Y.c) := rfl
@[simp] theorem mmul_d (X Y : FMat) : (mmul X Y).d = fadd (fmul X.c Y.b) (fmul X.d Y.d) := rfl

@[simp] theorem ident_a : ident.a = 1 := rfl
@[simp] theorem ident_b : ident.b = 0 := rfl
@[simp] theorem ident_c : ident.c = 0 := rfl
@[simp] theorem ident_d : ident.d = 1 := rfl

/-- A matrix is determined by its entries. -/
theorem FMat.ext_entries {X Y : FMat} (ha : X.a = Y.a) (hb : X.b = Y.b) (hc : X.c = Y.c) (hd : X.d = Y.d) :
    X = Y := by
  obtain ⟨a, b, c, d⟩ := X
  obtain ⟨a', b', c', d'⟩ := Y
  simp only at ha hb hc hd
  simp only [ha, hb, hc, hd]

theorem FMat.valid_iff (X : FMat) : X.valid = true ↔ det X = 1 := by simp [FMat.valid]

theorem GenPair.valid_bit {G : GenPair} (h : G.valid = true) (t : Bool) : (G.bit t).valid = true := by
  simp only [GenPair.valid, Bool.and_eq_true] at h
  cases t
  · exact h.1
  · exact h.2

/-- A table entry, its eight factors written out (R141). -/
theorem GT_eq (v : Byte) : GT G v = mmul (mmul (mmul (mmul (mmul (mmul (mmul (G.bit (v.getLsbD 7))
    (G.bit (v.getLsbD 6))) (G.bit (v.getLsbD 5))) (G.bit (v.getLsbD 4))) (G.bit (v.getLsbD 3)))
    (G.bit (v.getLsbD 2))) (G.bit (v.getLsbD 1))) (G.bit (v.getLsbD 0)) := by
  simp only [GT, List.foldl_cons, List.foldl_nil]

@[simp] theorem appendBytes_nil (H : FMat) : appendBytes G H [] = H := by simp only [appendBytes, List.foldl_nil]
theorem appendBytes_cons (H : FMat) (v : Byte) (s : List Byte) :
    appendBytes G H (v :: s) = appendBytes G (mmul H (GT G v)) s := by simp only [appendBytes, List.foldl_cons]
theorem appendBytes_append (H : FMat) (s t : List Byte) :
    appendBytes G H (s ++ t) = appendBytes G (appendBytes G H s) t := by
  simp only [appendBytes, List.foldl_append]

@[simp] theorem prependBytes_nil (H : FMat) : prependBytes G [] H = H := by
  simp only [prependBytes, List.foldr_nil]
theorem prependBytes_cons (v : Byte) (s : List Byte) (H : FMat) :
    prependBytes G (v :: s) H = mmul (GT G v) (prependBytes G s H) := by
  simp only [prependBytes, List.foldr_cons]
theorem prependBytes_append (s t : List Byte) (H : FMat) :
    prependBytes G (s ++ t) H = prependBytes G s (prependBytes G t H) := by
  simp only [prependBytes, List.foldr_append]

@[simp] theorem foldAppend_nil (H : FMat) : foldAppend G H [] = H := by simp only [foldAppend, List.foldl_nil]
theorem foldAppend_cons (H : FMat) (c : List Byte) (cs : List (List Byte)) :
    foldAppend G H (c :: cs) = foldAppend G (appendBytes G H c) cs := by
  simp only [foldAppend, List.foldl_cons]

@[simp] theorem foldPrepend_nil (H : FMat) : foldPrepend G [] H = H := by
  simp only [foldPrepend, List.foldr_nil]
theorem foldPrepend_cons (c : List Byte) (cs : List (List Byte)) (H : FMat) :
    foldPrepend G (c :: cs) H = prependBytes G c (foldPrepend G cs H) := by
  simp only [foldPrepend, List.foldr_cons]

@[simp] theorem concatAll_nil : concatAll [] = ident := by simp only [concatAll]
theorem concatAll_cons (X : FMat) (Xs : List FMat) : concatAll (X :: Xs) = Xs.foldl mmul X := by
  simp only [concatAll]

end Sys2Proof
end

