-- ==== Sys2Proof/Laws/PerInstr.lean ====
section
/-! SUPPORT. The per-instruction family EncodingLength: every well-formed command's header carries its opcode,
and its payload is as long as spec/30_encoding.md R74 says from that header. -/

namespace Sys2Proof.Laws.EncodingLength

open Sys2Proof

/-- The encoding of a command carries its opcode and has the length of R74. -/
def Statement (i : Instr) : Prop :=
  i.wellFormed = true →
    opField i.header = i.opcode.code ∧ payloadLength i.header i.payload = some i.payload.length

/-- The opcode of an assigned opcode number. -/
theorem ofByte_code (o : Opcode) : Opcode.ofByte o.code = some o := by cases o <;> rfl

/-- A command without payload. -/
theorem no_payload {i : Instr} (ho : opField i.header = i.opcode.code) (hp : i.payload = [])
    (hl : payloadLength i.header [] = some 0) : Statement i :=
  fun _ => ⟨ho, by rw [hp, hl]; rfl⟩

/-- The bytes of words. -/
theorem length_wordBytes {w : Nat} (k : Nat) (ws : List (BitVec w)) :
    (wordBytes k ws).length = k * ws.length := by
  induction ws with
  | nil => simp [wordBytes]
  | cons x xs ih =>
    have : wordBytes k (x :: xs) = leDigits 8 k x.toNat ++ wordBytes k xs := rfl
    rw [this, List.length_append, length_leDigits, ih, List.length_cons]
    ring

/-- The bytes of chunks, counted as R74 counts them. -/
theorem foldPayloadLength_chunkBytes (cs : List (List Byte)) (hc : ∀ c ∈ cs, c.length ≤ chunkMax) :
    foldPayloadLength cs.length (chunkBytes cs) = some (chunkBytes cs).length := by
  induction cs with
  | nil => rfl
  | cons c cs ih =>
    have hn : leNat (leDigits 8 2 c.length) = c.length := by
      have h1 : c.length ≤ 65535 := hc c (by simp)
      rw [leNat_leDigits, Nat.mod_eq_of_lt (by omega)]
    have happ : chunkBytes (c :: cs) =
        BitVec.ofNat 8 c.length :: BitVec.ofNat 8 (c.length / 2 ^ 8) :: (c ++ chunkBytes cs) := by
      simp [chunkBytes, leDigits]
    simp only [leDigits] at hn
    rw [happ]
    simp only [List.length_cons, foldPayloadLength, hn, List.drop_left, ih fun c hm => hc c (by simp [hm]),
      Option.map_some, List.length_append]
    congr 1
    omega

theorem fadd (ed ea eb : EIdx) : Statement (.fadd ed ea eb) :=
  no_payload (opField_headerR ..) rfl (by rw [payloadLength, Instr.header, opField_headerR, ofByte_code])

theorem fmul (ed ea eb : EIdx) : Statement (.fmul ed ea eb) :=
  no_payload (opField_headerR ..) rfl (by rw [payloadLength, Instr.header, opField_headerR, ofByte_code])

theorem fmuladd (ed ea eb ec : EIdx) : Statement (.fmuladd ed ea eb ec) :=
  no_payload (opField_headerR ..) rfl (by rw [payloadLength, Instr.header, opField_headerR, ofByte_code])

theorem feq (ea eb : EIdx) : Statement (.feq ea eb) :=
  no_payload (opField_headerR ..) rfl (by rw [payloadLength, Instr.header, opField_headerR, ofByte_code])

theorem unit (md : MIdx) : Statement (.unit md) :=
  no_payload (opField_headerR ..) rfl (by rw [payloadLength, Instr.header, opField_headerR, ofByte_code])

theorem mmul (md ma mb : MIdx) : Statement (.mmul md ma mb) :=
  no_payload (opField_headerR ..) rfl (by rw [payloadLength, Instr.header, opField_headerR, ofByte_code])

theorem isvalid (ma : MIdx) : Statement (.isvalid ma) :=
  no_payload (opField_headerR ..) rfl (by rw [payloadLength, Instr.header, opField_headerR, ofByte_code])

theorem validate (md ma : MIdx) : Statement (.validate md ma) :=
  no_payload (opField_headerR ..) rfl (by rw [payloadLength, Instr.header, opField_headerR, ofByte_code])

theorem meq (ma mb : MIdx) : Statement (.meq ma mb) :=
  no_payload (opField_headerR ..) rfl (by rw [payloadLength, Instr.header, opField_headerR, ofByte_code])

theorem mcmp (ma mb : MIdx) : Statement (.mcmp ma mb) :=
  no_payload (opField_headerR ..) rfl (by rw [payloadLength, Instr.header, opField_headerR, ofByte_code])

theorem bytemat (md : MIdx) (imm8 : Byte) : Statement (.bytemat md imm8) :=
  no_payload (opField_headerI ..) rfl (by rw [payloadLength, Instr.header, opField_headerI, ofByte_code])

theorem hash (md : MIdx) (msg : List Byte) : Statement (.hash md msg) := by
  intro hw
  simp only [Instr.wellFormed, lenFits_iff] at hw
  refine ⟨opField_headerP .., ?_⟩
  simp only [payloadLength, Instr.header, Instr.payload, opField_headerP, ofByte_code, lenField_headerP]
  rw [Nat.mod_eq_of_lt (by omega)]

theorem append (md ms : MIdx) (msg : List Byte) : Statement (.append md ms msg) := by
  intro hw
  simp only [Instr.wellFormed, lenFits_iff] at hw
  refine ⟨opField_headerP .., ?_⟩
  simp only [payloadLength, Instr.header, Instr.payload, opField_headerP, ofByte_code, lenField_headerP]
  rw [Nat.mod_eq_of_lt (by omega)]

theorem prepend (md ms : MIdx) (msg : List Byte) : Statement (.prepend md ms msg) := by
  intro hw
  simp only [Instr.wellFormed, lenFits_iff] at hw
  refine ⟨opField_headerP .., ?_⟩
  simp only [payloadLength, Instr.header, Instr.payload, opField_headerP, ofByte_code, lenField_headerP]
  rw [Nat.mod_eq_of_lt (by omega)]

theorem foldapp (md ms : MIdx) (chunks : List (List Byte)) : Statement (.foldapp md ms chunks) := by
  intro hw
  simp only [Instr.wellFormed, Bool.and_eq_true, lenFits_iff, chunksFit_iff] at hw
  refine ⟨opField_headerP .., ?_⟩
  simp only [payloadLength, Instr.header, Instr.payload, opField_headerP, ofByte_code, lenField_headerP]
  rw [Nat.mod_eq_of_lt (by omega), foldPayloadLength_chunkBytes _ hw.2]

theorem foldpre (md ms : MIdx) (chunks : List (List Byte)) : Statement (.foldpre md ms chunks) := by
  intro hw
  simp only [Instr.wellFormed, Bool.and_eq_true, lenFits_iff, chunksFit_iff] at hw
  refine ⟨opField_headerP .., ?_⟩
  simp only [payloadLength, Instr.header, Instr.payload, opField_headerP, ofByte_code, lenField_headerP]
  rw [Nat.mod_eq_of_lt (by omega), foldPayloadLength_chunkBytes _ hw.2]

theorem concatall (md : MIdx) (regs : List Byte) : Statement (.concatall md regs) := by
  intro hw
  simp only [Instr.wellFormed, lenFits_iff] at hw
  refine ⟨opField_headerP .., ?_⟩
  simp only [payloadLength, Instr.header, Instr.payload, opField_headerP, ofByte_code, lenField_headerP]
  rw [Nat.mod_eq_of_lt (by omega)]

theorem pack8 (md : MIdx) (ws : List (BitVec 8)) : Statement (.pack8 md ws) := by
  intro hw
  simp only [Instr.wellFormed, lenFits_iff] at hw
  refine ⟨opField_headerP .., ?_⟩
  simp only [payloadLength, Instr.header, Instr.payload, opField_headerP, ofByte_code, lenField_headerP, length_wordBytes]
  rw [Nat.mod_eq_of_lt (by omega), Nat.one_mul]

theorem pack16 (md : MIdx) (ws : List (BitVec 16)) : Statement (.pack16 md ws) := by
  intro hw
  simp only [Instr.wellFormed, lenFits_iff] at hw
  refine ⟨opField_headerP .., ?_⟩
  simp only [payloadLength, Instr.header, Instr.payload, opField_headerP, ofByte_code, lenField_headerP, length_wordBytes]
  rw [Nat.mod_eq_of_lt (by omega)]

theorem pack32 (md : MIdx) (ws : List (BitVec 32)) : Statement (.pack32 md ws) := by
  intro hw
  simp only [Instr.wellFormed, lenFits_iff] at hw
  refine ⟨opField_headerP .., ?_⟩
  simp only [payloadLength, Instr.header, Instr.payload, opField_headerP, ofByte_code, lenField_headerP, length_wordBytes]
  rw [Nat.mod_eq_of_lt (by omega)]

theorem pack64 (md : MIdx) (ws : List (BitVec 64)) : Statement (.pack64 md ws) := by
  intro hw
  simp only [Instr.wellFormed, lenFits_iff] at hw
  refine ⟨opField_headerP .., ?_⟩
  simp only [payloadLength, Instr.header, Instr.payload, opField_headerP, ofByte_code, lenField_headerP, length_wordBytes]
  rw [Nat.mod_eq_of_lt (by omega)]

theorem unpack8 (ma : MIdx) : Statement (.unpack8 ma) :=
  no_payload (opField_headerR ..) rfl (by rw [payloadLength, Instr.header, opField_headerR, ofByte_code])

theorem unpack16 (ma : MIdx) : Statement (.unpack16 ma) :=
  no_payload (opField_headerR ..) rfl (by rw [payloadLength, Instr.header, opField_headerR, ofByte_code])

theorem unpack32 (ma : MIdx) : Statement (.unpack32 ma) :=
  no_payload (opField_headerR ..) rfl (by rw [payloadLength, Instr.header, opField_headerR, ofByte_code])

theorem unpack64 (ma : MIdx) : Statement (.unpack64 ma) :=
  no_payload (opField_headerR ..) rfl (by rw [payloadLength, Instr.header, opField_headerR, ofByte_code])

theorem showm (ma : MIdx) : Statement (.showm ma) :=
  no_payload (opField_headerR ..) rfl (by rw [payloadLength, Instr.header, opField_headerR, ofByte_code])

theorem parse (md : MIdx) (text : List Byte) : Statement (.parse md text) := by
  intro hw
  simp only [Instr.wellFormed, lenFits_iff] at hw
  refine ⟨opField_headerP .., ?_⟩
  simp only [payloadLength, Instr.header, Instr.payload, opField_headerP, ofByte_code, lenField_headerP]
  rw [Nat.mod_eq_of_lt (by omega)]

theorem loadu (md : MIdx) (ws : List (BitVec 8)) : Statement (.loadu md ws) := by
  intro hw
  simp only [Instr.wellFormed, lenFits_iff] at hw
  refine ⟨opField_headerP .., ?_⟩
  simp only [payloadLength, Instr.header, Instr.payload, opField_headerP, ofByte_code, lenField_headerP, length_wordBytes]
  rw [Nat.mod_eq_of_lt (by omega), Nat.one_mul]

theorem rdst : Statement (.rdst) :=
  no_payload (opField_headerR ..) rfl (by rw [payloadLength, Instr.header, opField_headerR, ofByte_code])

end Sys2Proof.Laws.EncodingLength
end

