-- ==== Sys2Proof/Tests/Slice0.lean ====
section
/-! SUPPORT. The model's own tests. Expected values are from the spec: the field columns of
spec/30_encoding.md R79 and its R86, the examples of the command rules, and spec/95_test_vectors.md (the ones
with hash values for the default generator pair, log entry 1). After them, for every statement with hypotheses,
a witness that meets the hypotheses together. -/

namespace Sys2Proof.Tests

-- One test after another: many kernel evaluations at once ask for too many threads.
set_option Elab.async false

open Sys2Proof Sys2Proof.Machine

/-! ### WellFormed refuses what has no encoding (R72, R74) -/

theorem lenFits_replicate {α : Type} (n : Nat) (x : α) :
    lenFits (List.replicate n x) = decide (n ≤ 16383) := by
  rw [Bool.eq_iff_iff, lenFits_iff, List.length_replicate, decide_eq_true_iff]

theorem chunksFit_replicate (n : Nat) : chunksFit [List.replicate n 0] = decide (n ≤ 65535) := by
  rw [Bool.eq_iff_iff, chunksFit_iff, decide_eq_true_iff]
  simp only [List.mem_singleton, forall_eq, List.length_replicate, chunkMax]

theorem test_illFormed_hash : (Instr.hash 0 (List.replicate 16384 0)).wellFormed = false := lenFits_replicate 16384 _

theorem test_illFormed_append : (Instr.append 0 0 (List.replicate 16384 0)).wellFormed = false := lenFits_replicate 16384 _

theorem test_illFormed_prepend : (Instr.prepend 0 0 (List.replicate 16384 0)).wellFormed = false := lenFits_replicate 16384 _

theorem test_illFormed_foldapp : (Instr.foldapp 0 0 (List.replicate 16384 [])).wellFormed = false := by
  simp only [Instr.wellFormed, lenFits_replicate]; decide

theorem test_illFormed_foldpre : (Instr.foldpre 0 0 (List.replicate 16384 [])).wellFormed = false := by
  simp only [Instr.wellFormed, lenFits_replicate]; decide

theorem test_illFormed_concatall : (Instr.concatall 0 (List.replicate 16384 0)).wellFormed = false := lenFits_replicate 16384 _

theorem test_illFormed_pack8 : (Instr.pack8 0 (List.replicate 16384 0)).wellFormed = false := lenFits_replicate 16384 _

theorem test_illFormed_pack16 : (Instr.pack16 0 (List.replicate 16384 0)).wellFormed = false := lenFits_replicate 16384 _

theorem test_illFormed_pack32 : (Instr.pack32 0 (List.replicate 16384 0)).wellFormed = false := lenFits_replicate 16384 _

theorem test_illFormed_pack64 : (Instr.pack64 0 (List.replicate 16384 0)).wellFormed = false := lenFits_replicate 16384 _

theorem test_illFormed_parse : (Instr.parse 0 (List.replicate 16384 0)).wellFormed = false := lenFits_replicate 16384 _

theorem test_illFormed_loadu : (Instr.loadu 0 (List.replicate 16384 0)).wellFormed = false := lenFits_replicate 16384 _

theorem test_illFormed_foldapp_chunk : (Instr.foldapp 0 0 [List.replicate 65536 0]).wellFormed = false := by
  simp only [Instr.wellFormed, chunksFit_replicate]; decide

theorem test_illFormed_foldpre_chunk : (Instr.foldpre 0 0 [List.replicate 65536 0]).wellFormed = false := by
  simp only [Instr.wellFormed, chunksFit_replicate]; decide

/-- The largest list and the largest chunk are well formed. -/
theorem test_wellFormed_largest : (Instr.hash 0 (List.replicate 16383 0)).wellFormed = true ∧
    (Instr.foldapp 0 0 [List.replicate 65535 0]).wellFormed = true := by
  simp only [Instr.wellFormed, lenFits_replicate, chunksFit_replicate]; decide

/-! ### Decoding: every command from a word written out field by field from R71 to R73 and R79, the fields in
the order Z, D, C, B, A, op (format R), LEN, B, A, op (format P), Z, IMM8, B, A, op (format I) -/

/-- The stream bytes of a header, and a payload. -/
def stream (w : BitVec 32) (payload : List Byte) : List Byte :=
  [w.extractLsb' 0 8, w.extractLsb' 8 8, w.extractLsb' 16 8, w.extractLsb' 24 8] ++ payload

theorem test_decode_fadd : decode (stream
    (0b0000#4 ++ 0b00000#5 ++ 0b00010#5 ++ 0b00001#5 ++ 0b00000#5 ++ 0b00000001#8) []) =
    .command (.fadd 0 1 2) [] := by decide

theorem test_decode_fmul : decode (stream
    (0b0000#4 ++ 0b00000#5 ++ 0b10001#5 ++ 0b11110#5 ++ 0b11111#5 ++ 0b00000010#8) []) =
    .command (.fmul 31 30 17) [] := by decide

theorem test_decode_fmuladd : decode (stream
    (0b0000#4 ++ 0b00110#5 ++ 0b00101#5 ++ 0b00100#5 ++ 0b00111#5 ++ 0b00000011#8) []) =
    .command (.fmuladd 7 4 5 6) [] := by decide

theorem test_decode_feq : decode (stream
    (0b0000#4 ++ 0b00000#5 ++ 0b01010#5 ++ 0b01001#5 ++ 0b00000#5 ++ 0b00000100#8) []) =
    .command (.feq 9 10) [] := by decide

theorem test_decode_unit : decode (stream
    (0b0000#4 ++ 0b00000#5 ++ 0b00000#5 ++ 0b00000#5 ++ 0b00011#5 ++ 0b00010000#8) []) =
    .command (.unit 3) [] := by decide

theorem test_decode_mmul : decode (stream
    (0b0000#4 ++ 0b00000#5 ++ 0b00001#5 ++ 0b00111#5 ++ 0b00010#5 ++ 0b00010001#8) []) =
    .command (.mmul 2 7 1) [] := by decide

theorem test_decode_isvalid : decode (stream
    (0b0000#4 ++ 0b00000#5 ++ 0b00000#5 ++ 0b00101#5 ++ 0b00000#5 ++ 0b00010010#8) []) =
    .command (.isvalid 5) [] := by decide

theorem test_decode_validate : decode (stream
    (0b0000#4 ++ 0b00000#5 ++ 0b00000#5 ++ 0b00010#5 ++ 0b00011#5 ++ 0b00010011#8) []) =
    .command (.validate 3 2) [] := by decide

theorem test_decode_meq : decode (stream
    (0b0000#4 ++ 0b00000#5 ++ 0b00100#5 ++ 0b00110#5 ++ 0b00000#5 ++ 0b00010100#8) []) =
    .command (.meq 6 4) [] := by decide

theorem test_decode_mcmp : decode (stream
    (0b0000#4 ++ 0b00000#5 ++ 0b00111#5 ++ 0b00100#5 ++ 0b00000#5 ++ 0b00010101#8) []) =
    .command (.mcmp 4 7) [] := by decide

theorem test_decode_bytemat : decode (stream
    (0b000000#6 ++ 0b01000001#8 ++ 0b00000#5 ++ 0b00011#5 ++ 0b00100000#8) []) =
    .command (.bytemat 3 0x41) [] := by decide

theorem test_decode_hash : decode (stream
    (0b00000000000011#14 ++ 0b00000#5 ++ 0b00000#5 ++ 0b00110000#8) [0x41, 0x42, 0x43]) =
    .command (.hash 0 [0x41, 0x42, 0x43]) [] := by decide

theorem test_decode_append : decode (stream
    (0b00000000000010#14 ++ 0b00111#5 ++ 0b00001#5 ++ 0b00110001#8) [0x42, 0x43]) =
    .command (.append 1 7 [0x42, 0x43]) [] := by decide

theorem test_decode_prepend : decode (stream
    (0b00000000000010#14 ++ 0b00101#5 ++ 0b00110#5 ++ 0b00110010#8) [0x41, 0x42]) =
    .command (.prepend 6 5 [0x41, 0x42]) [] := by decide

theorem test_decode_foldapp : decode (stream
    (0b00000000000011#14 ++ 0b00000#5 ++ 0b00001#5 ++ 0b00110011#8) [0x01, 0x00, 0x41, 0x00, 0x00, 0x02, 0x00, 0x42, 0x43]) =
    .command (.foldapp 1 0 [[0x41], [], [0x42, 0x43]]) [] := by decide

theorem test_decode_foldpre : decode (stream
    (0b00000000000010#14 ++ 0b00011#5 ++ 0b00110#5 ++ 0b00110100#8) [0x01, 0x00, 0x41, 0x01, 0x00, 0x42]) =
    .command (.foldpre 6 3 [[0x41], [0x42]]) [] := by decide

theorem test_decode_concatall : decode (stream
    (0b00000000000011#14 ++ 0b00000#5 ++ 0b00101#5 ++ 0b00110101#8) [0x02, 0x03, 0xFF]) =
    .command (.concatall 5 [0x02, 0x03, 0xFF]) [] := by decide

theorem test_decode_pack8 : decode (stream
    (0b00000000000010#14 ++ 0b00000#5 ++ 0b00001#5 ++ 0b01000000#8) [0x93, 0x03]) =
    .command (.pack8 1 [0x93, 0x03]) [] := by decide

theorem test_decode_pack16 : decode (stream
    (0b00000000000010#14 ++ 0b00000#5 ++ 0b00001#5 ++ 0b01000001#8) [0x93, 0x03, 0x2D, 0x01]) =
    .command (.pack16 1 [0x0393, 0x012D]) [] := by decide

theorem test_decode_pack32 : decode (stream
    (0b00000000000001#14 ++ 0b00000#5 ++ 0b00001#5 ++ 0b01000010#8) [0x93, 0x03, 0x2D, 0x01]) =
    .command (.pack32 1 [0x012D0393]) [] := by decide

theorem test_decode_pack64 : decode (stream
    (0b00000000000001#14 ++ 0b00000#5 ++ 0b00001#5 ++ 0b01000011#8) [0x93, 0x03, 0x2D, 0x01, 0x00, 0x00, 0x00, 0x80]) =
    .command (.pack64 1 [0x80000000012D0393]) [] := by decide

theorem test_decode_unpack8 : decode (stream
    (0b0000#4 ++ 0b00000#5 ++ 0b00000#5 ++ 0b00100#5 ++ 0b00000#5 ++ 0b01000100#8) []) =
    .command (.unpack8 4) [] := by decide

theorem test_decode_unpack16 : decode (stream
    (0b0000#4 ++ 0b00000#5 ++ 0b00000#5 ++ 0b00101#5 ++ 0b00000#5 ++ 0b01000101#8) []) =
    .command (.unpack16 5) [] := by decide

theorem test_decode_unpack32 : decode (stream
    (0b0000#4 ++ 0b00000#5 ++ 0b00000#5 ++ 0b00110#5 ++ 0b00000#5 ++ 0b01000110#8) []) =
    .command (.unpack32 6) [] := by decide

theorem test_decode_unpack64 : decode (stream
    (0b0000#4 ++ 0b00000#5 ++ 0b00000#5 ++ 0b00111#5 ++ 0b00000#5 ++ 0b01000111#8) []) =
    .command (.unpack64 7) [] := by decide

theorem test_decode_show : decode (stream
    (0b0000#4 ++ 0b00000#5 ++ 0b00000#5 ++ 0b00001#5 ++ 0b00000#5 ++ 0b01001000#8) []) =
    .command (.showm 1) [] := by decide

theorem test_decode_parse : decode (stream
    (0b00000000000010#14 ++ 0b00000#5 ++ 0b00110#5 ++ 0b01001001#8) [0x39, 0x33]) =
    .command (.parse 6 [0x39, 0x33]) [] := by decide

theorem test_decode_loadu : decode (stream
    (0b00000000000001#14 ++ 0b00000#5 ++ 0b00010#5 ++ 0b01001010#8) [0x92]) =
    .command (.loadu 2 [0x92]) [] := by decide

theorem test_decode_rdst : decode (stream
    (0b0000#4 ++ 0b00000#5 ++ 0b00000#5 ++ 0b00000#5 ++ 0b00000#5 ++ 0b01010000#8) []) =
    .command (.rdst) [] := by decide

/-! Illegal and incomplete commands (spec/95_test_vectors.md, its decoding section). -/

theorem test_decode_unassigned : decode [0x36, 0x00, 0x0C, 0x00, 0x41, 0x42, 0x43] =
    .illegal .unassignedOpcode [0x41, 0x42, 0x43] := by decide

theorem test_decode_zero_opcode : decode [0x00, 0x00, 0x00, 0x00] = .illegal .unassignedOpcode [] := by decide

theorem test_decode_fadd_Z : decode [0x01, 0x20, 0x08, 0x10] = .illegal .reservedField [] := by decide

theorem test_decode_fadd_D : decode [0x01, 0x20, 0x88, 0x00] = .illegal .reservedField [] := by decide

theorem test_decode_feq_A : decode [0x04, 0x21, 0x08, 0x00] = .illegal .reservedField [] := by decide

theorem test_decode_mmul_m8 : decode [0x11, 0x08, 0x04, 0x00] = .illegal .matrixRegister [] := by decide

theorem test_decode_mmul_m31 : decode [0x11, 0x00, 0x7C, 0x00] = .illegal .matrixRegister [] := by decide

theorem test_decode_hash_B : decode [0x30, 0x20, 0x0C, 0x00, 0x41, 0x42, 0x43, 0x50, 0x00, 0x00, 0x00] =
    .illegal .reservedField [0x50, 0x00, 0x00, 0x00] := by decide

theorem test_decode_hash_m9 : decode [0x30, 0x09, 0x0C, 0x00, 0x41, 0x42, 0x43] =
    .illegal .matrixRegister [] := by decide

theorem test_decode_bytemat_Z : decode [0x20, 0x00, 0x04, 0x05] = .illegal .reservedField [] := by decide

theorem test_decode_incomplete_hash : decode [0x30, 0x00, 0x0C, 0x00, 0x41, 0x42] = .incomplete := by decide

theorem test_decode_incomplete_header : decode [0x50, 0x00, 0x00] = .incomplete := by decide

theorem test_decode_incomplete_fold :
    decode [0x33, 0x00, 0x08, 0x00, 0x01, 0x00, 0x41, 0x05, 0x00, 0x01, 0x02] = .incomplete := by decide

/-- The table word of a row reads as the row's command. -/
theorem test_decodeTableWord : decodeTableWord 32 0x00000050 = some .rdst ∧
    decodeTableWord 32 0x00000011 = some (.mmul 0 0 0) := by decide

/-! ### Assembler (R83, R84) -/

theorem test_assemble_folds :
    Asm.assembleLine "FOLDAPP m5, m4, [\"ab\", \"\", \"c\"] ; text order".toList =
      some [.foldapp 5 4 [[0x61, 0x62], [], [0x63]]] := by decide +kernel

/-- A braced list, the braces written as character numbers. -/
def braced (s : String) : List Char := Char.ofNat 0x7B :: (s.toList ++ [Char.ofNat 0x7D])

theorem test_assemble_words : Asm.assembleLine ("PACK64 m1, ".toList ++ braced "1, 0x8000_0000_0000_0000") =
    some [.pack64 1 [1, 0x8000000000000000]] := by decide +kernel

theorem test_assemble_too_wide : Asm.assembleLine ("PACK8 m0, ".toList ++ braced "256") = none := by
  decide +kernel

theorem test_assemble_element : Asm.assembleLine "FEQ m1.a, e31".toList = some [.feq 4 31] := by decide +kernel

theorem test_assemble_concat : Asm.assembleLine "CONCAT m1, m2, m3".toList = some [.mmul 1 2 3] := by
  decide +kernel

theorem test_assemble_blank : Asm.assembleLine "  ; a comment".toList = some [] := by decide +kernel

theorem test_assemble_refuses : Asm.assembleLine "UNIT m8".toList = none ∧
    Asm.assembleLine "RDST m0".toList = none := by
  decide +kernel

/-! ### One step of each command -/

/-- The reset state with some registers set and a command stream. -/
def probe (regs : List (MIdx × Mat)) (bytes : List Byte) : State :=
  { regs.foldl (fun s p => s.setM p.1 p.2) State.reset with cmd := bytes }

/-- The response bytes after a step. -/
def answerOf : Out → List Byte
  | .next t => t.rsp
  | .fault _ => []
  | .refused _ => []

/-- A register after a step. -/
def regAfter : Out → MIdx → Option Mat
  | .next t, i => some (t.getM i)
  | .fault _, _ => none
  | .refused _, _ => none

/-- `ST` after a step. -/
def stAfter : Out → Option (BitVec 16)
  | .next t => some t.st.word
  | .fault _ => none
  | .refused _ => none

/-- The 64 footprint bytes of small slots, each given by its four lowest bytes. -/
def foot (a b c d : List Byte) : List Byte :=
  [a, b, c, d].flatMap fun x => x ++ List.replicate (16 - x.length) 0x00#8

/-- The bytes of an ASCII text. -/
def ascii (s : String) : List Byte := s.toList.map fun c => BitVec.ofNat 8 c.toNat

/-- The constants A, B, C of spec/95_test_vectors.md 2.1, as slots. -/
def cA : Slot := 0x0123456789abcdef0fedcba987654321#128
def cB : Slot := 0x7edcba9876543210123456789abcdef0#128
def cC : Slot := 0x55555555555555555555555555555555#128

/-- `hash("ABC")` for the default pair, its footprint and its text (spec/45_codec.md R176, R181). -/
def habc : Mat := ⟨0x12d0393, 0x1e324ac, 0xb620b9, 0xcb626b⟩
def fabc : List Byte := foot [0x93, 0x03, 0x2d, 0x01] [0xac, 0x24, 0xe3, 0x01] [0xb9, 0x20, 0xb6] [0x6b, 0x62, 0xcb]
def tabc : String := "93032d01000000000000000000000000ac24e301000000000000000000000000" ++
  "b920b6000000000000000000000000006b62cb00000000000000000000000000"

/-- The identity with the range bit of slot a set. -/
def badIdent : Mat := ⟨0x80000000000000000000000000000001, 0, 0, 1⟩

/-- Q of spec/95_test_vectors.md 2.2 M8: high degree, determinant 1. -/
def matQ : Mat := ⟨0x40000000000000000000000000000000, 0x40000000000000000000000000000001, 1, 1⟩

/-- R106 -/
theorem test_fadd : regAfter (step (probe [(0, ⟨7, cA, cB, 9⟩)] [0x01, 0x20, 0x08, 0x00])) 0 =
    some ⟨0x7fffffffffffffff1dd99dd11dd99dd1, cA, cB, 9⟩ := by decide +kernel

/-- P2 line 14: `FADD e20, e16, e17`. -/
theorem test_fadd_range : answerOf (step (probe [(4, badIdent)] [0x01, 0x14, 0x46, 0x00])) = [0x05, 0x00, 0x00] ∧
    regAfter (step (probe [(4, badIdent)] [0x01, 0x14, 0x46, 0x00])) 5 = some identReg := by decide +kernel

/-- F15, P3 line 2: `FMUL e8, e4, e5`. -/
theorem test_fmul : regAfter (step (probe [(1, ⟨cA, cB, cC, 1⟩)] [0x02, 0x88, 0x14, 0x00])) 2 =
    some ⟨0x47240b2877143b18c4647c5eac0c143e, 0, 0, 1⟩ := by decide +kernel

/-- F12: the widest product. -/
theorem test_fmul_widest : fmul (BitVec.allOnes 127) (BitVec.allOnes 127) =
    0x3fffffffffffffffd555555555555555#127 := by decide +kernel

/-- F11 and F6: a product that folds onto bit 127 again, and the highest power. -/
theorem test_fmul_folds : fmul (1#127 <<< 126) (1#127 <<< 65) = 0x18000000000000001#127 ∧
    fmul (1#127 <<< 126) (1#127 <<< 126) = 0x30000000000000002000000000000000#127 := by decide +kernel

/-- P3 line 3: `FMULADD e9, e4, e5, e6`. -/
theorem test_fmuladd : regAfter (step (probe [(1, ⟨cA, cB, cC, 1⟩)] [0x03, 0x89, 0x14, 0x03])) 2 =
    some ⟨1, 0x12715e7d22416e4d9131290bf959416b, 0, 1⟩ := by decide +kernel

/-- R109: `FEQ e0, e3` after reset. -/
theorem test_feq : answerOf (step (probe [] [0x04, 0x00, 0x0C, 0x00])) = [0x00, 0x01, 0x00, 0x01] ∧
    stAfter (step (probe [] [0x04, 0x00, 0x0C, 0x00])) = some 0x0100 := by decide +kernel

/-- R109: `FEQ e0, e1` after reset. -/
theorem test_feq_unequal : answerOf (step (probe [] [0x04, 0x00, 0x04, 0x00])) = [0x00, 0x01, 0x00, 0x00] := by decide +kernel

/-- R128 -/
theorem test_unit : regAfter (step (probe [(3, habc)] [0x10, 0x03, 0x00, 0x00])) 3 = some ⟨1, 0, 0, 1⟩ := by decide +kernel

/-- R133: `MMUL m2, m0, m1`. -/
theorem test_mmul : regAfter (step (probe [(0, ⟨2, 1, 1, 0⟩), (1, ⟨2, 3, 1, 1⟩)] [0x11, 0x02, 0x04, 0x00])) 2 =
    some ⟨5, 7, 2, 3⟩ := by decide +kernel

/-- R133: `MMUL m2, m1, m0`. -/
theorem test_mmul_order : regAfter (step (probe [(0, ⟨2, 1, 1, 0⟩), (1, ⟨2, 3, 1, 1⟩)] [0x11, 0x22, 0x00, 0x00])) 2 =
    some ⟨7, 2, 3, 1⟩ := by decide +kernel

/-- 2.2: `ISVALID` of Q. -/
theorem test_isvalid_high : answerOf (step (probe [(2, matQ)] [0x12, 0x40, 0x00, 0x00])) = [0x00, 0x01, 0x00, 0x01] := by decide +kernel

/-- R129: a non-canonical register gives 00, never E_RANGE. -/
theorem test_isvalid_range : answerOf (step (probe [(2, badIdent)] [0x12, 0x40, 0x00, 0x00])) = [0x00, 0x01, 0x00, 0x00] := by decide +kernel

/-- R130 -/
theorem test_validate : regAfter (step (probe [(2, ⟨1, 1, 0, 1⟩)] [0x13, 0x43, 0x00, 0x00])) 3 = some ⟨1, 1, 0, 1⟩ := by decide +kernel

/-- 2.2: `VALIDATE m3, m2` with `m2 = (2, 0, 0, 2)`. -/
theorem test_validate_refuses : answerOf (step (probe [(2, ⟨2, 0, 0, 2⟩)] [0x13, 0x43, 0x00, 0x00])) = [0x03, 0x00, 0x00] ∧
    regAfter (step (probe [(2, ⟨2, 0, 0, 2⟩)] [0x13, 0x43, 0x00, 0x00])) 3 = some identReg := by decide +kernel

/-- R131: `MEQ m0, m7` after reset. -/
theorem test_meq : answerOf (step (probe [] [0x14, 0x00, 0x1C, 0x00])) = [0x00, 0x01, 0x00, 0x01] := by decide +kernel

/-- 2.6: `MEQ m1, m0` with a range bit set. -/
theorem test_meq_range : answerOf (step (probe [(1, badIdent)] [0x14, 0x20, 0x00, 0x00])) = [0x00, 0x01, 0x00, 0x00] := by decide +kernel

/-- 2.2: slot d decides. -/
theorem test_mcmp_less : answerOf (step (probe [(1, ⟨1, 0, 0, 2⟩)] [0x15, 0x00, 0x04, 0x00])) = [0x00, 0x01, 0x00, 0xFF] := by decide +kernel

/-- 2.2: slots compare as unsigned integers; no E_RANGE. -/
theorem test_mcmp_unsigned : answerOf (step (probe [(4, badIdent)] [0x15, 0x80, 0x00, 0x00])) = [0x00, 0x01, 0x00, 0x01] := by decide +kernel

/-- 2.3: `BYTEMAT m3, 0x41`. -/
theorem test_bytemat : regAfter (step (probe [] [0x20, 0x03, 0x04, 0x01])) 3 = some ⟨0x1fb, 0x13a, 0xc4, 0xbf⟩ := by decide +kernel

/-- 2.3: `GT[0x80]`, bit 7 the leftmost factor. -/
theorem test_bytemat_bit_order : regAfter (step (probe [] [0x20, 0x00, 0x00, 0x02])) 0 = some ⟨0x1f3, 0xc4, 0xd1, 0x73⟩ := by decide +kernel

/-- 2.4: `HASH m0, "AB"`. -/
theorem test_hash : regAfter (step (probe [(0, badIdent)] [0x30, 0x00, 0x08, 0x00, 0x41, 0x42])) 0 =
    some ⟨0x17068, 0xf245, 0x923d, 0x642d⟩ := by decide +kernel

/-- S1: `HASH m1, ""`. -/
theorem test_hash_empty : regAfter (step (probe [(1, habc)] [0x30, 0x01, 0x00, 0x00])) 1 = some ⟨1, 0, 0, 1⟩ := by decide +kernel

/-- 2.4: `m0 = hash("A")`, `APPEND m1, m0, "B"`. -/
theorem test_append : regAfter (step (probe [(0, ⟨0x1fb, 0x13a, 0xc4, 0xbf⟩)] [0x31, 0x01, 0x04, 0x00, 0x42])) 1 =
    some ⟨0x17068, 0xf245, 0x923d, 0x642d⟩ := by decide +kernel

/-- 2.6: `APPEND m2, m1, ""`. -/
theorem test_append_range : answerOf (step (probe [(1, badIdent)] [0x31, 0x22, 0x00, 0x00])) = [0x05, 0x00, 0x00] := by decide +kernel

/-- 2.4: `m0 = hash("C")`, `PREPEND m1, m0, "B"`. -/
theorem test_prepend : regAfter (step (probe [(0, ⟨0x13a, 0x1fb, 0xbf, 0xc4⟩)] [0x32, 0x01, 0x04, 0x00, 0x42])) 1 =
    some ⟨0x175bb, 0x1843a, 0x907f, 0xf5c5⟩ := by decide +kernel

/-- `FOLDAPP m1, m0, ["A", "B"]` after reset: `hash("AB")` of 2.4. -/
theorem test_foldapp : regAfter (step (probe [] [0x33, 0x01, 0x08, 0x00, 0x01, 0x00, 0x41, 0x01, 0x00, 0x42])) 1 =
    some ⟨0x17068, 0xf245, 0x923d, 0x642d⟩ := by decide +kernel

/-- `FOLDPRE m1, m0, ["A", "B"]` after reset: `hash("AB")` of 2.4, not `hash("BA")` (C6). -/
theorem test_foldpre : regAfter (step (probe [] [0x34, 0x01, 0x08, 0x00, 0x01, 0x00, 0x41, 0x01, 0x00, 0x42])) 1 =
    some ⟨0x17068, 0xf245, 0x923d, 0x642d⟩ := by decide +kernel

/-- `m0 = hash("A")`, `m1 = hash("B")`, `CONCATALL m0, [m0, m1]`. -/
theorem test_concatall : regAfter (step (probe [(0, ⟨0x1fb, 0x13a, 0xc4, 0xbf⟩), (1, ⟨0x13a, 0xc1, 0xbf, 0x7b⟩)] [0x35, 0x00, 0x08, 0x00, 0x00, 0x01])) 0 =
    some ⟨0x17068, 0xf245, 0x923d, 0x642d⟩ := by decide +kernel

/-- 2.6, R217: a register number above 7 before a range bit. -/
theorem test_concatall_illegal : answerOf (step (probe [(1, badIdent)] [0x35, 0x00, 0x08, 0x00, 0x01, 0x08])) = [0x01, 0x00, 0x00] := by decide +kernel

/-- P2 line 3 -/
theorem test_pack8 : regAfter (step (probe [] ([0x40, 0x01, 0x00, 0x01] ++ fabc))) 1 = some habc := by decide +kernel

/-- S4 -/
theorem test_pack8_length : answerOf (step (probe [] ([0x40, 0x00, 0x04, 0x01] ++ List.replicate 65 0))) = [0x02, 0x00, 0x00] := by decide +kernel

/-- R172 -/
theorem test_pack16 : regAfter (step (probe [] ([0x41, 0x01, 0x80, 0x00] ++ fabc))) 1 = some habc := by decide +kernel

/-- R172: the byte count mistaken for the word count. -/
theorem test_pack16_length : answerOf (step (probe [] ([0x41, 0x01, 0x00, 0x01] ++ fabc ++ fabc))) = [0x02, 0x00, 0x00] := by decide +kernel

/-- R173 -/
theorem test_pack32 : regAfter (step (probe [] ([0x42, 0x01, 0x40, 0x00] ++ fabc))) 1 = some habc := by decide +kernel

/-- R174 -/
theorem test_pack64 : regAfter (step (probe [] ([0x43, 0x01, 0x20, 0x00] ++ fabc))) 1 = some habc := by decide +kernel

/-- R174: the range bit of slot a. -/
theorem test_pack64_range : answerOf (step (probe [] ([0x43, 0x01, 0x20, 0x00] ++ footprint badIdent))) = [0x03, 0x00, 0x00] := by decide +kernel

/-- R176 -/
theorem test_unpack8 : answerOf (step (probe [(0, habc)] [0x44, 0x00, 0x00, 0x00])) = [0x00, 0x40, 0x00] ++ fabc := by decide +kernel

/-- R177 -/
theorem test_unpack16 : answerOf (step (probe [(0, habc)] [0x45, 0x00, 0x00, 0x00])) = [0x00, 0x40, 0x00] ++ fabc := by decide +kernel

/-- R178 -/
theorem test_unpack32 : answerOf (step (probe [(0, habc)] [0x46, 0x00, 0x00, 0x00])) = [0x00, 0x40, 0x00] ++ fabc := by decide +kernel

/-- R179 -/
theorem test_unpack64 : answerOf (step (probe [(0, habc)] [0x47, 0x00, 0x00, 0x00])) = [0x00, 0x40, 0x00] ++ fabc := by decide +kernel

/-- R181 -/
theorem test_show : answerOf (step (probe [(0, habc)] [0x48, 0x00, 0x00, 0x00])) = [0x00, 0x80, 0x00] ++ ascii tabc := by decide +kernel

/-- P2 line 18 -/
theorem test_parse : regAfter (step (probe [] ([0x49, 0x06, 0x00, 0x02] ++ ascii tabc))) 6 = some habc := by decide +kernel

/-- R183: a capital is no digit. -/
theorem test_parse_capital : answerOf (step (probe [] ([0x49, 0x06, 0x00, 0x02] ++ 0x41 :: (ascii tabc).tail))) = [0x04, 0x00, 0x00] := by decide +kernel

/-- P2 line 11 -/
theorem test_loadu : regAfter (step (probe [] ([0x4A, 0x04, 0x00, 0x01] ++ footprint ⟨0x800000000000000000000000012d0393, 0x1e324ac, 0xb620b9, 0xcb626b⟩))) 4 =
    some ⟨0x800000000000000000000000012d0393, 0x1e324ac, 0xb620b9, 0xcb626b⟩ := by decide +kernel

/-- R184: 63 bytes. -/
theorem test_loadu_length : answerOf (step (probe [] ([0x4A, 0x04, 0xFC, 0x00] ++ fabc))) = [0x02, 0x00, 0x00] := by decide +kernel

/-- P2 line 22: `RDST` with `ST = 0x0102`. -/
theorem test_rdst : answerOf (step { probe [] [0x50, 0x00, 0x00, 0x00] with st := ⟨0x02, true⟩ }) =
    [0x00, 0x02, 0x00, 0x02, 0x01] := by decide +kernel

/-- R200: the only legal header is 0x00000050. -/
theorem test_rdst_illegal : answerOf (step (probe [] [0x50, 0x01, 0x00, 0x00])) = [0x01, 0x00, 0x00] ∧
    stAfter (step (probe [] [0x50, 0x01, 0x00, 0x00])) = some 0x0001 := by decide +kernel

/-- The footprint bytes are written out in the tests above by slots; the identity's is R52's. -/
theorem test_foot : footprint identReg = foot [0x01] [] [] [0x01] := by decide +kernel

/-- After the host asserts and releases reset the engine is as after power-up (R240, R241). -/
theorem test_reset : ((probe [(3, badIdent)] [0x30, 0x00]).onHost .assertReset).onHost .releaseReset =
    State.reset := by decide +kernel

/-- The next step of `withFetchWord` runs exactly the given word's command. -/
theorem test_withFetchWord : regAfter (step ((probe [(3, habc)] [0x44]).withFetchWord 32 0x00000310)) 3 =
    some identReg := by decide +kernel

/-! ### Witnesses: for every statement with hypotheses, data that meets them together -/

theorem witness_StepExecutesDecodedCommand : ∃ s i rest t, s.resetIn = false ∧
    decode s.cmd = .command i rest ∧ step s = .next t :=
  ⟨probe [] [0x50, 0x00, 0x00, 0x00, 0x44], .rdst, [0x44], _, rfl, by decide, rfl⟩

theorem witness_IllegalHeaderIsAnswered : ∃ s c rest, s.resetIn = false ∧ decode (State.cmd s) = .illegal c rest :=
  ⟨probe [] [0x00, 0x00, 0x00, 0x00], .unassignedOpcode, [], rfl, by decide⟩

/-- HASH of three bytes with two of them there, and with all three. -/
theorem not_complete_hash : ¬ Complete [0x30, 0x00, 0x0C, 0x00, 0x41, 0x42] := by
  rintro ⟨b0, b1, b2, b3, tail, n, h, hn, hl⟩
  simp only [List.cons.injEq] at h
  obtain ⟨rfl, rfl, rfl, rfl, rfl⟩ := h
  have h3 : payloadLength (headerWord 0x30 0x00 0x0C 0x00) [0x41, 0x42] = some 3 := by decide
  rw [h3] at hn
  cases hn
  simp at hl

theorem complete_hash : Complete [0x30, 0x00, 0x0C, 0x00, 0x41, 0x42, 0x43] :=
  ⟨_, _, _, _, _, 3, rfl, by decide, by decide⟩

theorem witness_EngineHoldsUntilCommandComplete :
    (∃ s : State, s.resetIn = false ∧ ¬ Complete s.cmd) ∧ (∃ s : State, s.resetIn = false ∧ Complete s.cmd) ∧
    ∃ (s : State) (bytes : List Byte), s.resetIn = false ∧ ¬ Complete s.cmd ∧ Complete (s.cmd ++ bytes) :=
  ⟨⟨probe [] _, rfl, not_complete_hash⟩, ⟨probe [] _, rfl, complete_hash⟩,
    probe [] _, [0x43], rfl, not_complete_hash, complete_hash⟩

/-- Two chunks, the second empty, with no byte to spare. -/
theorem witness_LengthIsFixedBeforeLegality : ∃ (b0 b1 b2 b3 : Byte) (tail : List Byte) (n : Nat),
    payloadLength (headerWord b0 b1 b2 b3) tail = some n ∧ n ≤ tail.length :=
  ⟨0x33, 0x00, 0x08, 0x00, [0x01, 0x00, 0x41, 0x00, 0x00], 5, by decide, by decide⟩

theorem witness_DecodeOfEncode : (Instr.hash 0 (List.replicate 16383 0)).wellFormed = true ∧
    (Instr.foldapp 0 0 [List.replicate 65535 0]).wellFormed = true := test_wellFormed_largest

theorem witness_EncodeOfDecode : ∃ bs i rest, decode bs = .command i rest :=
  ⟨[0x20, 0x03, 0x04, 0x01, 0xFF], .bytemat 3 0x41, [0xFF], by decide⟩

/-- A legal header, and an illegal one of an assigned opcode. -/
theorem witness_HeaderLegalIffTableRow :
    (∃ (w : BitVec 32) (tail : List Byte) (n : Nat), payloadLength w tail = some n ∧ n ≤ tail.length ∧
      ∃ r ∈ opcodeTable, w &&& r.mask = r.value ∧ ∃ i rest, decode (headerBytes w ++ tail) = .command i rest) ∧
    ∃ (w : BitVec 32) (tail : List Byte) (n : Nat), payloadLength w tail = some n ∧ n ≤ tail.length ∧
      ¬ ∃ r ∈ opcodeTable, w &&& r.mask = r.value :=
  ⟨⟨0x00000050, [], 0, by decide, by decide, ⟨.rdst, 0x00000050, 0xFFFFFFFF⟩, by decide, by decide, .rdst, [],
      by decide⟩,
    0x80000050, [], 0, by decide, by decide, by decide⟩

theorem witness_UnassignedOpcodesAreIllegal :
    (∃ (s : State) (b0 b1 b2 b3 : Byte) (tail : List Byte), b0 ∉ assignedOpcodes ∧ b0 = 0x36#8 ∧
      s.resetIn = false ∧ s.cmd = b0 :: b1 :: b2 :: b3 :: tail) ∧
    ∃ (s : State) (b0 b1 b2 b3 : Byte) (tail : List Byte) (n : Nat), s.resetIn = false ∧
      s.cmd = b0 :: b1 :: b2 :: b3 :: tail ∧ payloadLength (headerWord b0 b1 b2 b3) tail = some n ∧
      n ≤ tail.length :=
  ⟨⟨probe [] [0x36, 0x00, 0x0C, 0x00, 0x41], 0x36, 0x00, 0x0C, 0x00, [0x41], by decide, rfl, rfl, rfl⟩,
    probe [] [0x30, 0x00, 0x04, 0x00, 0x41], 0x30, 0x00, 0x04, 0x00, [0x41], 1, rfl, rfl, by decide, by decide⟩

theorem witness_PseudoInstructionsAreOtherNames : ∃ line is, Asm.assembleLine line = some is ∧ is ≠ [] :=
  ⟨"IDENTITY m3".toList, [.unit 3], by decide +kernel, by simp⟩

/-- A command that answers OK, and one that does not. -/
theorem witness_OneResponseRecordPerCommand :
    ∃ s : State, s.resetIn = false ∧ Complete s.cmd ∧ (answerOf (step s)).head? = some 0x05#8 :=
  ⟨probe [(4, badIdent)] [0x01, 0x14, 0x46, 0x00], rfl, ⟨_, _, _, _, _, 0, rfl, by decide, by decide⟩,
    by decide +kernel⟩

theorem witness_CommandStreamRunsInOrder : ∃ (s : State) (is : List Instr) (rest : List Byte),
    s.resetIn = false ∧ (∀ i ∈ is, i.wellFormed = true) ∧ s.cmd = is.flatMap encode ++ rest ∧ rest = [] ∧
    is.length = 2 :=
  ⟨probe [] [0x50, 0x00, 0x00, 0x00, 0x10, 0x03, 0x00, 0x00], [.rdst, .unit 3], [], rfl, by decide, by decide,
    rfl, rfl⟩

theorem witness_FailedCommandChangesOnlyCode : ∃ (s t : State) (code : Byte) (more : List Byte),
    s.resetIn = false ∧ step s = .next t ∧ t.rsp = s.rsp ++ code :: more ∧ code ≠ 0x00#8 :=
  ⟨probe [] [0x00, 0x00, 0x00, 0x00], _, 0x01, [0x00, 0x00], rfl, rfl, by decide, by decide⟩

/-- An outcome that is a next state with a property, by evaluating the property. -/
theorem next_with {o : Out} (p : State → Bool)
    (h : (match o with | .next t => p t | .fault _ => false | .refused _ => false) = true) :
    ∃ t, o = .next t ∧ p t = true := by
  match o, h with
  | .next t, h => exact ⟨t, rfl, h⟩

/-- `FEQ e0, e3` after reset sets the flag; the other predicates answer next states too. -/
theorem witness_TruthFlagWritersAndReader :
    (∃ s t : State, s.resetIn = false ∧ step s = .next t ∧ t.st.t ≠ s.st.t) ∧
    (∃ t, exec (.feq 0 3) State.reset = .next t ∧ t.st.code = 0x00#8) ∧
    (∃ t, exec (.isvalid 0) State.reset = .next t) ∧ (∃ t, exec (.meq 0 1) State.reset = .next t) ∧
    (∃ t, exec (.mcmp 0 1) State.reset = .next t) ∧
    ∃ (i : Instr) (s t : State), i ≠ .rdst ∧ exec i s = .next t := by
  refine ⟨?_, ?_, ⟨_, rfl⟩, ⟨_, rfl⟩, ⟨_, rfl⟩, .unit 0, State.reset, _, by simp, rfl⟩
  · obtain ⟨t, h, ht⟩ := next_with (o := step (probe [] [0x04, 0x00, 0x0C, 0x00])) (fun t => t.st.t)
      (by decide +kernel)
    exact ⟨_, t, rfl, h, by rw [ht]; decide +kernel⟩
  · obtain ⟨t, h, ht⟩ := next_with (o := exec (.feq 0 3) State.reset) (fun t => decide (t.st.code = 0x00#8))
      (by decide +kernel)
    exact ⟨t, h, of_decide_eq_true ht⟩

theorem witness_RegistersOutsideDestinationKept : ∃ (i : Instr) (s t : State) (k : EIdx),
    exec i s = .next t ∧ ¬ i.MayWrite k :=
  ⟨.unit 0, State.reset, _, 4, rfl, by simp [Instr.MayWrite, Instr.writesReg, Instr.writesSlot, regOf]⟩

/-- Two states that differ in a register the command does not read. -/
theorem witness_ResultDependsOnlyOnRegistersRead : ∃ (i : Instr) (s s' t : State), i ≠ .rdst ∧ s ≠ s' ∧
    s'.gen = s.gen ∧ (∀ r ∈ i.reads, s'.getM r = s.getM r) ∧ exec i s = .next t :=
  ⟨.meq 0 1, State.reset, probe [(5, habc)] [], _, by simp, by decide +kernel, rfl, by decide +kernel, rfl⟩

theorem witness_ConstantsAndHostReach : (∃ s t : State, step s = .next t) ∧
    ∃ e : HostEvent, e ≠ .assertReset := ⟨⟨State.reset, _, rfl⟩, .read 3, by simp⟩

theorem reset_sound : State.reset.Sound := ⟨by simp [IsCode, State.reset], .none⟩

theorem witness_StatusAndResponsesStaySound : ∃ s t : State, s.Sound ∧ step s = .next t :=
  ⟨State.reset, _, reset_sound, rfl⟩

theorem reset_canonical : State.reset.Canonical := fun i => by
  rw [State.reset, resetWith_getM]; decide

theorem reset_valid : State.reset.AllValid := fun i => by
  rw [State.reset, resetWith_getM]; decide +kernel

/-- A state about to run UNIT. -/
theorem decode_probe_unit {i : Instr} {rest : List Byte}
    (h : decode (probe [] [0x10, 0x03, 0x00, 0x00]).cmd = .command i rest) : i = .unit 3 := by
  have h' : decode (probe [] [0x10, 0x03, 0x00, 0x00]).cmd = .command (.unit 3) [] := by decide
  rw [h'] at h
  cases h
  rfl

theorem witness_OnlyLoaduBreaksCanonicalForm : ∃ s t : State, s.Canonical ∧ step s = .next t ∧
    (∀ i rest, decode s.cmd = .command i rest → i.isLoadu = false) :=
  ⟨probe [] [0x10, 0x03, 0x00, 0x00], _, reset_canonical, rfl, fun i rest h => by
    rw [decode_probe_unit h]; rfl⟩

theorem witness_OnlyLoaduAndElementWritesBreakValidity : ∃ s t : State, s.gen.valid = true ∧ s.AllValid ∧
    step s = .next t ∧
    (∀ i rest, decode s.cmd = .command i rest → i.isLoadu = false ∧ i.writesElement = false) :=
  ⟨probe [] [0x10, 0x03, 0x00, 0x00], _, by decide +kernel, reset_valid, rfl, fun i rest h => by
    rw [decode_probe_unit h]; exact ⟨rfl, rfl⟩⟩

theorem witness_RunsWithoutLoaduKeepRegistersGood : ∃ (G : GenPair) (is : List Instr) (t : State),
    runCommands is (State.resetWith G) = .next t ∧ (∀ i ∈ is, i.isLoadu = false) ∧ G.valid = true ∧
    (∀ i ∈ is, i.writesElement = false) ∧ is ≠ [] :=
  ⟨GenPair.default, [.unit 3], _, rfl, by decide, by decide +kernel, by decide, by simp⟩

/-- A reset from a state that is not the reset state. -/
theorem witness_ResetState : ∃ s r : State, s ≠ State.reset ∧
    (r = State.reset ∨ ∃ s : State, r = (s.onHost .assertReset).onHost .releaseReset) :=
  ⟨probe [(3, habc)] [0x30], _, by decide +kernel, .inr ⟨probe [(3, habc)] [0x30], rfl⟩⟩

theorem witness_ResetDropsUnfinishedCommand : ∃ s : State, s.resetIn = true :=
  ⟨State.reset.held, rfl⟩

theorem witness_FmulIsUniqueRemainder : ∃ (a b : Fe) (q : BitVec 126) (r : Fe),
    clmul a b = clmul q reductionPoly ^^^ r.toNat ∧ q ≠ 0 :=
  ⟨2, 1#127 <<< 126, 1, 0x8000000000000001, by decide +kernel, by decide +kernel⟩

theorem witness_TwoFoldsReduce : ∃ p : Nat, p < 2 ^ 253 ∧ 2 ^ 252 ≤ p := ⟨2 ^ 253 - 1, by norm_num, by norm_num⟩

theorem witness_FieldHasInverses : (∃ a b : Fe, fmul a b = 0) ∧ ∃ a : Fe, a ≠ 0 :=
  ⟨⟨0, 3, by decide +kernel⟩, 3, by decide⟩

theorem witness_ElementArithmeticCommands : ∃ s : State, (s.getE 0).getLsbD 127 = false ∧
    (s.getE 3).getLsbD 127 = false ∧ (s.getE 31).getLsbD 127 = false :=
  ⟨State.reset, by decide +kernel, by decide +kernel, by decide +kernel⟩

theorem witness_FeqCommand : ∃ s : State, (s.getE 0).getLsbD 127 = false ∧ (s.getE 1).getLsbD 127 = false ∧
    (s.getE 3).getLsbD 127 = false ∧ s.getE 0 = s.getE 3 ∧ s.getE 0 ≠ s.getE 1 :=
  ⟨State.reset, by decide +kernel, by decide +kernel, by decide +kernel, by decide +kernel, by decide +kernel⟩

theorem witness_MmulCommand : ∃ (s : State) (ma mb : MIdx) (a b c d e f g h : Fe),
    s.getM ma = ⟨0#1 ++ a, 0#1 ++ b, 0#1 ++ c, 0#1 ++ d⟩ ∧
    s.getM mb = ⟨0#1 ++ e, 0#1 ++ f, 0#1 ++ g, 0#1 ++ h⟩ :=
  ⟨probe [(1, ⟨2, 0, 0, 2⟩)] [], 0, 1, 1, 0, 0, 1, 2, 0, 0, 2, by decide +kernel, by decide +kernel⟩

/-- A valid register, one with determinant x, and one that is not canonical. -/
theorem witness_IsvalidAndValidateCommands : ∃ s : State, (s.getM 0).valid = true ∧
    (s.getM 1).valid = false ∧ (s.getM 2).valid = false ∧ (s.getM 2).canon = false :=
  ⟨probe [(1, ⟨1, 0, 0, 2⟩), (2, badIdent)] [], by decide +kernel, by decide +kernel, by decide +kernel,
    by decide +kernel⟩

theorem witness_CompareCommands : ∃ s : State, s.getM 0 = s.getM 7 ∧ s.getM 0 ≠ s.getM 1 ∧
    mcmp (s.getM 0) (s.getM 1) = .lt ∧ mcmp (s.getM 1) (s.getM 0) = .gt :=
  ⟨probe [(1, ⟨1, 0, 0, 2⟩)] [], by decide +kernel, by decide +kernel, by decide +kernel, by decide +kernel⟩

theorem witness_DeterminantIsMultiplicative : ∃ X Y : FMat, X.valid = true ∧ Y.valid = true ∧ X ≠ Y :=
  ⟨⟨2, 1, 1, 0⟩, ⟨2, 3, 1, 1⟩, by decide +kernel, by decide +kernel, by decide⟩

theorem witness_TableEntryIsOrderedProduct : ∃ G : GenPair, G.valid = true ∧ G ≠ GenPair.default :=
  ⟨⟨⟨2, 3, 1, 1⟩, ⟨2, 1, 1, 0⟩⟩, by decide +kernel, by decide⟩

theorem witness_HashAppendPrependCommands : ∃ (s : State) (ms : MIdx) (H : FMat), s.getM ms = H.reg :=
  ⟨State.reset, 7, ident, by decide +kernel⟩

theorem witness_FoldCommands : ∃ (s : State) (ms : MIdx) (H : FMat), s.getM ms = H.reg ∧ H.valid = false :=
  ⟨probe [(7, ⟨2, 0, 0, 2⟩)] [], 7, ⟨2, 0, 0, 2⟩, by decide +kernel, by decide +kernel⟩

theorem witness_ConcatallCommand :
    (∃ regs : List Byte, ∃ b ∈ regs, 7 < b.toNat) ∧
    (∃ (s : State) (rs : List MIdx), ∃ r ∈ rs, (s.getM r).canon = false) ∧
    (∃ (s : State) (rs : List MIdx) (Xs : List FMat), rs.map (fun r => s.getM r) = Xs.map FMat.reg ∧
      rs.length = 2) ∧ ∃ Xs : List FMat, Xs ≠ [] :=
  ⟨⟨[0x08], 0x08, by simp, by decide⟩, ⟨probe [(7, badIdent)] [], [0, 7], 7, by simp, by decide +kernel⟩,
    ⟨State.reset, [0, 7], [ident, ident], by decide +kernel, rfl⟩, [ident], by simp⟩

theorem witness_ArithmeticCommandsCheckRange : ∃ s : State, (s.getE 4).getLsbD 127 = true ∧
    (s.getE 5).getLsbD 127 = false ∧ (s.getM 1).canon = false ∧ (s.getM 0).canon = true ∧
    ∃ r ∈ [(0 : MIdx), 1], (s.getM r).canon = false :=
  ⟨probe [(1, badIdent)] [], by decide +kernel, by decide +kernel, by decide +kernel, by decide +kernel,
    1, by simp, by decide +kernel⟩

theorem runs_next (is : List Instr) (s : State) : ∃ t, runCommands is s = .next t := by
  induction is generalizing s with
  | nil => exact ⟨s, rfl⟩
  | cons i is ih =>
    obtain ⟨t, h, -⟩ := exec_effect s i
    obtain ⟨u, h'⟩ := ih t
    exact ⟨u, by rw [runCommands, h]; exact h'⟩

theorem exec_next (i : Instr) (s : State) : ∃ t, exec i s = .next t :=
  let ⟨t, h, _⟩ := exec_effect s i
  ⟨t, h⟩

theorem witness_CommandSequencesAgree :
    (∃ (s t u : State) (m0 m1 m2 : MIdx), m1 ≠ m0 ∧ (s.getM m0).canon = true ∧
      runCommands [.hash m1 [0x41], .mmul m2 m0 m1] s = .next t ∧ exec (.append m2 m0 [0x41]) s = .next u) ∧
    (∃ (s t u : State) (m0 m1 m2 : MIdx), m1 ≠ m0 ∧ (s.getM m0).canon = true ∧
      runCommands [.hash m1 [0x41], .mmul m2 m1 m0] s = .next t ∧ exec (.prepend m2 m0 [0x41]) s = .next u) ∧
    (∃ (s t u : State) (m0 m1 : MIdx) (cs : List (List Byte)), (s.getM m0).canon = true ∧
      runCommands (.append m1 m0 [0x41] :: cs.map fun c' => .append m1 m1 c') s = .next t ∧
      exec (.foldapp m1 m0 ([0x41] :: cs)) s = .next u) ∧
    (∃ (s t u : State) (m0 m1 : MIdx) (cs : List (List Byte)), (s.getM m0).canon = true ∧
      runCommands (.prepend m1 m0 [0x41] :: cs.reverse.map fun c' => .prepend m1 m1 c') s = .next t ∧
      exec (.foldpre m1 m0 (cs ++ [[0x41]])) s = .next u) ∧
    ∃ (s t u : State) (md : MIdx) (ps : List (List Byte)),
      runCommands (.hash md [0x41] :: ps.map fun p' => .append md md p') s = .next t ∧
      exec (.hash md ([0x41] ++ ps.flatten)) s = .next u := by
  have hc : (State.reset.getM 0).canon = true := reset_canonical 0
  obtain ⟨t₁, h₁⟩ := runs_next [.hash 1 [0x41], .mmul 2 0 1] State.reset
  obtain ⟨u₁, k₁⟩ := exec_next (.append 2 0 [0x41]) State.reset
  obtain ⟨t₂, h₂⟩ := runs_next [.hash 1 [0x41], .mmul 2 1 0] State.reset
  obtain ⟨u₂, k₂⟩ := exec_next (.prepend 2 0 [0x41]) State.reset
  obtain ⟨t₃, h₃⟩ := runs_next (.append 1 0 [0x41] :: [[0x42], []].map fun c' => .append 1 1 c') State.reset
  obtain ⟨u₃, k₃⟩ := exec_next (.foldapp 1 0 ([0x41] :: [[0x42], []])) State.reset
  obtain ⟨t₄, h₄⟩ :=
    runs_next (.prepend 1 0 [0x41] :: [[0x42], []].reverse.map fun c' => .prepend 1 1 c') State.reset
  obtain ⟨u₄, k₄⟩ := exec_next (.foldpre 1 0 ([[0x42], []] ++ [[0x41]])) State.reset
  obtain ⟨t₅, h₅⟩ := runs_next (.hash 1 [0x41] :: [[0x42], []].map fun c' => .append 1 1 c') State.reset
  obtain ⟨u₅, k₅⟩ := exec_next (.hash 1 ([0x41] ++ [[0x42], []].flatten)) State.reset
  exact ⟨⟨_, t₁, u₁, 0, 1, 2, by decide, hc, h₁, k₁⟩, ⟨_, t₂, u₂, 0, 1, 2, by decide, hc, h₂, k₂⟩,
    ⟨_, t₃, u₃, 0, 1, _, hc, h₃, k₃⟩, ⟨_, t₄, u₄, 0, 1, _, hc, h₄, k₄⟩, _, t₅, u₅, 1, _, h₅, k₅⟩

/-- For each width a list of a wrong length and one of the right length, and a valid and an invalid value. -/
theorem witness_PackCommands :
    (∃ ws vs : List (BitVec 8), ws.length = 65 ∧ vs.length = 64) ∧
    (∃ ws vs : List (BitVec 16), ws.length = 31 ∧ vs.length = 32) ∧
    (∃ ws vs : List (BitVec 32), ws.length = 17 ∧ vs.length = 16) ∧
    (∃ ws vs : List (BitVec 64), ws.length = 7 ∧ vs.length = 8) ∧
    (∃ M : Mat, M.valid = true) ∧ ∃ M : Mat, M.valid = false :=
  ⟨⟨List.replicate 65 0, List.replicate 64 0, rfl, rfl⟩, ⟨List.replicate 31 0, List.replicate 32 0, rfl, rfl⟩,
    ⟨List.replicate 17 0, List.replicate 16 0, rfl, rfl⟩, ⟨List.replicate 7 0, List.replicate 8 0, rfl, rfl⟩,
    ⟨identReg, by decide +kernel⟩, badIdent, by decide +kernel⟩

theorem witness_LoaduCommand : (∃ ws : List (BitVec 8), ws.length = 63) ∧
    ∃ ws : List (BitVec 8), ws.length = 64 := ⟨⟨List.replicate 63 0, rfl⟩, List.replicate 64 0, rfl⟩

/-- A text one too long, one with a capital, and the texts of a valid and of an invalid value. -/
theorem witness_ParseCommand : (∃ text : List Byte, text.length = 129) ∧
    (∃ text : List Byte, text.length = 128 ∧ ∃ c ∈ text, ¬ ((0x30 ≤ c.toNat ∧ c.toNat ≤ 0x39) ∨
      (0x61 ≤ c.toNat ∧ c.toNat ≤ 0x66))) ∧
    (∃ (text : List Byte) (M : Mat), text = showText M ∧ M.valid = true) ∧
    ∃ (text : List Byte) (M : Mat), text = showText M ∧ M.valid = false :=
  ⟨⟨List.replicate 129 0x30, rfl⟩, ⟨List.replicate 128 0x41, rfl, 0x41, by simp, by decide⟩,
    ⟨_, identReg, rfl, by decide +kernel⟩, _, badIdent, rfl, by decide +kernel⟩

/-- The bytes and the text of a valid and of an invalid register. -/
theorem witness_CodecRoundTrips : ∀ M ∈ [identReg, badIdent], ∃ (s : State) (ma : MIdx) (F T : List Byte),
    s.resetIn = false ∧ s.getM ma = M ∧
    (∃ t i, i ∈ [Instr.unpack8 ma, .unpack16 ma, .unpack32 ma, .unpack64 ma] ∧ exec i s = .next t ∧
      t.rsp = s.rsp ++ [0x00, 0x40, 0x00] ++ F) ∧
    (∃ t, exec (.showm ma) s = .next t ∧ t.rsp = s.rsp ++ [0x00, 0x80, 0x00] ++ T) ∧
    (∃ u : State, u.resetIn = false ∧ u.cmd = headerBytes (headerP .loadu (matrixCode 1) 0 64) ++ F) ∧
    (∃ u : State, u.resetIn = false ∧ u.cmd = headerBytes (headerP .pack16 (matrixCode 1) 0 32) ++ F) ∧
    ∃ u : State, u.resetIn = false ∧ u.cmd = headerBytes (headerP .parse (matrixCode 1) 0 128) ++ T := by
  intro M _
  refine ⟨probe [(2, M)] [], 2, footprint M, showText M, rfl, ?_, ⟨_, .unpack16 2, by simp, rfl, ?_⟩,
    ⟨_, rfl, ?_⟩, ⟨probe [] _, rfl, rfl⟩, ⟨probe [] _, rfl, rfl⟩, probe [] _, rfl, rfl⟩
  · exact (getM_setM State.reset 2 2 M).trans (if_pos rfl)
  · rw [show (probe [(2, M)] []).getM 2 = M from (getM_setM State.reset 2 2 M).trans (if_pos rfl)]
    simp only [respond_rsp, record_eq, length_footprint]
    rfl
  · rw [show (probe [(2, M)] []).getM 2 = M from (getM_setM State.reset 2 2 M).trans (if_pos rfl)]
    simp only [respond_rsp, record_eq, length_showText]
    rfl

theorem witness_TextFormOfRegister : (63 < 64) ∧ ∃ M N : Mat, showText M = showText N :=
  ⟨by decide, identReg, identReg, rfl⟩

theorem witness_FootprintAndWordViews : (63 < 64) ∧ 64 ∈ [8, 16, 32, 64] := by decide

theorem witness_RdstReadsStatus : ∃ (i : Instr) (s t : State), i ≠ .rdst ∧ exec i s = .next t :=
  ⟨.isvalid 0, State.reset, _, by simp, rfl⟩

end Sys2Proof.Tests
end

namespace Sys2Proof

open Polynomial

/-! ### The field as a quotient ring -/

/-- The residue class modulo P that a field element stands for (R9, R101). -/
noncomputable def residue (a : Fe) : AdjoinRoot polyP := AdjoinRoot.mk polyP (toPoly a.toNat)

@[simp] theorem residue_inj {a b : Fe} : residue a = residue b ↔ a = b := by
  refine ⟨fun h => ?_, fun h => by rw [h]⟩
  obtain ⟨d, hd⟩ := AdjoinRoot.mk_eq_mk.mp h
  exact fe_eq_of_congr (d := d) (by linear_combination hd)

@[simp] theorem residue_zero : residue 0#127 = 0 := by simp [residue, toPoly_zero]

@[simp] theorem residue_one : residue 1#127 = 1 := by simp [residue, toPoly_one]

@[simp] theorem residue_fadd (a b : Fe) : residue (fadd a b) = residue a + residue b := by
  rw [residue, toPoly_fadd, map_add]; rfl

@[simp] theorem residue_fmul (a b : Fe) : residue (fmul a b) = residue a * residue b := by
  obtain ⟨d, h⟩ := toPoly_fmul a b
  rw [residue, residue, residue, ← map_mul, h]
  simp

/-- The residue ring has characteristic 2. -/
theorem two_eq_zero_residue : (2 : AdjoinRoot polyP) = 0 := by
  have h : (2 : ZMod 2) = 0 := by decide
  rw [← map_ofNat (AdjoinRoot.of polyP) 2, h, map_zero]

/-! ### Determinants -/

/-- The determinant is multiplicative (R127). -/
theorem det_mmul (X Y : FMat) : det (mmul X Y) = fmul (det X) (det Y) := by
  rw [← residue_inj]
  simp only [det, mmul_a, mmul_b, mmul_c, mmul_d, residue_fadd, residue_fmul]
  linear_combination (residue X.a * residue X.c * residue Y.a * residue Y.b +
    residue X.b * residue X.d * residue Y.c * residue Y.d) * two_eq_zero_residue

theorem valid_ident : ident.valid = true := by
  rw [FMat.valid_iff, ← residue_inj]
  simp [det]

theorem valid_mmul {X Y : FMat} (hX : X.valid = true) (hY : Y.valid = true) : (mmul X Y).valid = true := by
  rw [FMat.valid_iff] at *
  rw [det_mmul, hX, hY, ← residue_inj]
  simp

theorem valid_foldl_mmul {X : FMat} (hX : X.valid = true) {Ys : List FMat} (hY : ∀ Y ∈ Ys, Y.valid = true) :
    (Ys.foldl mmul X).valid = true := by
  induction Ys generalizing X with
  | nil => exact hX
  | cons Y Ys ih =>
    rw [List.forall_mem_cons] at hY
    exact ih (valid_mmul hX hY.1) hY.2

theorem valid_concatAll {Xs : List FMat} (h : ∀ X ∈ Xs, X.valid = true) : (concatAll Xs).valid = true := by
  cases Xs with
  | nil => rw [concatAll_nil]; exact valid_ident
  | cons X Xs =>
    rw [List.forall_mem_cons] at h
    rw [concatAll_cons]
    exact valid_foldl_mmul h.1 h.2

section
variable {G : GenPair} (hG : G.valid = true)
include hG

theorem valid_GT (v : Byte) : (GT G v).valid = true := by
  have bit := GenPair.valid_bit hG
  rw [GT_eq]
  iterate 7 refine valid_mmul ?_ (bit _)
  exact bit _

theorem valid_appendBytes {H : FMat} (hH : H.valid = true) (s : List Byte) :
    (appendBytes G H s).valid = true := by
  induction s generalizing H with
  | nil => rwa [appendBytes_nil]
  | cons v s ih => rw [appendBytes_cons]; exact ih (valid_mmul hH (valid_GT hG v))

theorem valid_prependBytes {H : FMat} (hH : H.valid = true) (s : List Byte) :
    (prependBytes G s H).valid = true := by
  induction s with
  | nil => rwa [prependBytes_nil]
  | cons v s ih => rw [prependBytes_cons]; exact valid_mmul (valid_GT hG v) ih

theorem valid_hashBytes (s : List Byte) : (hashBytes G s).valid = true := by
  rw [hashBytes]; exact valid_appendBytes hG valid_ident s

theorem valid_foldAppend {H : FMat} (hH : H.valid = true) (cs : List (List Byte)) :
    (foldAppend G H cs).valid = true := by
  induction cs generalizing H with
  | nil => rwa [foldAppend_nil]
  | cons c cs ih => rw [foldAppend_cons]; exact ih (valid_appendBytes hG hH c)

theorem valid_foldPrepend {H : FMat} (hH : H.valid = true) (cs : List (List Byte)) :
    (foldPrepend G cs H).valid = true := by
  induction cs with
  | nil => rwa [foldPrepend_nil]
  | cons c cs ih => rw [foldPrepend_cons]; exact valid_prependBytes hG ih c

end

end Sys2Proof

namespace Sys2Proof.Machine

variable {s s' t : State}

/-! ### What one step can be -/

/-- Everything a step can be: the reset state, a hold, the answer to an illegal header, or one command (R75, R76,
R240). -/
inductive StepTo (s : State) : State → Prop where
  | reset : s.resetIn = true → StepTo s s.held
  | hold : s.resetIn = false → decode s.cmd = .incomplete → StepTo s s
  | illegal (c : IllegalCause) (rest : List Byte) : s.resetIn = false → decode s.cmd = .illegal c rest →
      StepTo s ((s.consume rest).failed Err.illegal.code)
  | command (i : Instr) (rest : List Byte) {t : State} : s.resetIn = false →
      decode s.cmd = .command i rest → exec i (s.consume rest) = .next t → StepTo s t

/-- Every step is one of `StepTo`. -/
theorem step_to (h : step s = .next t) : StepTo s t := by
  cases hr : s.resetIn with
  | true =>
    rw [step_held s hr] at h
    cases h
    exact .reset hr
  | false =>
    cases hd : decode s.cmd with
    | incomplete =>
      rw [step_incomplete s hr hd] at h
      cases h
      exact .hold hr hd
    | illegal c rest =>
      rw [step_illegal s hr hd, raise_eq] at h
      cases h
      exact .illegal c rest hr hd
    | command i rest =>
      rw [step_exec s hr hd] at h
      exact .command i rest hr hd h

/-- The next state of a command is one of `Effect`. -/
theorem effect_of_exec {i : Instr} (h : exec i s = .next t) : Effect s i t := by
  obtain ⟨u, hu, he⟩ := exec_effect s i
  rw [h] at hu
  cases hu
  exact he

/-! ### What the written value is -/

/-- What a command other than LOADU does to the registers: nothing; it writes a canonical value, one that is
valid when the generators and the registers are; or it writes one element. -/
inductive Written (s : State) (i : Instr) : Out → Prop where
  | kept {t : State} : t.m = s.m → Written s i (.next t)
  | matrix (md : MIdx) (v : Mat) : v.canon = true →
      (s.gen.valid = true → s.AllValid → v.valid = true) → Written s i (done [] (s.setM md v))
  | element (ed : EIdx) (x : Fe) : i.writesElement = true → Written s i (done [] (s.setE ed (x.setWidth 128)))

namespace Written

variable {i : Instr}

/-- A command that answers an error writes no register (R216). -/
theorem raise (e : Err) : Written s i (raise e s) := .kept rfl

/-- A checked value is written. -/
theorem checked {md : MIdx} {v : Mat} (hv : v.valid = true) : Written s i (done [] (s.setM md v)) :=
  .matrix md v (Mat.canon_of_valid hv) fun _ _ => hv

/-- A computed matrix is written. -/
theorem computed {md : MIdx} {X : FMat} (hX : s.gen.valid = true → s.AllValid → X.valid = true) :
    Written s i (done [] (s.setM md X.reg)) :=
  .matrix md X.reg (canon_reg X) fun hG hs => by rw [valid_reg]; exact hX hG hs

/-- A canonical source is extended. -/
theorem extend {f : FMat → FMat} {md ms : MIdx}
    (hf : s.gen.valid = true → ∀ H : FMat, H.valid = true → (f H).valid = true) :
    Written s i (extend f md ms s) := by
  rcases extend_cases s f md ms with ⟨H, hH, h⟩ | ⟨-, h⟩
  · rw [h]
    refine computed fun hG hs => hf hG H ?_
    rw [← valid_reg, ← hH]; exact hs ms
  · rw [h]; exact raise _

/-- A checked load writes a valid value or none. -/
theorem pack {w : Nat} {md : MIdx} {ws : List (BitVec w)} : Written s i (pack md ws s) := by
  rcases pack_cases s md ws with ⟨-, h⟩ | ⟨-, -, h⟩ | ⟨-, hv, h⟩
  · rw [h]; exact raise _
  · rw [h]; exact raise _
  · rw [h]; exact checked hv

end Written

/-- A register read as a matrix of field elements is valid when all registers are. -/
theorem State.AllValid.field? (hs : s.AllValid) {ma : MIdx} {X : FMat} (h : s.field? ma = some X) :
    X.valid = true := by
  rw [← valid_reg, ← field?_eq_some.mp h]; exact hs ma

/-- Every command but LOADU writes as `Written` says (R21, R24). -/
theorem exec_written {i : Instr} (hi : i.isLoadu = false) : Written s i (exec i s) := by
  cases i with
  | loadu => simp [Instr.isLoadu] at hi
  | fadd ed ea eb | fmul ed ea eb =>
    simp only [exec, execFadd, execFmul]
    split
    · exact .element ed _ rfl
    · exact .raise _
  | fmuladd ed ea eb ec =>
    simp only [exec, execFmuladd]
    split
    · exact .element ed _ rfl
    · exact .raise _
  | feq ea eb =>
    simp only [exec, execFeq]
    split
    · exact .kept rfl
    · exact .raise _
  | unit md => exact .computed fun _ _ => valid_ident
  | mmul md ma mb =>
    simp only [exec, execMmul]
    split
    · next hX hY => exact .computed fun _ hs => valid_mmul (hs.field? hX) (hs.field? hY)
    · exact .raise _
  | validate md ma =>
    simp only [exec, execValidate]
    split
    · next hv => exact .checked hv
    · exact .raise _
  | bytemat md v => exact .computed fun hG _ => valid_GT hG v
  | hash md msg => exact .computed fun hG _ => valid_hashBytes hG msg
  | append md ms msg => exact .extend fun hG _ hH => valid_appendBytes hG hH msg
  | prepend md ms msg => exact .extend fun hG _ hH => valid_prependBytes hG hH msg
  | foldapp md ms cs => exact .extend fun hG _ hH => valid_foldAppend hG hH cs
  | foldpre md ms cs => exact .extend fun hG _ hH => valid_foldPrepend hG hH cs
  | concatall md regs =>
    rw [exec]
    rcases execConcatall_cases s md regs with ⟨-, h⟩ | ⟨rs, -, ⟨-, h⟩ | ⟨Xs, hX, h⟩⟩
    · rw [h]; exact .raise _
    · rw [h]; exact .raise _
    · rw [h]
      refine .computed fun _ hs => valid_concatAll fun X hm => ?_
      have hm' : X.reg ∈ rs.map fun r => s.getM r := hX ▸ List.mem_map_of_mem hm
      obtain ⟨r, -, hr⟩ := List.mem_map.mp hm'
      rw [← valid_reg, ← hr]; exact hs r
  | parse md text =>
    rw [exec]
    rcases execParse_cases s md text with ⟨-, h⟩ | ⟨M, -, -, h⟩ | ⟨M, -, hv, h⟩
    · rw [h]; exact .raise _
    · rw [h]; exact .raise _
    · rw [h]; exact .checked hv
  | pack8 | pack16 | pack32 | pack64 => exact .pack
  | isvalid | meq | mcmp | unpack8 | unpack16 | unpack32 | unpack64 | showm | rdst => exact .kept rfl

/-! ### Canonical and valid registers -/

/-- The registers are canonical when every element register is (R21, R23). -/
theorem canonical_iff_getE : s.Canonical ↔ ∀ k, Slot.canon (s.getE k) = true := by
  refine ⟨fun h k => canon_iff_slot.mp (h _) _, fun h i => canon_iff_slot.mpr fun j => ?_⟩
  simpa only [State.getE, regOf_eidx, slotOf_eidx] using h (eidx i j)

theorem getM_eq_of_m (h : t.m = s.m) (j : MIdx) : t.getM j = s.getM j := by rw [State.getM, State.getM, h]

theorem Written.canonical {i : Instr} {o : Out} (hw : Written s i o) (hs : s.Canonical) (h : o = .next t) :
    t.Canonical := by
  cases hw with
  | kept hm =>
    cases h
    exact fun j => by rw [getM_eq_of_m hm]; exact hs j
  | matrix md v hv =>
    cases h
    intro j
    rw [respond_getM, getM_setM]
    split
    · exact hv
    · exact hs j
  | element ed x =>
    cases h
    rw [canonical_iff_getE] at *
    intro k
    rw [respond_getE, getE_setE]
    split
    · exact canon_setWidth x
    · exact hs k

theorem Written.allValid {i : Instr} {o : Out} (hw : Written s i o) (hi : i.writesElement = false)
    (hG : s.gen.valid = true) (hs : s.AllValid) (h : o = .next t) : t.AllValid := by
  cases hw with
  | kept hm =>
    cases h
    exact fun j => by rw [getM_eq_of_m hm]; exact hs j
  | matrix md v _ hv =>
    cases h
    intro j
    rw [respond_getM, getM_setM]
    split
    · exact hv hG hs
    · exact hs j
  | element ed x he => rw [hi] at he; cases he

theorem reg_ident : ident.reg = identReg := by decide

theorem valid_identReg : identReg.valid = true := by rw [← reg_ident, valid_reg]; exact valid_ident

theorem canonical_resetWith (G : GenPair) : (State.resetWith G).Canonical := fun i => by
  rw [resetWith_getM, ← reg_ident]; exact canon_reg ident

theorem allValid_resetWith (G : GenPair) : (State.resetWith G).AllValid := fun i => by
  rw [resetWith_getM]; exact valid_identReg

theorem sound_resetWith (G : GenPair) : (State.resetWith G).Sound := ⟨isCode_codeOk, .none⟩

/-- Settles O20: reset makes every register the identity, an error writes none, and a command other than LOADU
writes a canonical value. -/
theorem onlyLoaduBreaksCanonicalForm : Obligations.OnlyLoaduBreaksCanonicalForm := by
  intro s t hs h hi
  cases step_to h with
  | reset => exact canonical_resetWith s.gen
  | hold => exact hs
  | illegal => exact hs
  | command i rest _ hd he => exact (exec_written (s := s.consume rest) (hi i rest hd)).canonical hs he

/-- Settles O21: a whole register is written by a command other than LOADU with a product of valid matrices or a
checked value. -/
theorem onlyLoaduAndElementWritesBreakValidity : Obligations.OnlyLoaduAndElementWritesBreakValidity := by
  intro s t hG hs h hi
  cases step_to h with
  | reset => exact allValid_resetWith s.gen
  | hold => exact hs
  | illegal => exact hs
  | command i rest _ hd he =>
    obtain ⟨hl, hw⟩ := hi i rest hd
    exact (exec_written (s := s.consume rest) hl).allValid hw hG hs he

/-! ### What a command leaves unchanged -/

/-- An element register the command may not write keeps its value (R22, R23). -/
theorem Effect.getE_eq {i : Instr} {k : EIdx} (h : Effect s i t) (hk : ¬ i.MayWrite k) :
    t.getE k = s.getE k := by
  cases h with
  | failed | status | answered => rfl
  | register md v _ _ _ hw =>
    rw [respond_getE, getE_setM, if_neg fun hmd => hk (.inr (by rw [hw, hmd]))]
  | slot ed v _ _ _ hw =>
    rw [respond_getE, getE_setE, if_neg fun hed => hk (.inl (by rw [hw, hed]))]

/-- Settles O16: the frame of `Effect`, which says what a command may write. -/
theorem registersOutsideDestinationKept : Obligations.RegistersOutsideDestinationKept :=
  fun _ _ _ _ h hk => (effect_of_exec h).getE_eq hk

/-- A command that changes `ST.T` is a predicate that answers OK (R27). -/
theorem Effect.flag_changed {i : Instr} (h : Effect s i t) (ht : t.st.t ≠ s.st.t) :
    t.st.code = codeOk ∧ i.isPredicate = true := by
  cases h with
  | failed | status | register | slot => exact absurd rfl ht
  | answered flag data _ _ hf =>
    refine ⟨rfl, ?_⟩
    cases hp : i.isPredicate with
    | true => rfl
    | false => exact absurd (hf hp) ht

/-! ### Two runs of one command -/

/-- The outcomes of one command run from `s` and from `s'` are the same answer and the same write, each on its own
state. -/
inductive SameResult (i : Instr) (s s' : State) : Out → Out → Prop where
  | failed (e : Err) : SameResult i s s' (raise e s) (raise e s')
  | answered (data : List Byte) : i.isPredicate = false → SameResult i s s' (done data s) (done data s')
  | flagged (b : Bool) (data : List Byte) : SameResult i s s' (doneFlag b data s) (doneFlag b data s')
  | register (md : MIdx) (v : Mat) : i.isPredicate = false →
      SameResult i s s' (done [] (s.setM md v)) (done [] (s'.setM md v))
  | slot (ed : EIdx) (v : Slot) : i.isPredicate = false →
      SameResult i s s' (done [] (s.setE ed v)) (done [] (s'.setE ed v))

section
variable {i : Instr}

theorem fe?_congr {k : EIdx} (h : s'.getM (regOf k) = s.getM (regOf k)) : s'.fe? k = s.fe? k := by
  rw [State.fe?, State.fe?, State.getE, State.getE, h]

theorem field?_congr {r : MIdx} (h : s'.getM r = s.getM r) : s'.field? r = s.field? r := by
  rw [State.field?, State.field?, h]

theorem SameResult.extend (hp : i.isPredicate = false) (f : FMat → FMat) (md : MIdx) {ms : MIdx}
    (h : s'.getM ms = s.getM ms) : SameResult i s s' (extend f md ms s) (extend f md ms s') := by
  simp only [Machine.extend, field?_congr h]
  split
  · exact .register md _ hp
  · exact .failed _

theorem SameResult.pack (hp : i.isPredicate = false) {w : Nat} (md : MIdx) (ws : List (BitVec w)) :
    SameResult i s s' (pack md ws s) (pack md ws s') := by
  simp only [Machine.pack]
  split
  · split
    · exact .register md _ hp
    · exact .failed _
  · exact .failed _

/-- R22, R13: a command's answer and what it writes depend on the generators and on the registers it reads. -/
theorem exec_sameResult (hi : i ≠ .rdst) (hg : s'.gen = s.gen) (hr : ∀ r ∈ i.reads, s'.getM r = s.getM r) :
    SameResult i s s' (exec i s) (exec i s') := by
  cases i with
  | rdst => exact absurd rfl hi
  | fadd ed ea eb | fmul ed ea eb =>
    simp only [exec, execFadd, execFmul, fe?_congr (hr (regOf ea) (by simp [Instr.reads])),
      fe?_congr (hr (regOf eb) (by simp [Instr.reads]))]
    split
    · exact .slot ed _ rfl
    · exact .failed _
  | fmuladd ed ea eb ec =>
    simp only [exec, execFmuladd, fe?_congr (hr (regOf ea) (by simp [Instr.reads])),
      fe?_congr (hr (regOf eb) (by simp [Instr.reads])), fe?_congr (hr (regOf ec) (by simp [Instr.reads]))]
    split
    · exact .slot ed _ rfl
    · exact .failed _
  | feq ea eb =>
    simp only [exec, execFeq, fe?_congr (hr (regOf ea) (by simp [Instr.reads])),
      fe?_congr (hr (regOf eb) (by simp [Instr.reads]))]
    split
    · exact .flagged _ _
    · exact .failed _
  | unit md => exact .register md _ rfl
  | mmul md ma mb =>
    simp only [exec, execMmul, field?_congr (hr ma (by simp [Instr.reads])),
      field?_congr (hr mb (by simp [Instr.reads]))]
    split
    · exact .register md _ rfl
    · exact .failed _
  | isvalid ma =>
    simp only [exec, execIsvalid, hr ma (by simp [Instr.reads])]
    exact .flagged _ _
  | validate md ma =>
    simp only [exec, execValidate, hr ma (by simp [Instr.reads])]
    split
    · exact .register md _ rfl
    · exact .failed _
  | meq ma mb =>
    simp only [exec, execMeq, hr ma (by simp [Instr.reads]), hr mb (by simp [Instr.reads])]
    exact .flagged _ _
  | mcmp ma mb =>
    simp only [exec, execMcmp, hr ma (by simp [Instr.reads]), hr mb (by simp [Instr.reads])]
    exact .flagged _ _
  | bytemat md v =>
    simp only [exec, execBytemat, hg]
    exact .register md _ rfl
  | hash md msg =>
    simp only [exec, execHash, hg]
    exact .register md _ rfl
  | append md ms | prepend md ms | foldapp md ms | foldpre md ms =>
    simp only [exec, execAppend, execPrepend, execFoldapp, execFoldpre, hg]
    exact .extend rfl _ md (hr ms (by simp [Instr.reads]))
  | concatall md regs =>
    simp only [exec, execConcatall]
    split
    · exact .failed _
    · next rs hrs =>
      have hmem : (Instr.concatall md regs).reads = rs := by
        have h := congrArg (List.filterMap id) (allSome_eq_some.mp hrs)
        simpa [Instr.reads, List.filterMap_map] using h
      have : rs.map s'.field? = rs.map s.field? :=
        List.map_congr_left fun r hm => field?_congr (hr r (hmem ▸ hm))
      rw [this]
      split
      · exact .failed _
      · exact .register md _ rfl
  | pack8 md ws | pack16 md ws | pack32 md ws | pack64 md ws => exact .pack rfl md ws
  | unpack8 ma | unpack16 ma | unpack32 ma | unpack64 ma =>
    simp only [exec, execUnpack8, execUnpack16, execUnpack32, execUnpack64, unpack,
      hr ma (by simp [Instr.reads])]
    exact .answered _ rfl
  | showm ma =>
    simp only [exec, execShow, hr ma (by simp [Instr.reads])]
    exact .answered _ rfl
  | parse md text =>
    simp only [exec, execParse]
    split
    · exact .failed _
    · split
      · exact .register md _ rfl
      · exact .failed _
  | loadu md ws =>
    simp only [exec, execLoadu]
    split
    · exact .register md _ rfl
    · exact .failed _

/-- Two runs with the same result answer the same bytes with the same code, and each register holds the same value
after both or is as it was before both. -/
theorem SameResult.agree {o o' : Out} (hres : SameResult i s s' o o') (h : o = .next t) :
    ∃ t' bytes, o' = .next t' ∧ t.rsp = s.rsp ++ bytes ∧ t'.rsp = s'.rsp ++ bytes ∧
      t'.st.code = t.st.code ∧ (i.isPredicate = true → t.st.code = codeOk → t'.st.t = t.st.t) ∧
      ∀ k, t'.getE k = t.getE k ∨ (t'.getE k = s'.getE k ∧ t.getE k = s.getE k) := by
  cases hres with
  | failed e =>
    cases h
    exact ⟨_, _, rfl, rfl, rfl, rfl, fun _ hc => absurd hc (Err.isCode e).2, fun _ => .inr ⟨rfl, rfl⟩⟩
  | answered data hp =>
    cases h
    exact ⟨_, _, rfl, rfl, rfl, rfl, fun hp' => absurd hp' (Bool.eq_false_iff.mp hp),
      fun _ => .inr ⟨rfl, rfl⟩⟩
  | flagged b data =>
    cases h
    exact ⟨_, _, rfl, rfl, rfl, rfl, fun _ _ => rfl, fun _ => .inr ⟨rfl, rfl⟩⟩
  | register md v hp =>
    cases h
    refine ⟨_, _, rfl, rfl, rfl, rfl, fun hp' => absurd hp' (Bool.eq_false_iff.mp hp), fun k => ?_⟩
    simp only [respond_getE, getE_setM]
    split
    · exact .inl rfl
    · exact .inr ⟨rfl, rfl⟩
  | slot ed v hp =>
    cases h
    refine ⟨_, _, rfl, rfl, rfl, rfl, fun hp' => absurd hp' (Bool.eq_false_iff.mp hp), fun k => ?_⟩
    simp only [respond_getE, getE_setE]
    split
    · exact .inl rfl
    · exact .inr ⟨rfl, rfl⟩

/-- Two runs with the same result, from states that differ in `ST.T` alone, differ afterwards in `ST.T` at most. -/
theorem SameResult.eq_of_flag {b : Bool} {o o' : Out}
    (hres : SameResult i s { s with st := { s.st with t := b } } o o') (h : o = .next t) :
    ∃ t', o' = .next t' ∧ t = { t' with st := { t'.st with t := t.st.t } } := by
  cases hres with
  | failed | answered | flagged | register | slot => cases h; exact ⟨_, rfl, rfl⟩

end

/-- Settles O17: both runs have the same result. -/
theorem resultDependsOnlyOnRegistersRead : Obligations.ResultDependsOnlyOnRegistersRead := by
  intro i s s' t hi hg hr h
  obtain ⟨t', bytes, h', hrsp, hrsp', hcode, hflag, hreg⟩ := (exec_sameResult hi hg hr).agree h
  exact ⟨t', bytes, h', hrsp, hrsp', hcode, hflag, fun k _ => hreg k⟩

/-! ### The predicates -/

/-- What a predicate leaves: its truth value in `ST.T`, and one record with its data byte (R27). -/
theorem doneFlag_next {b : Bool} {d : Byte} (h : doneFlag b [d] s = .next t) :
    t.st.t = b ∧ t.rsp = s.rsp ++ [0x00#8, 0x01#8, 0x00#8, d] := by
  cases h
  exact ⟨rfl, by simp [record_eq, codeOk]⟩

theorem fe?_eq_some {k : EIdx} {x : Fe} (h : s.fe? k = some x) : s.getE k = x.setWidth 128 := by
  rw [State.fe?] at h
  cases hc : (s.getE k).getLsbD 127 with
  | true => rw [Slot.fe?_of_not_canon hc] at h; cases h
  | false =>
    rw [Slot.fe?_of_canon hc, Option.some_inj] at h
    rw [← h, setWidth_setWidth_slot hc]

theorem setWidth_fe_inj {x y : Fe} : x.setWidth 128 = y.setWidth 128 ↔ x = y := by
  refine ⟨fun h => ?_, fun h => by rw [h]⟩
  rw [← setWidth_setWidth_fe x, h, setWidth_setWidth_fe]

theorem exec_feq {ea eb : EIdx} (h : exec (.feq ea eb) s = .next t) (hc : t.st.code = codeOk) :
    (t.st.t = true ↔ s.getE ea = s.getE eb) ∧
      t.rsp = s.rsp ++ [0x00#8, 0x01#8, 0x00#8, truthByte t.st.t] := by
  rw [exec, execFeq] at h
  split at h
  · next a b ha hb =>
    obtain ⟨ht, hrsp⟩ := doneFlag_next h
    rw [hrsp, ht, fe?_eq_some ha, fe?_eq_some hb, setWidth_fe_inj]
    exact ⟨by simp [feq], rfl⟩
  · cases h
    exact absurd hc (Err.isCode .range).2

theorem mcmp_order_ne_eq (x y : Slot) : mcmp.order x y ≠ .eq := by
  rw [mcmp.order]
  split <;> simp

/-- Two registers compare equal when their values are equal (R125). -/
theorem mcmp_eq_iff {M N : Mat} : mcmp M N = .eq ↔ M = N := by
  constructor
  · intro h
    rw [mcmp] at h
    split at h
    · exact absurd h (mcmp_order_ne_eq _ _)
    split at h
    · exact absurd h (mcmp_order_ne_eq _ _)
    split at h
    · exact absurd h (mcmp_order_ne_eq _ _)
    split at h
    · exact absurd h (mcmp_order_ne_eq _ _)
    cases M
    cases N
    simp_all
  · rintro rfl
    simp [mcmp]

theorem orderFlag_iff (o : Ordering) : orderFlag o = true ↔ o = .eq := by cases o <;> decide

theorem orderByte_eq_zero_iff (o : Ordering) : orderByte o = 0x00#8 ↔ orderFlag o = true := by
  cases o <;> decide

/-- Settles O15: the flag's writers from `Effect`, the four predicates one by one, and no other reader, since two
runs that differ in `ST.T` alone have the same result. -/
theorem truthFlagWritersAndReader : Obligations.TruthFlagWritersAndReader := by
  refine ⟨?_, fun s t ea eb h hc => exec_feq h hc, ?_, ?_, ?_, ?_⟩
  · intro s t hr h ht
    cases step_to h with
    | reset hr' => rw [hr] at hr'; cases hr'
    | hold | illegal => exact absurd rfl ht
    | command i rest _ hd he =>
      obtain ⟨hc, hp⟩ := (effect_of_exec he).flag_changed ht
      exact ⟨hc, i, rest, hd, hp⟩
  · intro s t ma h
    obtain ⟨ht, hrsp⟩ := doneFlag_next h
    rw [hrsp, ht]
    exact ⟨rfl, rfl⟩
  · intro s t ma mb h
    obtain ⟨ht, hrsp⟩ := doneFlag_next h
    rw [hrsp, ht]
    exact ⟨by simp [meq], rfl⟩
  · intro s t ma mb h
    obtain ⟨ht, hrsp⟩ := doneFlag_next h
    rw [ht, orderFlag_iff, mcmp_eq_iff]
    exact ⟨Iff.rfl, _, hrsp, by rw [orderByte_eq_zero_iff, orderFlag_iff, mcmp_eq_iff]⟩
  · intro i s t b hi h
    have hres : SameResult i s { s with st := { s.st with t := b } } _ _ := exec_sameResult hi rfl fun _ _ => rfl
    exact hres.eq_of_flag h

/-! ### Runs from reset -/

theorem exec_gen {i : Instr} (h : exec i s = .next t) : t.gen = s.gen := (effect_of_exec h).gen_eq

/-- A run goes on after its first command. -/
theorem runCommands_cons {i : Instr} {is : List Instr} (h : runCommands (i :: is) s = .next t) :
    ∃ u, exec i s = .next u ∧ runCommands is u = .next t := by
  obtain ⟨u, hu, -⟩ := exec_effect s i
  rw [runCommands, hu] at h
  exact ⟨u, hu, h⟩

/-- What every command of a run keeps, the run keeps. -/
theorem runCommands_keeps {P : State → Prop} {is : List Instr}
    (hstep : ∀ i ∈ is, ∀ s t, P s → exec i s = .next t → P t) (hs : P s) (h : runCommands is s = .next t) :
    P t := by
  induction is generalizing s with
  | nil => cases h; exact hs
  | cons i is ih =>
    obtain ⟨u, hu, ht⟩ := runCommands_cons h
    rw [List.forall_mem_cons] at hstep
    exact ih hstep.2 (hstep.1 s u hs hu) ht

/-- Settles O23: each command keeps canonical registers; and each keeps the generators with valid registers. -/
theorem runsWithoutLoaduKeepRegistersGood : Obligations.RunsWithoutLoaduKeepRegistersGood := by
  intro G is t h hl
  refine ⟨?_, fun hG he => ?_⟩
  · exact runCommands_keeps (fun i hi s t hs hx => (exec_written (hl i hi)).canonical hs hx)
      (canonical_resetWith G) h
  · have keeps : ∀ i ∈ is, ∀ s t, s.gen.valid = true ∧ s.AllValid → exec i s = .next t →
        t.gen.valid = true ∧ t.AllValid := by
      rintro i hi s t ⟨hg, hs⟩ hx
      exact ⟨by rwa [exec_gen hx], (exec_written (hl i hi)).allValid (he i hi) hg hs hx⟩
    rw [← resetWith_gen G] at hG
    exact (runCommands_keeps keeps ⟨hG, allValid_resetWith G⟩ h).2

/-- Settles O18, by the cases of a step and of a host event. -/
theorem constantsAndHostReach : Obligations.ConstantsAndHostReach := by
  refine ⟨fun s t h => ?_, fun s e => ?_⟩
  · cases step_to h with
    | reset | hold | illegal => rfl
    | command i rest _ _ he => exact exec_gen (s := s.consume rest) he
  · cases e with
    | send bytes =>
      rw [State.onHost]
      split <;> exact ⟨rfl, fun _ => ⟨rfl, rfl⟩⟩
    | read n => exact ⟨rfl, fun _ => ⟨rfl, rfl⟩⟩
    | assertReset => exact ⟨rfl, fun h => absurd rfl h⟩
    | releaseReset => exact ⟨rfl, fun _ => ⟨rfl, rfl⟩⟩

/-- The default pair of R144 is valid. -/
theorem valid_default : GenPair.default.valid = true := by decide +kernel

/-- Settles O22: after reset every register is the identity, whose determinant is 1. -/
theorem invariantsHoldAtReset : Obligations.InvariantsHoldAtReset := by
  have good (G : GenPair) :
      (State.resetWith G).Sound ∧ (State.resetWith G).Canonical ∧ (State.resetWith G).AllValid :=
    ⟨sound_resetWith G, canonical_resetWith G, allValid_resetWith G⟩
  obtain ⟨hs, hc, hv⟩ := good GenPair.default
  exact ⟨good, hs, hc, hv, valid_default⟩

/-! ### Reset -/

/-- Asserting and releasing the reset input gives the reset state of R31, with the same generators (R240, R28). -/
theorem onHost_reset (s : State) : (s.onHost .assertReset).onHost .releaseReset = State.resetWith s.gen := rfl

theorem bits_identReg : identReg.bits = (1#512 ||| (1#512 <<< 384)) := by decide +kernel

theorem slot_identReg (k : EIdx) :
    identReg.slot (slotOf k) = if k.val % 4 = 0 ∨ k.val % 4 = 3 then 1#128 else 0#128 := by
  decide +revert

/-- Settles O24: asserting and releasing reset is `State.resetWith`. -/
theorem resetState : Obligations.ResetState := by
  refine ⟨fun r hr => ?_, fun s => by rw [onHost_reset, resetWith_gen]⟩
  obtain ⟨G, rfl⟩ : ∃ G, r = State.resetWith G := by
    rcases hr with rfl | ⟨s, rfl⟩
    · exact ⟨GenPair.default, rfl⟩
    · exact ⟨s.gen, onHost_reset s⟩
  refine ⟨fun i => ?_, fun k => ?_, rfl, by rw [resetWith_st]; decide, rfl, rfl, rfl⟩
  · rw [resetWith_getM]
    exact ⟨rfl, bits_identReg⟩
  · rw [State.getE, resetWith_getM, slot_identReg]

end Sys2Proof.Machine

namespace Sys2Proof

/-! ### Words and bytes -/

/-- The digits of a number are the low ones, followed by those of what is left above them. -/
theorem leDigits_add (w m n v : Nat) :
    leDigits w (m + n) v = leDigits w m v ++ leDigits w n (v / 2 ^ (w * m)) := by
  induction m generalizing v with
  | zero => simp [leDigits]
  | succ m ih =>
    rw [Nat.succ_add, leDigits, leDigits, ih, List.cons_append, Nat.div_div_eq_div_mul, ← Nat.pow_add,
      Nat.mul_succ, Nat.add_comm w]

/-- The first digits of a number do not depend on what lies above them. -/
theorem leDigits_mod (w n v : Nat) : leDigits w n (v % 2 ^ (w * n)) = leDigits w n v := by
  simpa only [length_leDigits, leNat_leDigits] using leDigits_leNat (leDigits w n v)

/-- R53: the words of a number, each written in bytes, are the bytes of the number. -/
theorem wordBytes_leDigits {w k : Nat} (hw : 8 * k = w) (n v : Nat) :
    wordBytes k (leDigits w n v) = leDigits 8 (k * n) v := by
  subst hw
  induction n generalizing v with
  | zero => rfl
  | succ n ih =>
    calc wordBytes k (leDigits (8 * k) (n + 1) v)
        = leDigits 8 k (v % 2 ^ (8 * k)) ++ wordBytes k (leDigits (8 * k) n (v / 2 ^ (8 * k))) := by
          rw [leDigits, wordBytes, List.flatMap_cons, BitVec.toNat_ofNat]; rfl
      _ = leDigits 8 (k * (n + 1)) v := by
          rw [leDigits_mod, ih, Nat.mul_succ, Nat.add_comm (k * n), leDigits_add]

/-- R53: when `n` words of `k` bytes make a register, they are its footprint. -/
theorem wordBytes_extractLsb' {w k n : Nat} (hw : 8 * k = w) (hn : k * n = 64) (M : Mat) :
    wordBytes k ((List.range n).map fun j => M.bits.extractLsb' (w * j) w) = footprint M := by
  simp only [extractLsb'_eq_ofNat, ← leDigits_eq_map, wordBytes_leDigits hw, hn]
  rfl

/-- R52: byte k of the footprint is bits `8k+7..8k`. -/
theorem getElem?_footprint (M : Mat) {k : Nat} (hk : k < 64) :
    (footprint M)[k]? = some (M.bits.extractLsb' (8 * k) 8) := by
  rw [extractLsb'_eq_ofNat]
  exact getElem?_leDigits 8 footBytes _ k hk

/-- Settles O59: a register and its bits determine each other, and words and bytes are digits of one number. -/
theorem footprintAndWordViews : Obligations.FootprintAndWordViews := by
  refine ⟨fun M => ?_, by decide⟩
  obtain ⟨ha, hb, hc, hd⟩ := (Mat.mk.injEq ..).mp (ofBits_bits M)
  refine ⟨ha, hb, hc, hd, Machine.length_footprint M, fun _ hk => getElem?_footprint M hk, ?_⟩
  simp only [List.forall_mem_cons, List.not_mem_nil, false_implies, implies_true, and_true]
  exact ⟨wordBytes_extractLsb' rfl rfl M, wordBytes_extractLsb' rfl rfl M, wordBytes_extractLsb' rfl rfl M,
    wordBytes_extractLsb' rfl rfl M⟩

/-! ### Reading back an encoding -/

theorem opField_header (i : Instr) : opField i.header = i.opcode.code := by
  cases i <;> simp only [Instr.header, Instr.opcode, opField_headerR, opField_headerP, opField_headerI]

/-- A count that fits the `LEN` field is read back from it (R72). -/
theorem lenField_headerP_of_le (o : Opcode) (a b : BitVec 5) {n : Nat} (h : n ≤ 16383) :
    lenField (headerP o a b n) = n := by
  rw [lenField_headerP, Nat.mod_eq_of_lt (by omega)]

section
variable (o : Opcode) (i j : MIdx) (n : Nat)

@[simp] theorem sourceOnly_headerR : sourceOnly (headerR o 0#5 (matrixCode i) 0#5 0#5) = .ok i := by
  simp [sourceOnly_eq_ok]

@[simp] theorem twoSources_headerR :
    twoSources (headerR o 0#5 (matrixCode i) (matrixCode j) 0#5) = .ok (i, j) := by
  simp [twoSources_eq_ok]

@[simp] theorem destOnly_headerP : destOnly (headerP o (matrixCode i) 0#5 n) = .ok i := by
  simp [destOnly_eq_ok]

@[simp] theorem destSource_headerP : destSource (headerP o (matrixCode i) (matrixCode j) n) = .ok (i, j) := by
  simp [destSource_eq_ok]

end

theorem except_ok_bind {ε α β : Type} (a : α) (f : α → Except ε β) : (Except.ok a >>= f) = f a := rfl

/-- The decoder's body reads a command back from its own header and payload. -/
theorem decodeBody_header (i : Instr) (rest : List Byte) (hw : i.wellFormed = true) :
    decodeBody i.opcode i.header (i.payload ++ rest) = .command i rest := by
  cases i with
  | fadd | fmul | fmuladd | feq | unit | mmul | isvalid | validate | meq | mcmp | bytemat | unpack8 | unpack16
  | unpack32 | unpack64 | showm | rdst =>
    simp [Instr.opcode, Instr.header, Instr.payload, decodeBody, noPayload_eq_command,
      except_ok_bind]
  | hash | concatall | parse | append | prepend =>
    simp only [Instr.wellFormed, lenFits_eq_true] at hw
    simp [Instr.opcode, Instr.header, Instr.payload, decodeBody, withPayload_eq_command,
      -lenField_headerP, lenField_headerP_of_le _ _ _ hw]
  | foldapp | foldpre =>
    simp only [Instr.wellFormed, Bool.and_eq_true, lenFits_eq_true, chunksFit_eq_true] at hw
    simp [Instr.opcode, Instr.header, Instr.payload, decodeBody, withPayload_eq_command,
      -lenField_headerP, lenField_headerP_of_le _ _ _ hw.1, takeChunks_chunkBytes _ hw.2]
  | pack8 | pack16 | pack32 | pack64 | loadu =>
    simp only [Instr.wellFormed, lenFits_eq_true] at hw
    simp [Instr.opcode, Instr.header, Instr.payload, decodeBody, withPayload_eq_command,
      -lenField_headerP, lenField_headerP_of_le _ _ _ hw, takeWords_wordBytes]

/-- R70 to R74: a command that has an encoding is read back from it. -/
theorem decode_encode_append (i : Instr) (rest : List Byte) (hw : i.wellFormed = true) :
    decode (encode i ++ rest) = .command i rest := by
  rw [encode, List.append_assoc, decode_headerBytes _ _ (opField_header i), decodeBody_header i rest hw]

/-! ### How much of a stream the decoder consumes -/

/-- The bytes after the command in front of a stream, legal or not; none while it is incomplete (R75, R76). -/
def Decoded.rest? : Decoded → Option (List Byte)
  | .incomplete => none
  | .illegal _ rest => some rest
  | .command _ rest => some rest

/-- The bytes after the next `n`; none while fewer have arrived. -/
def drop? (n : Nat) (bs : List Byte) : Option (List Byte) := if n ≤ bs.length then some (bs.drop n) else none

theorem drop?_zero (bs : List Byte) : drop? 0 bs = some bs := by simp [drop?]

@[simp] theorem rest?_noPayload (legal : Except IllegalCause Instr) (tail : List Byte) :
    (noPayload legal tail).rest? = some tail := by
  cases legal <;> rfl

@[simp] theorem rest?_withPayload {α : Type} (taken : Option (α × List Byte))
    (legal : α → Except IllegalCause Instr) : (withPayload taken legal).rest? = taken.map Prod.snd := by
  cases taken with
  | none => rfl
  | some p => exact rest?_noPayload (legal p.1) p.2

theorem takeBytes_rest (n : Nat) (bs : List Byte) : (takeBytes n bs).map Prod.snd = drop? n bs := by
  rw [drop?]
  split
  · next h => rw [takeBytes_of_le h]; rfl
  · next h => rw [(takeBytes_eq_none n bs).mpr (by omega)]; rfl

theorem takeWords_rest (w k n : Nat) (bs : List Byte) :
    (takeWords w k n bs).map Prod.snd = drop? (k * n) bs := by
  rw [drop?]
  split
  · next h =>
    obtain ⟨ws, hws⟩ := takeWords_of_le (w := w) bs h
    rw [hws]; rfl
  · next h => rw [takeWords_none bs (by omega)]; rfl

theorem takeChunks_rest (n : Nat) (bs : List Byte) :
    (takeChunks n bs).map Prod.snd = (foldPayloadLength n bs).bind (drop? · bs) := by
  rcases takeChunks_cases n bs with ⟨m, cs, hm, hle, ht⟩ | ⟨ht, hm⟩
  · simp [ht, hm, drop?, hle]
  · rw [ht]
    cases hf : foldPayloadLength n bs with
    | none => rfl
    | some m => simp [drop?, hm m hf]

/-- R74, R75: whether the command is legal or not, the decoder consumes the payload its length asks for. -/
theorem rest?_decodeBody {w : BitVec 32} {o : Opcode} (ho : Opcode.ofByte (opField w) = some o)
    (tail : List Byte) : (decodeBody o w tail).rest? = (payloadLength w tail).bind (drop? · tail) := by
  cases o <;> simp only [payloadLength, ho, decodeBody, rest?_noPayload, rest?_withPayload, takeBytes_rest,
    takeWords_rest, takeChunks_rest, Option.bind_some, drop?_zero, Nat.one_mul]

/-- R74, R75: what is left of a stream after the command in front of it. -/
theorem rest?_decode (b0 b1 b2 b3 : Byte) (tail : List Byte) : (decode (b0 :: b1 :: b2 :: b3 :: tail)).rest? =
    (payloadLength (headerWord b0 b1 b2 b3) tail).bind (drop? · tail) := by
  rw [decode]
  cases ho : Opcode.ofByte (opField (headerWord b0 b1 b2 b3)) with
  | none => simp only [payloadLength, ho, Option.bind_some, drop?_zero, Decoded.rest?]
  | some o => exact rest?_decodeBody ho tail

namespace Machine

/-- The decoder holds on no stream that begins with a whole command (R76). -/
theorem Complete.decode_ne_incomplete {bs : List Byte} (h : Complete bs) : decode bs ≠ .incomplete := by
  obtain ⟨b0, b1, b2, b3, tail, n, rfl, hp, hn⟩ := h
  intro hd
  have hr := rest?_decode b0 b1 b2 b3 tail
  simp [hd, Decoded.rest?, hp, drop?, hn] at hr

variable {s t : State}

/-! ### One record per command -/

/-- R54: a command answers one record, with data only when the code is OK, and then as much as the command's row
says. -/
theorem Effect.exists_record {i : Instr} (h : Effect s i t) : ∃ code data, t.rsp = s.rsp ++ record code data ∧
    IsCode code ∧ (code = codeOk → data.length = i.dataLength) ∧ (code ≠ codeOk → data = []) := by
  cases h with
  | failed e => exact ⟨e.code, [], rfl, (Err.isCode e).1, fun h => absurd h (Err.isCode e).2, fun _ => rfl⟩
  | status hi => exact ⟨codeOk, _, rfl, isCode_codeOk, fun _ => by subst hi; rfl, fun h => absurd rfl h⟩
  | answered _ data _ hl => exact ⟨codeOk, data, rfl, isCode_codeOk, fun _ => hl, fun h => absurd rfl h⟩
  | register _ _ _ hl | slot _ _ _ hl =>
    exact ⟨codeOk, [], rfl, isCode_codeOk, fun _ => hl.symm, fun h => absurd rfl h⟩

/-- Settles O13: a whole command is an illegal one, answered by `raise`, or has one of the effects of `Effect`. -/
theorem oneResponseRecordPerCommand : Obligations.OneResponseRecordPerCommand := by
  intro s hr hc
  cases hd : decode s.cmd with
  | incomplete => exact absurd hd hc.decode_ne_incomplete
  | illegal c rest =>
    obtain ⟨hcode, hne⟩ := Err.isCode .illegal
    exact ⟨_, Err.illegal.code, [], step_illegal s hr hd, rfl, fun h => absurd h hne, fun _ => ⟨hcode, rfl⟩⟩
  | command i rest =>
    obtain ⟨t, ht, he⟩ := exec_effect (s.consume rest) i
    obtain ⟨code, data, hrsp, hcode, hok, herr⟩ := he.exists_record
    exact ⟨t, code, data, (step_exec s hr hd).trans ht, hrsp, fun h => ⟨i, rest, rfl, hok h⟩,
      fun h => ⟨hcode, herr h⟩⟩

/-! ### A stream of commands -/

/-- Two runs with the same result, from states that differ in the pending bytes alone, differ afterwards in them
alone. -/
theorem SameResult.consume {i : Instr} {rest : List Byte} {o o' : Out}
    (hres : SameResult i s (s.consume rest) o o') (h : o = .next t) : o' = .next (t.consume rest) := by
  cases hres with
  | failed | answered | flagged | register | slot => cases h; rfl

/-- A command does the same whatever bytes come after it, and leaves them as they are (R56). -/
theorem exec_consume {i : Instr} (h : exec i s = .next t) (rest : List Byte) :
    exec i (s.consume rest) = .next (t.consume rest) := by
  by_cases hi : i = .rdst
  · subst hi; cases h; rfl
  · exact (exec_sameResult (s := s) (s' := s.consume rest) hi rfl fun _ _ => rfl).consume h

/-- R56: the steps of a stream of commands are the commands, one after another. -/
theorem runSteps_flatMap_encode {is : List Instr} {rest : List Byte} (hr : s.resetIn = false)
    (hw : ∀ i ∈ is, i.wellFormed = true) (hc : s.cmd = is.flatMap encode ++ rest) :
    runSteps is.length s = runCommands is (s.consume rest) := by
  induction is generalizing s with
  | nil =>
    obtain rfl : s.cmd = rest := hc
    rfl
  | cons i is ih =>
    rw [List.forall_mem_cons] at hw
    rw [List.flatMap_cons, List.append_assoc] at hc
    have hd : decode s.cmd = .command i (is.flatMap encode ++ rest) := hc ▸ decode_encode_append i _ hw.1
    obtain ⟨u, hu, he⟩ := exec_effect (s.consume (is.flatMap encode ++ rest)) i
    have hu' : exec i (s.consume rest) = .next (u.consume rest) := exec_consume hu rest
    rw [List.length_cons, runSteps, step_exec s hr hd, hu, runCommands, hu']
    exact ih (he.resetIn_eq.trans hr) hw.2 he.cmd_eq

/-- R54, R56: commands one after another answer one record each, in order, and leave the stream and the reset input
as they are. -/
theorem runCommands_answers (is : List Instr) (s : State) : ∃ t answers, runCommands is s = .next t ∧
    t.cmd = s.cmd ∧ t.resetIn = s.resetIn ∧
    t.rsp = s.rsp ++ (answers : List (Byte × List Byte)).flatMap (fun a => record a.1 a.2) ∧
    answers.length = is.length ∧ ∀ a ∈ answers, IsCode a.1 ∧ (a.1 ≠ codeOk → a.2 = []) := by
  induction is generalizing s with
  | nil => exact ⟨s, [], rfl, rfl, rfl, by simp, rfl, by simp⟩
  | cons i is ih =>
    obtain ⟨u, hu, he⟩ := exec_effect s i
    obtain ⟨code, data, hrsp, hcode, -, herr⟩ := he.exists_record
    obtain ⟨t, answers, ht, hcmd, hreset, hrsp', hlen, hall⟩ := ih u
    refine ⟨t, (code, data) :: answers, by rw [runCommands, hu]; exact ht, hcmd.trans he.cmd_eq,
      hreset.trans he.resetIn_eq, ?_, congrArg (· + 1) hlen, List.forall_mem_cons.mpr ⟨⟨hcode, herr⟩, hall⟩⟩
    rw [hrsp', hrsp, List.flatMap_cons, List.append_assoc]

/-- Settles O12: the steps are the commands, each of which answers one record; with no bytes left the decoder
holds. -/
theorem commandStreamRunsInOrder : Obligations.CommandStreamRunsInOrder := by
  intro s is rest hr hw hc
  obtain ⟨t, answers, ht, hcmd, hreset, hrsp, hlen, hall⟩ := runCommands_answers is (s.consume rest)
  refine ⟨t, answers, (runSteps_flatMap_encode hr hw hc).trans ht, ht, hcmd, hrsp, hlen, hall, fun hnil => ?_⟩
  have hidle : t.Idle := ⟨hreset.trans hr, hcmd.trans hnil⟩
  exact ⟨hidle, step_incomplete t hidle.1 (by rw [hidle.2]; rfl)⟩

end Machine

end Sys2Proof

namespace Sys2Proof

/-! ### Assigned and unassigned opcodes -/

/-- R80: an opcode value stands for nothing exactly when it is not assigned. -/
theorem ofByte_eq_none {b : Byte} : Opcode.ofByte b = none ↔ b ∉ assignedOpcodes := by
  simp [Opcode.ofByte, List.find?_eq_none, show assignedOpcodes = Opcode.all.map Opcode.code from rfl]

@[simp] theorem opField_headerWord (b0 b1 b2 b3 : Byte) : opField (headerWord b0 b1 b2 b3) = b0 := by
  have := b0.isLt
  apply BitVec.eq_of_toNat_eq
  rw [toNat_opField, toNat_headerWord]
  omega

/-- The decoder on a header and the bytes after it: the body of the header's opcode, or an illegal command of four
bytes (R75, R80). -/
theorem decode_headerBytes_cases (w : BitVec 32) (tail : List Byte) :
    (∃ o : Opcode, opField w = o.code ∧ decode (headerBytes w ++ tail) = decodeBody o w tail) ∨
    (opField w ∉ assignedOpcodes ∧ decode (headerBytes w ++ tail) = .illegal .unassignedOpcode tail) := by
  cases ho : Opcode.ofByte (opField w) with
  | some o => exact .inl ⟨o, code_of_ofByte ho, decode_headerBytes w tail (code_of_ofByte ho)⟩
  | none =>
    obtain ⟨b0, b1, b2, b3, hb, rfl⟩ := headerBytes_eq w
    exact .inr ⟨ofByte_eq_none.mp ho, by simp only [hb, List.cons_append, List.nil_append, decode, ho]⟩

/-! ### How much is decoded -/

theorem Decoded.rest?_eq_some {d : Decoded} {rest : List Byte} :
    d.rest? = some rest ↔ (∃ i, d = .command i rest) ∨ ∃ c, d = .illegal c rest := by
  cases d <;> simp [Decoded.rest?]

theorem drop?_eq_some {n : Nat} {bs rest : List Byte} :
    drop? n bs = some rest ↔ n ≤ bs.length ∧ bs.drop n = rest := by
  simp [drop?]

/-- Settles O4: what the decoder leaves over is what follows the payload, whatever it finds. -/
theorem lengthIsFixedBeforeLegality : Obligations.LengthIsFixedBeforeLegality := by
  intro b0 b1 b2 b3 tail n hp hn
  rw [← Decoded.rest?_eq_some, rest?_decode, hp, Option.bind_some, drop?_eq_some]
  exact ⟨hn, rfl⟩

/-- R74, R76: the decoder answers nothing but `incomplete` on bytes that do not begin with a whole command. -/
theorem complete_of_decode_ne_incomplete {bs : List Byte} (h : decode bs ≠ .incomplete) : Machine.Complete bs := by
  match bs with
  | [] | [_] | [_, _] | [_, _, _] => exact absurd rfl h
  | b0 :: b1 :: b2 :: b3 :: tail =>
    obtain ⟨rest, hrest⟩ : ∃ rest, (decode (b0 :: b1 :: b2 :: b3 :: tail)).rest? = some rest := by
      cases hd : decode (b0 :: b1 :: b2 :: b3 :: tail) with
      | incomplete => exact absurd hd h
      | illegal c rest | command i rest => exact ⟨rest, rfl⟩
    rw [rest?_decode, Option.bind_eq_some_iff] at hrest
    obtain ⟨n, hp, hn⟩ := hrest
    exact ⟨b0, b1, b2, b3, tail, n, rfl, hp, (drop?_eq_some.mp hn).1⟩

/-! ### A command and its bytes determine each other -/

/-- Settles O5: the header gives back the opcode and the fields, the payload its items. -/
theorem decodeOfEncode : Obligations.DecodeOfEncode := decode_encode_append

/-- Settles O6: the decoder reads a command from no header and no payload but the command's own. -/
theorem encodeOfDecode : Obligations.EncodeOfDecode := by
  intro bs i rest h
  obtain ⟨b0, b1, b2, b3, tail, -, rfl, -, -⟩ := complete_of_decode_ne_incomplete (bs := bs) (by simp [h])
  change decode ([b0, b1, b2, b3] ++ tail) = _ at h
  change _ ∧ [b0, b1, b2, b3] ++ tail = _
  rw [← headerBytes_headerWord] at h ⊢
  rcases decode_headerBytes_cases (headerWord b0 b1 b2 b3) tail with ⟨o, ho, hd⟩ | ⟨-, hd⟩
  · obtain ⟨-, hw, hheader, rfl⟩ := decodeBody_eq_command ho (hd ▸ h)
    exact ⟨hw, by rw [encode, hheader, List.append_assoc]⟩
  · rw [hd] at h
    cases h

/-! ### A header under the mask of a table row -/

/-- A header word is determined by its format R fields (R71). -/
theorem header_ext {v w : BitVec 32} (ho : opField v = opField w) (ha : fieldA v = fieldA w)
    (hb : fieldB v = fieldB w) (hc : fieldC v = fieldC w) (hd : fieldD v = fieldD w) (hz : fieldZ v = fieldZ w) :
    v = w := by
  rw [← BitVec.toNat_inj] at ho ha hb hc hd hz ⊢
  rw [toNat_opField, toNat_opField] at ho
  rw [toNat_fieldA, toNat_fieldA] at ha
  rw [toNat_fieldB, toNat_fieldB] at hb
  rw [toNat_fieldC, toNat_fieldC] at hc
  rw [toNat_fieldD, toNat_fieldD] at hd
  rw [toNat_fieldZ, toNat_fieldZ] at hz
  have := v.isLt
  have := w.isLt
  omega

/-- A mask works on every field of a header by itself. -/
theorem and_eq_iff_fields (w m v : BitVec 32) : w &&& m = v ↔
    opField w &&& opField m = opField v ∧ fieldA w &&& fieldA m = fieldA v ∧ fieldB w &&& fieldB m = fieldB v ∧
    fieldC w &&& fieldC m = fieldC v ∧ fieldD w &&& fieldD m = fieldD v ∧ fieldZ w &&& fieldZ m = fieldZ v := by
  simp only [opField, fieldA, fieldB, fieldC, fieldD, fieldZ, ← BitVec.extractLsb'_and]
  constructor
  · rintro rfl
    exact ⟨rfl, rfl, rfl, rfl, rfl, rfl⟩
  · rintro ⟨ho, ha, hb, hc, hd, hz⟩
    exact header_ext ho ha hb hc hd hz

/-- Every row fixes the whole opcode field, to its opcode, and asks no other bit to be one. -/
theorem opcodeTable_fields : ∀ r ∈ opcodeTable, opField r.mask = BitVec.allOnes 8 ∧
    opField r.value = r.opcode.code ∧ fieldA r.value = 0#5 ∧ fieldB r.value = 0#5 ∧ fieldC r.value = 0#5 ∧
    fieldD r.value = 0#5 ∧ fieldZ r.value = 0#4 := by
  decide

/-- A header matches a row when it has the row's opcode and no bit that the row asks to be zero. The fields of the
mask are written out, so that `simp` computes them. -/
theorem matches_iff {r : TableRow} (hr : r ∈ opcodeTable) (w : BitVec 32) : w &&& r.mask = r.value ↔
    opField w = r.opcode.code ∧ fieldA w &&& r.mask.extractLsb' 8 5 = 0#5 ∧
    fieldB w &&& r.mask.extractLsb' 13 5 = 0#5 ∧ fieldC w &&& r.mask.extractLsb' 18 5 = 0#5 ∧
    fieldD w &&& r.mask.extractLsb' 23 5 = 0#5 ∧ fieldZ w &&& r.mask.extractLsb' 28 4 = 0#4 := by
  obtain ⟨hm, ho, ha, hb, hc, hd, hz⟩ := opcodeTable_fields r hr
  rw [and_eq_iff_fields, hm, ho, ha, hb, hc, hd, hz, BitVec.and_allOnes]
  rfl

/-- Every opcode has a row. -/
theorem exists_row (o : Opcode) : ∃ r ∈ opcodeTable, r.opcode = o := by cases o <;> decide

theorem and_0x1F (f : BitVec 5) : f &&& 0x1F#5 = f := BitVec.and_allOnes

theorem and_0x0F (f : BitVec 4) : f &&& 0x0F#4 = f := BitVec.and_allOnes

/-- R77: a field names a matrix register exactly when its two high bits are zero. -/
theorem exists_matrixCode_iff {f : BitVec 5} : (∃ i, f = matrixCode i) ↔ f &&& 0x18#5 = 0#5 := by
  revert f; decide

/-- The reserved field of format I is the reserved field of format R and the two bits below it. -/
theorem fieldZI_eq_zero_iff {w : BitVec 32} : fieldZI w = 0#6 ↔ fieldD w &&& 0x18#5 = 0#5 ∧ fieldZ w = 0#4 := by
  have hd : ∀ f : BitVec 5, f &&& 0x18#5 = 0#5 ↔ f.toNat / 8 = 0 := by decide
  rw [hd, ← BitVec.toNat_inj, ← BitVec.toNat_inj, toNat_fieldZI, toNat_fieldD, toNat_fieldZ]
  simp only [BitVec.toNat_ofNat]
  omega

/-! ### When a header is legal -/

theorem exists_ok_bind {ε α β : Type} {x : Except ε α} {f : α → Except ε β} :
    (∃ b, (x >>= f) = .ok b) ↔ ∃ a, x = .ok a ∧ ∃ b, f a = .ok b := by
  simp only [except_bind_eq_ok, exists_comm (α := β), exists_and_left]

theorem exists_ok_pure {ε α : Type} (a : α) : (∃ b, (pure a : Except ε α) = .ok b) ↔ True :=
  iff_true_intro ⟨a, rfl⟩

theorem exists_noPayload_eq_command {legal : Except IllegalCause Instr} {tail : List Byte} :
    (∃ i rest, noPayload legal tail = .command i rest) ↔ ∃ i, legal = .ok i := by
  simp only [noPayload_eq_command, exists_and_left, exists_eq', and_true]

/-- A payload that has arrived does not bear on legality, when legality is the same for every payload. -/
theorem exists_withPayload_eq_command {α : Type} {taken : Option (α × List Byte)}
    {legal : α → Except IllegalCause Instr} {after : List Byte} {p : Prop}
    (ht : (withPayload taken legal).rest? = some after) (hl : ∀ x, (∃ i, legal x = .ok i) ↔ p) :
    (∃ i rest, withPayload taken legal = .command i rest) ↔ p := by
  rw [rest?_withPayload, Option.map_eq_some_iff] at ht
  obtain ⟨⟨x, rest⟩, rfl, -⟩ := ht
  exact exists_noPayload_eq_command.trans (hl x)

/-- R77 to R79: the decoder's checks of a row's opcode are the row's mask. -/
theorem exists_decodeBody_eq_command {r : TableRow} (hr : r ∈ opcodeTable) {w : BitVec 32}
    (ho : opField w = r.opcode.code) {tail after : List Byte}
    (ht : (decodeBody r.opcode w tail).rest? = some after) :
    (∃ i rest, decodeBody r.opcode w tail = .command i rest) ↔ w &&& r.mask = r.value := by
  rw [matches_iff hr, and_iff_right ho]
  clear ho
  obtain ⟨o, v, m⟩ := r
  cases o <;> simp only [opcodeTable, List.mem_cons, List.not_mem_nil, or_false, TableRow.mk.injEq, reduceCtorEq,
    true_and, false_and, false_or] at hr <;> obtain ⟨rfl, rfl⟩ := hr
  case hash | concatall | parse | append | prepend | foldapp | foldpre | pack8 | pack16 | pack32 | pack64 | loadu =>
    refine exists_withPayload_eq_command ht fun x => ?_
    simp only [exists_ok_bind, exists_ok_pure, destOnly_eq_ok, destSource_eq_ok, Prod.exists, exists_and_left,
      exists_matrixCode_iff, BitVec.reduceExtractLsb', and_0x1F, BitVec.and_zero,
      BitVec.ofNat_eq_ofNat, and_true, true_and, and_comm]
  case fadd | fmul | fmuladd | feq | unit | mmul | isvalid | validate | meq | mcmp | bytemat | unpack8 | unpack16
      | unpack32 | unpack64 | showm | rdst =>
    simp only [decodeBody, exists_noPayload_eq_command, exists_ok_bind, exists_ok_pure, zeroField_eq_ok,
      matrixField_eq_ok_iff, sourceOnly_eq_ok, twoSources_eq_ok, Prod.exists, exists_const, exists_and_left,
      exists_matrixCode_iff, BitVec.reduceExtractLsb', and_0x1F, and_0x0F, BitVec.and_zero,
      BitVec.ofNat_eq_ofNat, fieldZI_eq_zero_iff, true_and, and_assoc, and_comm, and_left_comm]

/-- Settles O7: the row of the header's opcode decides, and a header matches no row of another opcode. -/
theorem headerLegalIffTableRow : Obligations.HeaderLegalIffTableRow := by
  intro w tail n hp hn
  have hrest : (decode (headerBytes w ++ tail)).rest? = some (tail.drop n) := by
    obtain ⟨b0, b1, b2, b3, hb, rfl⟩ := headerBytes_eq w
    rw [hb]
    exact Decoded.rest?_eq_some.mpr (lengthIsFixedBeforeLegality b0 b1 b2 b3 tail n hp hn)
  have hrow : ∀ r ∈ opcodeTable, opField w = r.opcode.code →
      ((∃ i rest, decode (headerBytes w ++ tail) = .command i rest) ↔ w &&& r.mask = r.value) := by
    intro r hr ho
    rw [decode_headerBytes w tail ho] at hrest ⊢
    exact exists_decodeBody_eq_command hr ho hrest
  refine ⟨⟨fun hlegal => ?_, ?_⟩, fun r hr hm i rest hd => ?_⟩
  · rcases decode_headerBytes_cases w tail with ⟨o, ho, -⟩ | ⟨-, hd⟩
    · obtain ⟨r, hr, rfl⟩ := exists_row o
      exact ⟨r, hr, (hrow r hr ho).mp hlegal⟩
    · obtain ⟨i, rest, h⟩ := hlegal
      rw [hd] at h
      cases h
  · rintro ⟨r, hr, hm⟩
    exact (hrow r hr ((matches_iff hr w).mp hm).1).mpr hm
  · have ho := ((matches_iff hr w).mp hm).1
    rw [decode_headerBytes w tail ho] at hd
    exact (decodeBody_eq_command ho hd).1

end Sys2Proof

namespace Sys2Proof.Machine

variable {s : State}

/-! ### What the engine does with the front of its stream -/

/-- Settles O1: a step is the command in front of the stream, and no command touches the stream. -/
theorem stepExecutesDecodedCommand : Obligations.StepExecutesDecodedCommand := by
  intro s i rest hr hd
  have hstep : step s = exec i (s.consume rest) := step_exec s hr hd
  exact ⟨hstep, fun t ht => (effect_of_exec (hstep.symm.trans ht)).cmd_eq⟩

/-- R54: once a whole command is there, a step answers it. -/
theorem step_emits (hr : s.resetIn = false) (hc : Complete s.cmd) :
    ∃ t, step s = .next t ∧ s.rsp.length < t.rsp.length := by
  obtain ⟨t, code, data, ht, hrsp, -⟩ := oneResponseRecordPerCommand s hr hc
  exact ⟨t, ht, by rw [hrsp, List.length_append, List.length_cons]; omega⟩

theorem onHost_send (hr : s.resetIn = false) (bytes : List Byte) :
    s.onHost (.send bytes) = s.consume (s.cmd ++ bytes) := by
  simp [State.onHost, State.consume, hr]

/-- Settles O3: the decoder answers `incomplete` exactly on the bytes that do not begin with a whole command. -/
theorem engineHoldsUntilCommandComplete : Obligations.EngineHoldsUntilCommandComplete := by
  intro s hr
  refine ⟨fun hc => ?_, step_emits hr, fun bytes hc => ?_, rfl⟩
  · exact step_incomplete s hr (not_imp_comm.mp complete_of_decode_ne_incomplete hc)
  · rw [onHost_send hr]
    exact step_emits (s := s.consume (s.cmd ++ bytes)) hr hc

/-- Settles O10: an unassigned opcode has no body to decode; any other header is read as O4 and O7 say. -/
theorem unassignedOpcodesAreIllegal : Obligations.UnassignedOpcodesAreIllegal := by
  refine ⟨by decide +kernel, by decide, by decide, ?_, ?_⟩
  · intro s b0 b1 b2 b3 tail hb hr hcmd
    have hd : decode s.cmd = .illegal .unassignedOpcode tail := by
      rw [hcmd, decode, opField_headerWord, ofByte_eq_none.mpr hb]
    exact step_illegal s hr hd
  · intro s b0 b1 b2 b3 tail n hr hcmd hp hn
    have hb : headerBytes (headerWord b0 b1 b2 b3) ++ tail = s.cmd := by rw [headerBytes_headerWord, hcmd]; rfl
    obtain ⟨hlegal, hopcode⟩ := headerLegalIffTableRow (headerWord b0 b1 b2 b3) tail n hp hn
    rw [hb] at hlegal hopcode
    rcases lengthIsFixedBeforeLegality b0 b1 b2 b3 tail n hp hn with ⟨i, hd⟩ | ⟨c, hd⟩ <;> rw [← hcmd] at hd
    · obtain ⟨r, hmem, hm⟩ := hlegal.mp ⟨i, _, hd⟩
      exact .inl ⟨r, hmem, hm, i, hopcode r hmem hm i _ hd, step_exec s hr hd⟩
    · exact .inr (step_illegal s hr hd)

end Sys2Proof.Machine

namespace Sys2Proof.Asm

/-! ### The assembler (R83, R84) -/

/-- A nonempty list of characters that the lexer takes for one word. -/
def isWord (w : List Char) : Bool := !w.isEmpty && w.all wordChar

/-- A word in progress goes on to the next blank. -/
theorem lex_word_append {w : List Char} (hw : w.all wordChar = true) (rev rest : List Char) :
    lex (.word rev) (w ++ ' ' :: rest) = (lex .idle rest).map fun ts => .word (rev.reverse ++ w) :: ts := by
  induction w generalizing rev with
  | nil =>
    have hblank : wordChar ' ' = false := by decide
    simp [lex, hblank, LexMode.flush]
  | cons c w ih =>
    rw [List.all_cons, Bool.and_eq_true] at hw
    obtain ⟨hc, hw⟩ := hw
    simp [lex, hc, LexMode.pending, ih hw]

/-- A line that begins with a word and a blank has that word as its first token. -/
theorem lex_idle_append {w : List Char} (hw : isWord w = true) (rest : List Char) :
    lex .idle (w ++ ' ' :: rest) = (lex .idle rest).map fun ts => .word w :: ts := by
  cases w with
  | nil => cases hw
  | cons c w =>
    rw [isWord, List.all_cons, Bool.and_eq_true, Bool.and_eq_true] at hw
    obtain ⟨-, hc, hw⟩ := hw
    simp [lex, hc, LexMode.pending, lex_word_append hw]

/-- Of a line's first word, only the opcode it names matters. -/
theorem assembleLine_congr {v w : List Char} (hv : isWord v = true) (hw : isWord w = true)
    (ho : opcodeOf? v = opcodeOf? w) (rest : List Char) :
    assembleLine (v ++ ' ' :: rest) = assembleLine (w ++ ' ' :: rest) := by
  rw [assembleLine, assembleLine, lex_idle_append hv, lex_idle_append hw]
  cases lex .idle rest with
  | none => rfl
  | some ts => simp only [Option.map_some, ho]

/-- A line stands for no command, or for one that has an encoding (R72, R74, R83). -/
theorem assembleLine_eq_some {line : List Char} {is : List Instr} (h : assembleLine line = some is) :
    is = [] ∨ ∃ i, is = [i] ∧ i.wellFormed = true := by
  unfold assembleLine at h
  split at h
  · exact .inl (Option.some.inj h).symm
  · split at h
    · split at h
      · next i _ =>
        split at h
        · next hw => exact .inr ⟨i, (Option.some.inj h).symm, hw⟩
        · cases h
      · cases h
    · cases h
  · cases h

/-- Settles O9: each name is a word that names the same opcode as its command's mnemonic. -/
theorem pseudoInstructionsAreOtherNames : Obligations.PseudoInstructionsAreOtherNames := by
  refine ⟨fun p hp operands => ?_, fun line is h => ?_⟩
  · have hnames : ∀ p ∈ [("CONCAT", "MMUL"), ("MULTIPLY", "MMUL"), ("IDENTITY", "UNIT"), ("VALID", "ISVALID"),
        ("EQUALS", "MEQ"), ("COMPARE", "MCMP"), ("BYTEMATRIX", "BYTEMAT")],
        isWord p.1.toList = true ∧ isWord p.2.toList = true ∧ opcodeOf? p.1.toList = opcodeOf? p.2.toList := by
      decide +kernel
    obtain ⟨hv, hw, ho⟩ := hnames p hp
    exact assembleLine_congr hv hw ho operands
  · rcases assembleLine_eq_some h with rfl | ⟨i, rfl, hw⟩
    · simp
    · simpa using hw

/-- Settles O8: the assembler, the encoder and the decoder evaluated on the rows of R86. -/
theorem workedEncodings : Obligations.WorkedEncodings := by
  unfold Obligations.WorkedEncodings
  decide +kernel

end Sys2Proof.Asm

namespace Sys2Proof

open Polynomial

/-! ### Widths -/

theorem clmulRounds_lt {a m : Nat} (ha : a < 2 ^ m) (b k : Nat) : clmulRounds a b k < 2 ^ (m + (k - 1)) := by
  induction k with
  | zero => exact Nat.two_pow_pos _
  | succ k ih =>
    have hk : clmulRounds a b k < 2 ^ (m + k) := ih.trans_le (Nat.pow_le_pow_right (by decide) (by omega))
    have hs : a <<< k < 2 ^ (m + k) := by
      rw [Nat.shiftLeft_eq, pow_add]
      exact Nat.mul_lt_mul_of_pos_right ha (Nat.two_pow_pos k)
    rw [clmulRounds]
    split
    · exact Nat.xor_lt_two_pow hk hs
    · exact hk

/-- The product of polynomials of m and n bits has m + n - 1 bits (R10). -/
theorem clmul_lt {m n : Nat} (a : BitVec m) (b : BitVec n) : clmul a b < 2 ^ (m + (n - 1)) :=
  clmulRounds_lt a.isLt _ n

/-! ### Folds (R104) -/

/-- A number is its low 127 bits and the rest above them. -/
theorem low_xor_high (p : Nat) : (p % 2 ^ 127) ^^^ ((p >>> 127) <<< 127) = p := by
  apply Nat.eq_of_testBit_eq
  intro i
  rw [Nat.testBit_xor, Nat.testBit_mod_two_pow, Nat.testBit_shiftLeft, Nat.testBit_shiftRight]
  rcases Nat.lt_or_ge i 127 with h | h
  · simp [h, Nat.not_le.mpr h]
  · simp [h, Nat.not_lt.mpr h]

/-- A fold takes a multiple of P away: `x^127 * H` is `P * H + (x^63 + 1) * H`. -/
theorem toPoly_foldOnce (p : Nat) : toPoly p = toPoly (p >>> 127) * polyP + toPoly (foldOnce p) := by
  have hp : toPoly p = toPoly (p % 2 ^ 127) + toPoly (p >>> 127) * X ^ 127 := by
    rw [← toPoly_shiftLeft, ← toPoly_xor, low_xor_high]
  have h2 : toPoly (p >>> 127) * (X ^ 63 + 1 : (ZMod 2)[X]) + toPoly (p >>> 127) * (X ^ 63 + 1) = 0 :=
    CharTwo.add_self_eq_zero _
  rw [foldOnce, toPoly_xor, toPoly_xor, toPoly_shiftLeft, polyP_eq]
  linear_combination hp - h2

theorem reduce_foldOnce (p : Nat) : reduce (foldOnce p) = reduce p :=
  (reduce_eq_of_congr (toPoly_foldOnce p)).symm

/-- What is narrow enough is its own remainder. -/
theorem reduce_of_lt {n : Nat} (h : n < 2 ^ 127) : reduce n = BitVec.ofNat 127 n := by
  have := reduce_toNat (BitVec.ofNat 127 n)
  rwa [BitVec.toNat_ofNat, Nat.mod_eq_of_lt h] at this

/-- A fold of 127 + k bits leaves the 127 low ones and the k high ones moved up by 63. -/
theorem foldOnce_lt {p k : Nat} (hp : p < 2 ^ (127 + k)) : foldOnce p < 2 ^ max 127 (63 + k) := by
  have hle : ∀ {x j}, x < 2 ^ j → j ≤ max 127 (63 + k) → x < 2 ^ max 127 (63 + k) := fun h hj =>
    h.trans_le (Nat.pow_le_pow_right (by decide) hj)
  have hH : p >>> 127 < 2 ^ k := by
    rw [Nat.shiftRight_eq_div_pow]
    exact Nat.div_lt_of_lt_mul (by rwa [← pow_add])
  have hS : (p >>> 127) <<< 63 < 2 ^ (63 + k) := by
    rw [Nat.shiftLeft_eq, Nat.mul_comm, pow_add]
    exact Nat.mul_lt_mul_of_pos_left hH (Nat.two_pow_pos 63)
  exact Nat.xor_lt_two_pow
    (Nat.xor_lt_two_pow (hle (Nat.mod_lt p (Nat.two_pow_pos 127)) (le_max_left ..)) (hle hH (by omega)))
    (hle hS (le_max_right ..))

/-- One fold is enough below 2^191: the high part moved up by 63 stays below 2^127. -/
theorem reduce_eq_ofNat_foldOnce {p : Nat} (hp : p < 2 ^ 191) : reduce p = BitVec.ofNat 127 (foldOnce p) := by
  rw [← reduce_foldOnce, reduce_of_lt (foldOnce_lt (k := 64) hp)]

/-- Two folds are enough below 2^253: 126 high bits give 189 bits, of which 62 are high. -/
theorem foldOnce_foldOnce_lt {p : Nat} (hp : p < 2 ^ 253) :
    foldOnce p < 2 ^ 189 ∧ foldOnce (foldOnce p) < 2 ^ 127 :=
  have h : foldOnce p < 2 ^ 189 := foldOnce_lt (k := 126) hp
  ⟨h, foldOnce_lt (k := 62) h⟩

theorem reduce_eq_reduceTwoFold {p : Nat} (hp : p < 2 ^ 253) : reduce p = reduceTwoFold p := by
  rw [← reduce_foldOnce, ← reduce_foldOnce, reduce_of_lt (foldOnce_foldOnce_lt hp).2, reduceTwoFold]

/-- Settles O27: each fold keeps the residue modulo P and narrows the number; `x^126 * x^126` needs both. -/
theorem twoFoldsReduce : Obligations.TwoFoldsReduce :=
  ⟨fun _ hp => ⟨(foldOnce_foldOnce_lt hp).1, (foldOnce_foldOnce_lt hp).2, reduce_eq_reduceTwoFold hp⟩,
    1#127 <<< 126, 1#127 <<< 126, by decide +kernel⟩

/-! ### The product (R101, R102) -/

/-- The quotient of the product is the high parts that the two folds take away. -/
theorem exists_clmul_eq (a b : Fe) :
    ∃ q : BitVec 126, clmul a b = clmul q reductionPoly ^^^ (fmul a b).toNat := by
  have hp : clmul a b < 2 ^ 253 := clmul_lt a b
  obtain ⟨h1, h2⟩ := foldOnce_foldOnce_lt hp
  have hr : (fmul a b).toNat = foldOnce (foldOnce (clmul a b)) := by
    rw [fmul, reduce_eq_reduceTwoFold hp, reduceTwoFold, BitVec.toNat_ofNat, Nat.mod_eq_of_lt h2]
  have hq : (clmul a b >>> 127) ^^^ (foldOnce (clmul a b) >>> 127) < 2 ^ 126 :=
    Nat.xor_lt_two_pow (by rw [Nat.shiftRight_eq_div_pow]; omega) (by rw [Nat.shiftRight_eq_div_pow]; omega)
  refine ⟨BitVec.ofNat 126 ((clmul a b >>> 127) ^^^ (foldOnce (clmul a b) >>> 127)), toPoly_inj ?_⟩
  rw [toPoly_xor, toPoly_clmul _ reductionPoly, BitVec.toNat_ofNat, Nat.mod_eq_of_lt hq, toPoly_xor, hr, ← polyP]
  linear_combination toPoly_foldOnce (clmul a b) + toPoly_foldOnce (foldOnce (clmul a b))

/-- A field element congruent to the product modulo P is the product. -/
theorem eq_fmul_of_clmul_eq {a b : Fe} {q : BitVec 126} {r : Fe}
    (h : clmul a b = clmul q reductionPoly ^^^ r.toNat) : r = fmul a b := by
  have hp : toPoly (clmul a b) = toPoly q.toNat * polyP + toPoly r.toNat := by
    rw [h, toPoly_xor, toPoly_clmul, polyP]
  rw [fmul, reduce_eq_of_congr hp, reduce_toNat]

/-- Settles O26: the folds give the quotient, and a residue class modulo P has one field element. -/
theorem fmulIsUniqueRemainder : Obligations.FmulIsUniqueRemainder := fun a b =>
  ⟨rfl, clmul_lt a b, exists_clmul_eq a b, fun _ _ => eq_fmul_of_clmul_eq⟩

/-- Settles O28, by the linearity of `reduce`. -/
theorem fusedMultiplyAdd : Obligations.FusedMultiplyAdd := fun a b c =>
  ⟨rfl, by rw [reduce_xor, reduce_toNat]; rfl⟩

/-! ### The ring laws (R110) -/

theorem fmul_comm (a b : Fe) : fmul a b = fmul b a := by
  rw [← residue_inj, residue_fmul, residue_fmul, mul_comm]

theorem fmul_assoc (a b c : Fe) : fmul (fmul a b) c = fmul a (fmul b c) := by
  rw [← residue_inj]
  simp only [residue_fmul, mul_assoc]

theorem fmul_one (a : Fe) : fmul a 1#127 = a := by
  rw [← residue_inj, residue_fmul, residue_one, mul_one]

theorem fmul_zero (a : Fe) : fmul a 0#127 = 0#127 := by
  rw [← residue_inj, residue_fmul, residue_zero, mul_zero]

theorem fmul_fadd (a b c : Fe) : fmul a (fadd b c) = fadd (fmul a b) (fmul a c) := by
  rw [← residue_inj]
  simp only [residue_fmul, residue_fadd, mul_add]

/-- Settles O29: XOR is an elementary group, and products are those of the residue ring. -/
theorem fieldRingLaws : Obligations.FieldRingLaws :=
  ⟨BitVec.xor_assoc, BitVec.xor_comm, fun _ => BitVec.xor_zero, fun _ => BitVec.xor_self, fmul_assoc, fmul_comm,
    fmul_one, fmul_zero, fmul_fadd⟩

/-! ### Products by shift, XOR and AND (R113) -/

theorem clmul_two (a : Fe) : clmul a 2#127 = a.toNat <<< 1 := by
  apply toPoly_inj
  rw [toPoly_clmul, toPoly_shiftLeft, show (2#127).toNat = 1 <<< 1 from rfl, toPoly_shiftLeft, toPoly_one, one_mul]

/-- The product by x is one fold of the shifted element, whose high part is bit 126 (R113). -/
theorem fmul_two (a : Fe) :
    fmul a 2#127 = (a <<< 1) ^^^ (if a.getLsbD 126 then 0x8000000000000001#127 else 0#127) := by
  have hlt : a.toNat <<< 1 < 2 ^ 191 := by
    have := a.isLt
    rw [Nat.shiftLeft_eq]; omega
  have hH : (a.toNat <<< 1) >>> 127 = (a.getLsbD 126).toNat := by
    have := a.isLt
    rw [BitVec.getLsbD, Nat.toNat_testBit, Nat.shiftLeft_eq, Nat.shiftRight_eq_div_pow]; omega
  rw [fmul, clmul_two, reduce_eq_ofNat_foldOnce hlt, foldOnce, hH]
  have hS : BitVec.ofNat 127 (a.toNat <<< 1 % 2 ^ 127) = a <<< 1 := BitVec.eq_of_toNat_eq (by simp)
  rw [BitVec.ofNat_xor, BitVec.ofNat_xor, hS, BitVec.xor_assoc]
  cases a.getLsbD 126 <;> rfl

theorem fmul_three (a : Fe) : fmul a 3#127 = fmul a 2#127 ^^^ a := by
  rw [show 3#127 = fadd 2#127 1#127 from rfl, fmul_fadd, fmul_one, fadd]

theorem fmul_bit (a : Fe) (bit : Bool) :
    fmul a (if bit then 1#127 else 0#127) = a &&& (if bit then BitVec.allOnes 127 else 0#127) := by
  cases bit with
  | true => exact (fmul_one a).trans BitVec.and_allOnes.symm
  | false => exact (fmul_zero a).trans BitVec.and_zero.symm

/-- Settles O31: the product by x is one fold, the others are ring laws. -/
theorem specialProducts : Obligations.SpecialProducts := fun a =>
  ⟨fmul_two a, fmul_three a, fmul_zero a, fmul_one a, fmul_bit a⟩

/-! ### The field (R7, R110) -/

/-- Squaring 127 times gives x back: the computation of Rabin's test, in the model's own arithmetic. -/
theorem square_iterate_two : (fun a : Fe => fmul a a)^[127] 2#127 = 2#127 := by decide +kernel

theorem residue_two : residue 2#127 = AdjoinRoot.mk polyP X := by
  rw [residue, show (2#127).toNat = 1 <<< 1 from rfl, toPoly_shiftLeft, toPoly_one, one_mul, pow_one]

theorem residue_square_iterate_two (n : Nat) :
    residue ((fun a : Fe => fmul a a)^[n] 2#127) = AdjoinRoot.mk polyP (X ^ Nat.card (ZMod 2) ^ n) := by
  rw [Nat.card_zmod]
  induction n with
  | zero => rw [Function.iterate_zero_apply, residue_two, pow_zero, pow_one]
  | succ n ih => rw [Function.iterate_succ_apply', residue_fmul, ih, pow_succ 2, pow_mul, sq, map_mul]

theorem polyP_dvd : polyP ∣ X ^ Nat.card (ZMod 2) ^ 127 - X :=
  AdjoinRoot.mk_eq_mk.mp (by rw [← residue_square_iterate_two, square_iterate_two, residue_two])

/-- P has no factor of degree 1: its values at 0 and at 1 are 1. -/
theorem not_isRoot_polyP (x : ZMod 2) : ¬polyP.IsRoot x := by
  rw [polyP_eq, IsRoot.def]
  obtain rfl | rfl : x = 0 ∨ x = 1 := by revert x; decide
  · simp
  · simpa using show (1 + 1 + 1 : ZMod 2) ≠ 0 by decide

/-- P is irreducible (R7): the degree of an irreducible factor divides the prime 127, and is not 1. -/
theorem irreducible_polyP : Irreducible polyP := by
  have hu : ¬ IsUnit polyP := fun h => by
    have := natDegree_eq_zero_of_isUnit h
    rw [polyP_natDegree] at this
    cases this
  obtain ⟨g, hg, hgP⟩ := WfDvdMonoid.exists_irreducible_factor hu polyP_ne_zero
  have hdvd : g.natDegree ∣ 127 := hg.natDegree_dvd_of_dvd_X_pow_card_pow_sub_X (hgP.trans polyP_dvd)
  rcases (Nat.dvd_prime (by norm_num)).mp hdvd with h1 | h127
  · obtain ⟨x, hx⟩ := (Splits.of_natDegree_eq_one h1).exists_eval_eq_zero
      (degree_ne_of_natDegree_ne (by rw [h1]; decide))
    exact absurd (IsRoot.dvd hx hgP) (not_isRoot_polyP x)
  · exact (associated_of_dvd_of_natDegree_le hgP polyP_ne_zero (by rw [polyP_natDegree, h127])).irreducible hg

theorem fmul_eq_zero {a b : Fe} (h : fmul a b = 0#127) : a = 0#127 ∨ b = 0#127 := by
  have : Fact (Irreducible polyP) := ⟨irreducible_polyP⟩
  rw [← residue_inj, residue_fmul, residue_zero, mul_eq_zero] at h
  simpa only [← residue_zero, residue_inj] using h

theorem fmul_left_injective {a : Fe} (ha : a ≠ 0#127) : Function.Injective (fmul a) := fun b c h => by
  have h0 : fmul a (fadd b c) = 0#127 := by rw [fmul_fadd, h, fadd, BitVec.xor_self]
  exact BitVec.xor_eq_zero_iff.mp ((fmul_eq_zero h0).resolve_left ha)

/-- Settles O30: P is irreducible, and a multiplication that is injective on finitely many elements reaches 1. -/
theorem fieldHasInverses : Obligations.FieldHasInverses :=
  ⟨fun _ _ => fmul_eq_zero, fun _ ha => Finite.surjective_of_injective (fmul_left_injective ha) 1,
    by decide +kernel⟩

end Sys2Proof

namespace Sys2Proof

/-! ### Slots and elements -/

/-- A result is stored with range bit 0 (R105). -/
theorem setWidth_eq_zero_append (x : Fe) : x.setWidth 128 = 0#1 ++ x :=
  BitVec.setWidth_eq_append (by decide)

theorem setWidth_fe_eq_extractLsb' (v : Slot) : v.setWidth 127 = v.extractLsb' 0 127 :=
  BitVec.setWidth_eq_extractLsb' (by decide)

theorem setWidth_fadd (x y : Fe) : (fadd x y).setWidth 128 = x.setWidth 128 ^^^ y.setWidth 128 :=
  BitVec.setWidth_xor

end Sys2Proof

namespace Sys2Proof.Machine

variable {s : State}

/-! ### The element commands (R106 to R109, R111) -/

theorem fe?_of_canon {k : EIdx} (h : (s.getE k).getLsbD 127 = false) :
    s.fe? k = some ((s.getE k).setWidth 127) := Slot.fe?_of_canon h

theorem fe?_of_not_canon {k : EIdx} (h : (s.getE k).getLsbD 127 = true) : s.fe? k = none :=
  Slot.fe?_of_not_canon h

theorem exec_fadd_of_canon (ed : EIdx) {ea eb : EIdx} (ha : (s.getE ea).getLsbD 127 = false)
    (hb : (s.getE eb).getLsbD 127 = false) :
    exec (.fadd ed ea eb) s = done [] (s.setE ed (s.getE ea ^^^ s.getE eb)) := by
  simp only [exec, execFadd, fe?_of_canon ha, fe?_of_canon hb, setWidth_fadd, setWidth_setWidth_slot ha,
    setWidth_setWidth_slot hb]

theorem exec_fmul_of_canon (ed : EIdx) {ea eb : EIdx} (ha : (s.getE ea).getLsbD 127 = false)
    (hb : (s.getE eb).getLsbD 127 = false) :
    exec (.fmul ed ea eb) s = done [] (s.setE ed
      (0#1 ++ fmul ((s.getE ea).extractLsb' 0 127) ((s.getE eb).extractLsb' 0 127))) := by
  simp only [exec, execFmul, fe?_of_canon ha, fe?_of_canon hb, setWidth_eq_zero_append,
    setWidth_fe_eq_extractLsb']

theorem exec_fmuladd_of_canon (ed : EIdx) {ea eb ec : EIdx} (ha : (s.getE ea).getLsbD 127 = false)
    (hb : (s.getE eb).getLsbD 127 = false) (hc : (s.getE ec).getLsbD 127 = false) :
    exec (.fmuladd ed ea eb ec) s = done [] (s.setE ed
      ((0#1 ++ fmul ((s.getE ea).extractLsb' 0 127) ((s.getE eb).extractLsb' 0 127)) ^^^ s.getE ec)) := by
  simp only [exec, execFmuladd, fe?_of_canon ha, fe?_of_canon hb, fe?_of_canon hc]
  rw [fmuladd, setWidth_fadd, setWidth_setWidth_slot hc, setWidth_eq_zero_append, setWidth_fe_eq_extractLsb',
    setWidth_fe_eq_extractLsb']

/-- Settles O32: each command writes one slot and answers OK. -/
theorem elementArithmeticCommands : Obligations.ElementArithmeticCommands := by
  refine ⟨fun s ed ea eb ha hb => ?_, fun s ed ea eb ha hb => ?_, fun s ed ea eb ec ha hb hc => ?_⟩
  · rw [exec_fadd_of_canon ed ha hb]; exact done_setE s ed _
  · rw [exec_fmul_of_canon ed ha hb]; exact done_setE s ed _
  · rw [exec_fmuladd_of_canon ed ha hb hc]; exact done_setE s ed _

theorem exec_feq_of_canon {ea eb : EIdx} (ha : (s.getE ea).getLsbD 127 = false)
    (hb : (s.getE eb).getLsbD 127 = false) :
    exec (.feq ea eb) s =
      doneFlag (s.getE ea == s.getE eb) [truthByte (s.getE ea == s.getE eb)] s := by
  have h : feq ((s.getE ea).setWidth 127) ((s.getE eb).setWidth 127) = (s.getE ea == s.getE eb) := by
    rw [feq, Bool.eq_iff_iff, beq_iff_eq, beq_iff_eq, ← setWidth_fe_inj, setWidth_setWidth_slot ha,
      setWidth_setWidth_slot hb]
  simp only [exec, execFeq, fe?_of_canon ha, fe?_of_canon hb, h]

/-- Settles O33: canonical slots are equal when their elements are. -/
theorem feqCommand : Obligations.FeqCommand := by
  intro s ea eb ha hb
  refine ⟨fun h => ?_, fun h => ?_⟩
  · rw [exec_feq_of_canon ha hb, beq_iff_eq.mpr h]; rfl
  · rw [exec_feq_of_canon ha hb, beq_eq_false_iff_ne.mpr h]; rfl

/-! ### Sources with a range bit (R111, R165, R215) -/

theorem exec_fadd_fmul_feq_of_not_canon (ed : EIdx) {ea eb : EIdx}
    (h : (s.getE ea).getLsbD 127 = true ∨ (s.getE eb).getLsbD 127 = true) :
    exec (.fadd ed ea eb) s = raise .range s ∧ exec (.fmul ed ea eb) s = raise .range s ∧
      exec (.feq ea eb) s = raise .range s := by
  simp only [exec, execFadd, execFmul, execFeq]
  rcases h with h | h
  · simp only [fe?_of_not_canon h, and_self]
  · rw [fe?_of_not_canon h]
    cases s.fe? ea <;> exact ⟨rfl, rfl, rfl⟩

theorem exec_fmuladd_of_not_canon (ed : EIdx) {ea eb ec : EIdx} (h : (s.getE ea).getLsbD 127 = true ∨
      (s.getE eb).getLsbD 127 = true ∨ (s.getE ec).getLsbD 127 = true) :
    exec (.fmuladd ed ea eb ec) s = raise .range s := by
  rw [exec, execFmuladd]
  rcases h with h | h | h
  · rw [fe?_of_not_canon h]
  · rw [fe?_of_not_canon h]
    cases s.fe? ea <;> rfl
  · rw [fe?_of_not_canon h]
    cases s.fe? ea <;> cases s.fe? eb <;> rfl

theorem field?_of_not_canon {r : MIdx} (h : (s.getM r).canon = false) : s.field? r = none :=
  field?_eq_none.mpr h

theorem exec_mmul_of_not_canon (md : MIdx) {ma mb : MIdx}
    (h : (s.getM ma).canon = false ∨ (s.getM mb).canon = false) :
    exec (.mmul md ma mb) s = raise .range s := by
  rw [exec, execMmul]
  rcases h with h | h
  · rw [field?_of_not_canon h]
  · rw [field?_of_not_canon h]
    cases s.field? ma <;> rfl

theorem extend_of_not_canon (f : FMat → FMat) (md : MIdx) {ms : MIdx} (h : (s.getM ms).canon = false) :
    extend f md ms s = raise .range s := by
  rw [extend, field?_of_not_canon h]

/-- CONCATALL of registers 0 to 7: the check of R159 passes, the one of R165 fails. -/
theorem exec_concatall_of_not_canon (md : MIdx) {rs : List MIdx} (h : ∃ r ∈ rs, (s.getM r).canon = false) :
    exec (.concatall md (rs.map fun r => BitVec.ofNat 8 r.val)) s = raise .range s := by
  have hregs : allSome ((rs.map fun r => BitVec.ofNat 8 r.val).map regNumber?) = some rs :=
    allSome_eq_some.mpr (by
      rw [List.map_map]
      exact List.map_congr_left fun r _ => regNumber?_eq_some.mpr rfl)
  obtain ⟨r, hr, hc⟩ := h
  have hnone : allSome (rs.map s.field?) = none :=
    allSome_eq_none.mpr (List.mem_map.mpr ⟨r, hr, field?_of_not_canon hc⟩)
  simp only [exec, execConcatall, hregs, hnone]

/-- Settles O49: a source that is no field element, or no matrix of them, raises E_RANGE. -/
theorem arithmeticCommandsCheckRange : Obligations.ArithmeticCommandsCheckRange :=
  ⟨fun _ ed _ _ h => exec_fadd_fmul_feq_of_not_canon ed h, fun _ ed _ _ _ h => exec_fmuladd_of_not_canon ed h,
    fun _ md _ _ h => exec_mmul_of_not_canon md h,
    fun _ md _ _ _ h => ⟨extend_of_not_canon _ md h, extend_of_not_canon _ md h, extend_of_not_canon _ md h,
      extend_of_not_canon _ md h⟩,
    fun _ md _ h => exec_concatall_of_not_canon md h⟩

end Sys2Proof.Machine

namespace Sys2Proof

/-! ### Canonical and valid register values (R121, R124) -/

theorem Mat.canon_iff {M : Mat} : M.canon = true ↔ M.a.getLsbD 127 = false ∧ M.b.getLsbD 127 = false ∧
    M.c.getLsbD 127 = false ∧ M.d.getLsbD 127 = false := by
  simp only [Mat.canon, Bool.and_eq_true, Slot.canon_iff, and_assoc]

theorem Mat.valid_iff {M : Mat} : M.valid = true ↔ M.canon = true ∧ det M.elements = 1 := by
  rw [Mat.valid, Bool.and_eq_true, FMat.valid_iff]

theorem det_elements (M : Mat) : det M.elements =
    fmul (M.a.extractLsb' 0 127) (M.d.extractLsb' 0 127) ^^^
      fmul (M.b.extractLsb' 0 127) (M.c.extractLsb' 0 127) := by
  simp only [det, fadd, Mat.elements, setWidth_fe_eq_extractLsb']

/-- Settles O36: the model's checks, written with slot bits. -/
theorem validMeansCanonicalWithDeterminantOne : Obligations.ValidMeansCanonicalWithDeterminantOne := fun M =>
  ⟨by rw [← det_elements]; exact Mat.valid_iff, Mat.canon_iff⟩

/-- The register value of a matrix of field elements: each slot has range bit 0 above its element. -/
theorem reg_eq_zero_append (X : FMat) : X.reg = ⟨0#1 ++ X.a, 0#1 ++ X.b, 0#1 ++ X.c, 0#1 ++ X.d⟩ := by
  simp only [FMat.reg, setWidth_eq_zero_append]

/-! ### Comparison (R125) -/

theorem Mat.ext_iff_slots {M N : Mat} : M = N ↔ M.a = N.a ∧ M.b = N.b ∧ M.c = N.c ∧ M.d = N.d := by
  cases M
  cases N
  exact iff_of_eq (Mat.mk.injEq ..)

theorem meq_iff {M N : Mat} : meq M N = true ↔ M = N := beq_iff_eq

/-- One round of `mcmp`: slots that differ decide, equal ones leave it to the slots after them. -/
theorem ite_order_eq_then (x y : Slot) (o : Ordering) :
    (if x ≠ y then mcmp.order x y else o) = (compare x.toNat y.toNat).then o := by
  rw [mcmp.order]
  rcases Nat.lt_trichotomy x.toNat y.toNat with h | h | h
  · have hne : x ≠ y := fun he => absurd (congrArg BitVec.toNat he) h.ne
    rw [if_pos hne, if_pos h, Nat.compare_eq_lt.mpr h, Ordering.lt_then]
  · rw [if_neg (not_not.mpr (BitVec.eq_of_toNat_eq h)), Nat.compare_eq_eq.mpr h, Ordering.eq_then]
  · have hne : x ≠ y := fun he => absurd (congrArg BitVec.toNat he) h.ne'
    rw [if_pos hne, if_neg h.not_gt, Nat.compare_eq_gt.mpr h, Ordering.gt_then]

theorem mcmp_eq_then (M N : Mat) : mcmp M N = (compare M.a.toNat N.a.toNat).then
    ((compare M.b.toNat N.b.toNat).then ((compare M.c.toNat N.c.toNat).then (compare M.d.toNat N.d.toNat))) := by
  rw [mcmp, ite_order_eq_then, ite_order_eq_then, ite_order_eq_then, ite_order_eq_then, Ordering.then_eq]

theorem mcmp_eq_lt_iff {M N : Mat} : mcmp M N = .lt ↔ M.a.toNat < N.a.toNat ∨ (M.a = N.a ∧
    (M.b.toNat < N.b.toNat ∨ (M.b = N.b ∧ (M.c.toNat < N.c.toNat ∨ (M.c = N.c ∧ M.d.toNat < N.d.toNat))))) := by
  simp only [mcmp_eq_then, Ordering.then_eq_lt, Nat.compare_eq_lt, Nat.compare_eq_eq, BitVec.toNat_inj]

/-- Exchanging the registers reverses the comparison. -/
theorem swap_mcmp (M N : Mat) : (mcmp M N).swap = mcmp N M := by
  simp only [mcmp_eq_then, Ordering.swap_then, Nat.compare_swap]

theorem mcmp_eq_gt_iff {M N : Mat} : mcmp M N = .gt ↔ mcmp N M = .lt := by
  rw [← swap_mcmp M N, Ordering.swap_eq_lt]

/-- Settles O39: `mcmp` compares the slots as numbers, each deciding when those before it are equal. -/
theorem mcmpIsLexicographicOrder : Obligations.McmpIsLexicographicOrder := fun _ _ =>
  ⟨meq_iff.trans Mat.ext_iff_slots, Machine.mcmp_eq_iff, mcmp_eq_lt_iff, mcmp_eq_gt_iff⟩

/-! ### The monoid of matrices (R127, R135) -/

/-- Settles O40, by the determinant of a product. -/
theorem determinantIsMultiplicative : Obligations.DeterminantIsMultiplicative := fun X Y =>
  ⟨det_mmul X Y, valid_mmul⟩

/-- A matrix is determined by the residue classes of its entries. -/
theorem FMat.ext_residue {X Y : FMat} (ha : residue X.a = residue Y.a) (hb : residue X.b = residue Y.b)
    (hc : residue X.c = residue Y.c) (hd : residue X.d = residue Y.d) : X = Y :=
  FMat.ext_entries (residue_inj.mp ha) (residue_inj.mp hb) (residue_inj.mp hc) (residue_inj.mp hd)

theorem mmul_assoc (X Y Z : FMat) : mmul (mmul X Y) Z = mmul X (mmul Y Z) := by
  apply FMat.ext_residue <;> simp only [mmul_a, mmul_b, mmul_c, mmul_d, residue_fadd, residue_fmul] <;> ring

@[simp] theorem ident_mmul (X : FMat) : mmul ident X = X := by
  apply FMat.ext_residue <;> simp

@[simp] theorem mmul_ident (X : FMat) : mmul X ident = X := by
  apply FMat.ext_residue <;> simp

/-- Settles O41: the entries are sums of products in the residue ring. -/
theorem mmulIsMonoid : Obligations.MmulIsMonoid := ⟨mmul_assoc, fun X => ⟨ident_mmul X, mmul_ident X⟩⟩

end Sys2Proof

namespace Sys2Proof.Machine

variable {s : State}

/-! ### The group commands (R128 to R133) -/

/-- Settles O34: UNIT always writes the register value of the identity. -/
theorem unitCommand : Obligations.UnitCommand := by
  intro s md
  have h : ident.reg = ⟨1, 0, 0, 1⟩ := reg_ident
  rw [← h]
  exact done_setM s md ident.reg

/-- MMUL of two registers that hold matrices of field elements (R133). -/
theorem exec_mmul_of_reg (md : MIdx) {ma mb : MIdx} {X Y : FMat} (hX : s.getM ma = X.reg)
    (hY : s.getM mb = Y.reg) : exec (.mmul md ma mb) s = done [] (s.setM md (mmul X Y).reg) := by
  simp only [exec, execMmul, State.field?, hX, hY, field?_reg]

/-- Settles O35: canonical registers hold matrices of field elements, and MMUL writes their product. -/
theorem mmulCommand : Obligations.MmulCommand := by
  intro s md ma mb a b c d e f g h hX hY
  rw [← reg_eq_zero_append ⟨a, b, c, d⟩] at hX
  rw [← reg_eq_zero_append ⟨e, f, g, h⟩] at hY
  have hreg := reg_eq_zero_append (mmul ⟨a, b, c, d⟩ ⟨e, f, g, h⟩)
  simp only [mmul_a, mmul_b, mmul_c, mmul_d, fadd] at hreg
  rw [exec_mmul_of_reg md hX hY, ← hreg]
  exact done_setM s md _

theorem exec_validate_of_valid (md : MIdx) {ma : MIdx} (h : (s.getM ma).valid = true) :
    exec (.validate md ma) s = done [] (s.setM md (s.getM ma)) := by
  rw [exec, execValidate, if_pos h]

theorem exec_validate_of_not_valid (md : MIdx) {ma : MIdx} (h : (s.getM ma).valid = false) :
    exec (.validate md ma) s = raise .invalid s := by
  rw [exec, execValidate, h]
  rfl

theorem exec_isvalid {ma : MIdx} {b : Bool} (h : (s.getM ma).valid = b) :
    exec (.isvalid ma) s = doneFlag b [truthByte b] s := by
  rw [exec, execIsvalid, h]

/-- Settles O37: both commands branch on the validity of the register. -/
theorem isvalidAndValidateCommands : Obligations.IsvalidAndValidateCommands := by
  refine fun s md ma => ⟨fun h => ⟨exec_isvalid h, ?_⟩, fun h => ⟨exec_isvalid h, ?_⟩⟩
  · rw [exec_validate_of_valid md h]; exact done_setM s md _
  · exact exec_validate_of_not_valid md h

theorem exec_meq {ma mb : MIdx} {b : Bool} (h : meq (s.getM ma) (s.getM mb) = b) :
    exec (.meq ma mb) s = doneFlag b [truthByte b] s := by
  rw [exec, execMeq, h]

theorem exec_mcmp {ma mb : MIdx} {o : Ordering} (h : mcmp (s.getM ma) (s.getM mb) = o) :
    exec (.mcmp ma mb) s = doneFlag (orderFlag o) [orderByte o] s := by
  rw [exec, execMcmp, h]

/-- Settles O38: the answers are those of `meq` and `mcmp`, which agree on equality. -/
theorem compareCommands : Obligations.CompareCommands := fun _ _ _ =>
  ⟨fun h => ⟨exec_meq (meq_iff.mpr h), exec_mcmp (mcmp_eq_iff.mpr h)⟩,
    fun h => exec_meq (Bool.eq_false_iff.mpr (mt meq_iff.mp h)), fun h => exec_mcmp h, fun h => exec_mcmp h⟩

end Sys2Proof.Machine

namespace Sys2Proof

/-! ### The generator table (R141, R143, R145) -/

/-- Settles O42: the product is associative, and products of valid matrices are valid. -/
theorem tableEntryIsOrderedProduct : Obligations.TableEntryIsOrderedProduct := fun G v =>
  ⟨by simp only [GT_eq, mmul_assoc], fun hG => valid_GT hG v⟩

section
variable (G : GenPair)

/-- Multiplying by the bit generators of one byte, bit 7 first, is multiplying by its table entry. -/
theorem foldl_bit_eq_mmul_GT (X : FMat) (v : Byte) :
    ([7, 6, 5, 4, 3, 2, 1, 0].map fun i => v.getLsbD i).foldl (fun X t => mmul X (G.bit t)) X =
      mmul X (GT G v) := by
  simp only [List.map_cons, List.map_nil, List.foldl_cons, List.foldl_nil, GT_eq, mmul_assoc]

theorem hashBytes_singleton (v : Byte) : hashBytes G [v] = GT G v := by
  rw [hashBytes, appendBytes_cons, appendBytes_nil, ident_mmul]

end

/-- Settles O43, by induction on the message. -/
theorem byteFoldIsBitFold : Obligations.ByteFoldIsBitFold := by
  intro G H msg
  induction msg generalizing H with
  | nil => rw [appendBytes_nil, List.flatMap_nil, List.foldl_nil]
  | cons v msg ih =>
    rw [appendBytes_cons, ih, List.flatMap_cons, List.foldl_append, foldl_bit_eq_mmul_GT]

/-! ### The default pair (R144) -/

@[simp] theorem default_g0 : GenPair.default.g0 = ⟨2#127, 1#127, 1#127, 0#127⟩ := rfl
@[simp] theorem default_g1 : GenPair.default.g1 = ⟨2#127, 3#127, 1#127, 1#127⟩ := rfl

theorem one_fmul (a : Fe) : fmul 1#127 a = a := by rw [fmul_comm, fmul_one]

theorem zero_fmul (a : Fe) : fmul 0#127 a = 0#127 := by rw [fmul_comm, fmul_zero]

section
variable (M : FMat)

theorem mmul_default_g0 : mmul M GenPair.default.g0 =
    ⟨fmul M.a 2#127 ^^^ M.b, M.a, fmul M.c 2#127 ^^^ M.d, M.c⟩ := by
  simp only [mmul, default_g0, fmul_one, fmul_zero, fadd, BitVec.xor_zero]

/-- A sum with a product by x + 1 reuses the one with the product by x: `a (x + 1) + b = a + (a x + b)`. -/
theorem fmul_three_xor (a b : Fe) : fmul a 3#127 ^^^ b = a ^^^ (fmul a 2#127 ^^^ b) := by
  rw [fmul_three, BitVec.xor_comm _ a, BitVec.xor_assoc]

theorem mmul_default_g1 : mmul M GenPair.default.g1 =
    ⟨fmul M.a 2#127 ^^^ M.b, M.a ^^^ (fmul M.a 2#127 ^^^ M.b), fmul M.c 2#127 ^^^ M.d,
      M.c ^^^ (fmul M.c 2#127 ^^^ M.d)⟩ := by
  simp only [mmul, default_g1, fmul_one, fadd, fmul_three_xor]

theorem default_g0_mmul : mmul GenPair.default.g0 M =
    ⟨fmul M.a 2#127 ^^^ M.c, fmul M.b 2#127 ^^^ M.d, M.a, M.b⟩ := by
  simp only [mmul, default_g0, fmul_comm 2#127, one_fmul, zero_fmul, fadd, BitVec.xor_zero]

theorem default_g1_mmul : mmul GenPair.default.g1 M =
    ⟨fmul M.a 2#127 ^^^ fmul M.c 3#127, fmul M.b 2#127 ^^^ fmul M.d 3#127, M.a ^^^ M.c, M.b ^^^ M.d⟩ := by
  simp only [mmul, default_g1, fmul_comm 2#127, fmul_comm 3#127, one_fmul, fadd]

end

/-- Settles O44: the entries of the pair are 0, 1, x and x + 1. -/
theorem defaultPairNeedsOnlyShifts : Obligations.DefaultPairNeedsOnlyShifts :=
  ⟨Machine.valid_default, fun M =>
    ⟨mmul_default_g0 M, mmul_default_g1 M, default_g0_mmul M, default_g1_mmul M⟩⟩

end Sys2Proof

namespace Sys2Proof.Machine

/-! ### BYTEMAT (R142) -/

/-- BYTEMAT is HASH of its one byte. -/
theorem exec_hash_singleton (s : State) (md : MIdx) (v : Byte) :
    exec (.hash md [v]) s = exec (.bytemat md v) s := by
  simp only [exec, execHash, execBytemat, hashBytes_singleton]

/-- Settles O45: BYTEMAT writes one register, and HASH of one byte is the same command. -/
theorem bytematCommand : Obligations.BytematCommand := by
  intro s md v
  obtain ⟨t, ht, ha, hw⟩ := done_setM (s := s) md (GT s.gen v).reg
  exact ⟨t, ht, ha, hw, (exec_hash_singleton s md v).trans ht⟩

end Sys2Proof.Machine

namespace Sys2Proof

section
variable (G : GenPair)

/-! ### The folds as products (R150 to R152, R156, R161, R162) -/

/-- A left factor passes through an append. -/
theorem mmul_appendBytes (X H : FMat) (msg : List Byte) :
    mmul X (appendBytes G H msg) = appendBytes G (mmul X H) msg := by
  induction msg generalizing H with
  | nil => simp only [appendBytes_nil]
  | cons v msg ih => rw [appendBytes_cons, ih, appendBytes_cons, mmul_assoc]

/-- Appending a message is multiplying by its hash on the right. -/
theorem mmul_hashBytes (H : FMat) (msg : List Byte) : mmul H (hashBytes G msg) = appendBytes G H msg := by
  rw [hashBytes, mmul_appendBytes, mmul_ident]

/-- The hash is a homomorphism (R162). -/
theorem hashBytes_append (s₁ s₂ : List Byte) :
    hashBytes G (s₁ ++ s₂) = mmul (hashBytes G s₁) (hashBytes G s₂) := by
  rw [mmul_hashBytes, hashBytes, appendBytes_append, ← hashBytes]

@[simp] theorem hashBytes_nil : hashBytes G [] = ident := by rw [hashBytes, appendBytes_nil]

theorem hashBytes_cons (v : Byte) (msg : List Byte) :
    hashBytes G (v :: msg) = mmul (GT G v) (hashBytes G msg) := by
  rw [← List.singleton_append, hashBytes_append, hashBytes_singleton]

/-- Prepending a message is multiplying by its hash on the left. -/
theorem hashBytes_mmul (H : FMat) (msg : List Byte) : mmul (hashBytes G msg) H = prependBytes G msg H := by
  induction msg with
  | nil => rw [hashBytes_nil, ident_mmul, prependBytes_nil]
  | cons v msg ih => rw [hashBytes_cons, mmul_assoc, ih, prependBytes_cons]

/-- Appending chunk by chunk is appending the joined chunks. -/
theorem foldAppend_eq_appendBytes_flatten (H : FMat) (cs : List (List Byte)) :
    foldAppend G H cs = appendBytes G H cs.flatten := by
  induction cs generalizing H with
  | nil => rw [foldAppend_nil, List.flatten_nil, appendBytes_nil]
  | cons c cs ih => rw [foldAppend_cons, ih, List.flatten_cons, appendBytes_append]

/-- Prepending chunk by chunk, the last one first, is prepending the joined chunks. -/
theorem foldPrepend_eq_prependBytes_flatten (H : FMat) (cs : List (List Byte)) :
    foldPrepend G cs H = prependBytes G cs.flatten H := by
  induction cs with
  | nil => rw [foldPrepend_nil, List.flatten_nil, prependBytes_nil]
  | cons c cs ih => rw [foldPrepend_cons, ih, List.flatten_cons, prependBytes_append]

end

/-- Settles O50: the byte folds are products with the hash, and the chunk folds are byte folds. -/
theorem foldsAreMultiplicationByHash : Obligations.FoldsAreMultiplicationByHash := by
  intro G H msg cs
  refine ⟨mmul_hashBytes G H msg, hashBytes_mmul G H msg, ?_, ?_⟩
  · rw [mmul_hashBytes, foldAppend_eq_appendBytes_flatten]
  · rw [hashBytes_mmul, foldPrepend_eq_prependBytes_flatten]

/-! ### The product of a list (R159, R162) -/

theorem foldl_mmul_eq_mmul_concatAll (X : FMat) (Xs : List FMat) : Xs.foldl mmul X = mmul X (concatAll Xs) := by
  induction Xs generalizing X with
  | nil => rw [List.foldl_nil, concatAll_nil, mmul_ident]
  | cons Y Ys ih => rw [List.foldl_cons, ih, concatAll_cons, ih, mmul_assoc]

/-- The left fold of R159 is also the product from the right. -/
theorem concatAll_cons_eq_mmul (X : FMat) (Xs : List FMat) : concatAll (X :: Xs) = mmul X (concatAll Xs) := by
  rw [concatAll_cons, foldl_mmul_eq_mmul_concatAll]

@[simp] theorem concatAll_singleton (X : FMat) : concatAll [X] = X := by rw [concatAll_cons, List.foldl_nil]

theorem concatAll_append (Xs Ys : List FMat) : concatAll (Xs ++ Ys) = mmul (concatAll Xs) (concatAll Ys) := by
  induction Xs with
  | nil => rw [List.nil_append, concatAll_nil, ident_mmul]
  | cons X Xs ih => rw [List.cons_append, concatAll_cons_eq_mmul, ih, concatAll_cons_eq_mmul, mmul_assoc]

/-- The hashes of the chunks of a message multiply, in chunk order, to its hash. -/
theorem concatAll_map_hashBytes (G : GenPair) (cs : List (List Byte)) :
    concatAll (cs.map (hashBytes G)) = hashBytes G cs.flatten := by
  induction cs with
  | nil => rw [List.map_nil, concatAll_nil, List.flatten_nil, hashBytes_nil]
  | cons c cs ih => rw [List.map_cons, concatAll_cons_eq_mmul, ih, List.flatten_cons, hashBytes_append]

/-- Settles O51: both laws hold because `mmul` is associative with neutral `ident`. -/
theorem hashIsHomomorphism : Obligations.HashIsHomomorphism := fun G =>
  ⟨hashBytes_append G, concatAll_map_hashBytes G, concatAll_append⟩

end Sys2Proof

namespace Sys2Proof.Machine

variable {s t : State}

/-! ### The engine commands (R153 to R159) -/

/-- A source that holds a matrix of field elements is extended. -/
theorem extend_of_reg (f : FMat → FMat) (md : MIdx) {ms : MIdx} {H : FMat} (h : s.getM ms = H.reg) :
    extend f md ms s = done [] (s.setM md (f H).reg) := by
  simp only [extend, State.field?, h, field?_reg]

/-- The commands that extend `ms` into `md` answer OK and write `md` alone. -/
theorem extend_completes (f : FMat → FMat) (md : MIdx) {ms : MIdx} {H : FMat} (h : s.getM ms = H.reg) :
    ∃ t, extend f md ms s = .next t ∧ s.Answered t codeOk s.st.t [] ∧ s.WroteOnly t md (f H).reg := by
  rw [extend_of_reg f md h]
  exact done_setM s md _

/-- Settles O46: HASH writes one register and APPEND, PREPEND extend one; the folds take their bytes in the order
of R150 and R151. -/
theorem hashAppendPrependCommands : Obligations.HashAppendPrependCommands := by
  refine ⟨fun s md msg => done_setM s md _, fun s md ms msg H h => ⟨extend_completes _ md h, extend_completes _ md h⟩,
    fun G H msg v => ⟨appendBytes_nil G H, ?_, prependBytes_nil G H, prependBytes_cons G v msg H⟩⟩
  rw [appendBytes_append, appendBytes_cons, appendBytes_nil]

/-- Settles O47: FOLDAPP, FOLDPRE extend one register; the folds take their chunks in the order of R156. -/
theorem foldCommands : Obligations.FoldCommands := by
  refine ⟨fun s md ms cs H h => ⟨extend_completes _ md h, extend_completes _ md h⟩,
    fun G H cs c => ⟨foldAppend_nil G H, ?_, foldPrepend_nil G H, foldPrepend_cons G c cs H⟩⟩
  simp only [foldAppend_eq_appendBytes_flatten, List.flatten_append, List.flatten_singleton, appendBytes_append]

/-- A register number above 7 is illegal, whatever the registers hold (R159, R217). -/
theorem exec_concatall_of_illegal (md : MIdx) {regs : List Byte} (h : ∃ b ∈ regs, 7 < b.toNat) :
    exec (.concatall md regs) s = raise .illegal s := by
  obtain ⟨b, hb, h7⟩ := h
  have hnone : allSome (regs.map regNumber?) = none :=
    allSome_eq_none.mpr (List.mem_map.mpr ⟨b, hb, regNumber?_eq_none.mpr h7⟩)
  simp only [exec, execConcatall, hnone]

/-- The bytes of register numbers 0 to 7 name those registers. -/
theorem allSome_regNumber? (rs : List MIdx) :
    allSome ((rs.map fun r => BitVec.ofNat 8 r.val).map regNumber?) = some rs := by
  rw [allSome_eq_some, List.map_map]
  exact List.map_congr_left fun r _ => regNumber?_eq_some.mpr rfl

/-- Registers that hold matrices of field elements are all read. -/
theorem allSome_field?_of_reg {rs : List MIdx} {Xs : List FMat}
    (h : rs.map (fun r => s.getM r) = Xs.map FMat.reg) : allSome (rs.map s.field?) = some Xs := by
  rw [allSome_eq_some]
  calc rs.map s.field? = (rs.map fun r => s.getM r).map Mat.field? := List.map_map.symm
    _ = (Xs.map FMat.reg).map Mat.field? := by rw [h]
    _ = Xs.map some := by rw [List.map_map]; exact List.map_congr_left fun X _ => field?_reg X

/-- CONCATALL of registers that hold matrices of field elements writes their product. -/
theorem exec_concatall_of_reg (md : MIdx) {rs : List MIdx} {Xs : List FMat}
    (h : rs.map (fun r => s.getM r) = Xs.map FMat.reg) :
    exec (.concatall md (rs.map fun r => BitVec.ofNat 8 r.val)) s = done [] (s.setM md (concatAll Xs).reg) := by
  simp only [exec, execConcatall, allSome_regNumber?, allSome_field?_of_reg h]

/-- Settles O48: the numbers are checked before the registers, and the product is the one of `concatAll`. -/
theorem concatallCommand : Obligations.ConcatallCommand := by
  refine ⟨fun s md regs h => exec_concatall_of_illegal md h, fun s md rs h => exec_concatall_of_not_canon md h,
    fun s md rs Xs h => ?_, concatAll_nil, concatAll_singleton, fun Xs Y _ => ?_⟩
  · rw [exec_concatall_of_reg md h]; exact done_setM s md _
  · rw [concatAll_append, concatAll_singleton]

/-! ### Sequences of engine commands (R161, R163) -/

/-- A canonical register holds a matrix of field elements. -/
theorem exists_reg_of_canon {r : MIdx} (h : (s.getM r).canon = true) : ∃ H : FMat, s.getM r = H.reg :=
  ⟨_, (reg_elements h).symm⟩

theorem wroteOnly_of_done_setM {md : MIdx} {v : Mat} (h : done [] (s.setM md v) = .next t) :
    s.WroteOnly t md v := by
  obtain ⟨u, hu, -, hw⟩ := done_setM s md v
  cases hu.symm.trans h
  exact hw

theorem State.WroteOnly.getM_same {md : MIdx} {v : Mat} (h : s.WroteOnly t md v) : t.getM md = v :=
  (h md).trans (if_pos rfl)

theorem State.WroteOnly.getM_ne {md r : MIdx} {v : Mat} (h : s.WroteOnly t md v) (hr : r ≠ md) :
    t.getM r = s.getM r := (h r).trans (if_neg hr)

theorem getM_of_extend {f : FMat → FMat} {md ms : MIdx} {H : FMat} (hH : s.getM ms = H.reg)
    (h : extend f md ms s = .next t) : t.getM md = (f H).reg := by
  rw [extend_of_reg f md hH] at h
  exact (wroteOnly_of_done_setM h).getM_same

theorem wroteOnly_of_exec_hash {md : MIdx} {msg : List Byte} (h : exec (.hash md msg) s = .next t) :
    s.WroteOnly t md (hashBytes s.gen msg).reg := wroteOnly_of_done_setM h

theorem getM_of_exec_mmul {md ma mb : MIdx} {X Y : FMat} (hX : s.getM ma = X.reg) (hY : s.getM mb = Y.reg)
    (h : exec (.mmul md ma mb) s = .next t) : t.getM md = (mmul X Y).reg := by
  rw [exec_mmul_of_reg md hX hY] at h
  exact (wroteOnly_of_done_setM h).getM_same

/-- A run of one command is that command. -/
theorem exec_of_runCommands_singleton {i : Instr} (h : runCommands [i] s = .next t) : exec i s = .next t := by
  obtain ⟨u, hu, ht⟩ := runCommands_cons h
  cases ht
  exact hu

/-- A run of commands that each extend `md` in place by one chunk folds the chunks into `md`. -/
theorem getM_of_run_extends {cmd : List Byte → Instr} {f : GenPair → FMat → List Byte → FMat} {md : MIdx}
    (hcmd : ∀ s c, exec (cmd c) s = extend (fun H => f s.gen H c) md md s) {cs : List (List Byte)} {H : FMat}
    (hH : s.getM md = H.reg) (h : runCommands (cs.map cmd) s = .next t) :
    t.getM md = (cs.foldl (f s.gen) H).reg := by
  induction cs generalizing s H with
  | nil => cases h; exact hH
  | cons c cs ih =>
    obtain ⟨u, hu, ht⟩ := runCommands_cons h
    have hgen := exec_gen hu
    rw [hcmd] at hu
    rw [List.foldl_cons, ← hgen]
    exact ih (by rw [hgen]; exact getM_of_extend hH hu) ht

theorem getM_of_run_appends {md : MIdx} {cs : List (List Byte)} {H : FMat} (hH : s.getM md = H.reg)
    (h : runCommands (cs.map fun c => .append md md c) s = .next t) :
    t.getM md = (foldAppend s.gen H cs).reg :=
  getM_of_run_extends (f := appendBytes) (fun _ _ => rfl) hH h

/-- Prepending the chunks one by one from the last is FOLDPRE's fold. -/
theorem getM_of_run_prepends {md : MIdx} {cs : List (List Byte)} {H : FMat} (hH : s.getM md = H.reg)
    (h : runCommands (cs.reverse.map fun c => .prepend md md c) s = .next t) :
    t.getM md = (foldPrepend s.gen cs H).reg := by
  rw [getM_of_run_extends (f := fun G H c => prependBytes G c H) (fun _ _ => rfl) hH h, List.foldl_reverse,
    foldPrepend]

/-- HASH into `m1` leaves another register as it was, so that MMUL can multiply the two. -/
theorem getM_of_run_hash {m0 m1 : MIdx} {msg : List Byte} {i : Instr} {H : FMat} (hne : m1 ≠ m0)
    (hH : s.getM m0 = H.reg) (h : runCommands [.hash m1 msg, i] s = .next t) :
    ∃ v : State, v.getM m0 = H.reg ∧ v.getM m1 = (hashBytes s.gen msg).reg ∧ exec i v = .next t := by
  obtain ⟨v, hv, ht⟩ := runCommands_cons h
  have hw := wroteOnly_of_exec_hash hv
  exact ⟨v, (hw.getM_ne hne.symm).trans hH, hw.getM_same, exec_of_runCommands_singleton ht⟩

/-- Settles O52: both sides of each clause hold the register value of one fold. -/
theorem commandSequencesAgree : Obligations.CommandSequencesAgree := by
  refine ⟨fun s t u m0 m1 m2 msg hne hc ht hu => ?_, fun s t u m0 m1 m2 msg hne hc ht hu => ?_,
    fun s t u m0 m1 c cs hc ht hu => ?_, fun s t u m0 m1 c cs hc ht hu => ?_, fun s t u md p ps ht hu => ?_⟩
  · obtain ⟨H, hH⟩ := exists_reg_of_canon hc
    obtain ⟨v, h0, h1, hmul⟩ := getM_of_run_hash hne hH ht
    rw [getM_of_exec_mmul h0 h1 hmul, mmul_hashBytes, getM_of_extend hH hu]
  · obtain ⟨H, hH⟩ := exists_reg_of_canon hc
    obtain ⟨v, h0, h1, hmul⟩ := getM_of_run_hash hne hH ht
    rw [getM_of_exec_mmul h1 h0 hmul, hashBytes_mmul, getM_of_extend hH hu]
  · obtain ⟨H, hH⟩ := exists_reg_of_canon hc
    obtain ⟨v, hv, hrun⟩ := runCommands_cons ht
    rw [getM_of_run_appends (getM_of_extend hH hv) hrun, exec_gen hv, ← foldAppend_cons, getM_of_extend hH hu]
  · obtain ⟨H, hH⟩ := exists_reg_of_canon hc
    obtain ⟨v, hv, hrun⟩ := runCommands_cons ht
    rw [getM_of_run_prepends (getM_of_extend hH hv) hrun, exec_gen hv, getM_of_extend hH hu]
    simp only [foldPrepend_eq_prependBytes_flatten, List.flatten_append, List.flatten_singleton,
      prependBytes_append]
  · obtain ⟨v, hv, hrun⟩ := runCommands_cons ht
    rw [getM_of_run_appends (wroteOnly_of_exec_hash hv).getM_same hrun, exec_gen hv,
      (wroteOnly_of_exec_hash hu).getM_same, foldAppend_eq_appendBytes_flatten, hashBytes, hashBytes,
      appendBytes_append]

end Sys2Proof.Machine

namespace Sys2Proof

/-! ### Words of a register value (R53, R81, R170) -/

/-- The first `n` words of `w` bits of a register value, word 0 the lowest (R53). -/
def Mat.words (M : Mat) (w n : Nat) : List (BitVec w) :=
  (List.range n).map fun j => M.bits.extractLsb' (w * j) w

theorem words_eq_leDigits (M : Mat) (w n : Nat) : M.words w n = leDigits w n M.bits.toNat := by
  simp only [Mat.words, extractLsb'_eq_ofNat, leDigits_eq_map]

@[simp] theorem length_words (M : Mat) (w n : Nat) : (M.words w n).length = n := by
  rw [words_eq_leDigits, length_leDigits]

theorem lenFits_words (M : Mat) (w : Nat) {n : Nat} (hn : n ≤ 16383) : lenFits (M.words w n) = true := by
  rwa [lenFits_iff, length_words]

theorem footprint_eq_words (M : Mat) : footprint M = M.words 8 64 := (words_eq_leDigits M 8 64).symm

theorem wordBytes_words {w k n : Nat} (hw : 8 * k = w) (hn : k * n = 64) (M : Mat) :
    wordBytes k (M.words w n) = footprint M := wordBytes_extractLsb' hw hn M

/-- Words that make up a register value assemble to it (R81, R170). -/
theorem ofWords_words {w n : Nat} (h : w * n = 512) (M : Mat) : ofWords (M.words w n) = M := by
  rw [ofWords, words_eq_leDigits, leNat_leDigits, h, Nat.mod_eq_of_lt M.bits.isLt, BitVec.ofNat_toNat,
    BitVec.setWidth_eq, ofBits_bits]

/-- A list of the right length is the word list of the value it assembles to. -/
theorem words_ofWords {w n : Nat} (h : w * n = 512) {ws : List (BitVec w)} (hl : ws.length = n) :
    (ofWords ws).words w n = ws := by
  subst hl
  rw [words_eq_leDigits, ofWords, bits_ofBits, BitVec.toNat_ofNat, Nat.mod_eq_of_lt (h ▸ leNat_lt ws),
    leDigits_leNat]

/-! ### The text form (R180, R182) -/

/-- The text of a list of bytes: two hexadecimal digits per byte, the high nibble first (R180). -/
def bytesText (F : List Byte) : List Byte :=
  F.flatMap fun b => [hexDigit (b.extractLsb' 4 4), hexDigit (b.extractLsb' 0 4)]

theorem bytesText_cons (b : Byte) (F : List Byte) : bytesText (b :: F) =
    hexDigit (b.extractLsb' 4 4) :: hexDigit (b.extractLsb' 0 4) :: bytesText F := rfl

theorem showText_eq_bytesText (M : Mat) : showText M = bytesText (footprint M) := rfl

theorem length_bytesText (F : List Byte) : (bytesText F).length = 2 * F.length := by
  induction F with
  | nil => rfl
  | cons b F ih => rw [bytesText_cons, List.length_cons, List.length_cons, ih, List.length_cons]; omega

/-- Characters 2k and 2k + 1 are the digits of byte k. -/
theorem getElem?_bytesText (F : List Byte) (k : Nat) :
    (bytesText F)[2 * k]? = F[k]?.map (fun b => hexDigit (b.extractLsb' 4 4)) ∧
      (bytesText F)[2 * k + 1]? = F[k]?.map (fun b => hexDigit (b.extractLsb' 0 4)) := by
  induction F generalizing k with
  | nil => exact ⟨rfl, rfl⟩
  | cons b F ih =>
    cases k with
    | zero => exact ⟨rfl, rfl⟩
    | succ k => exact ih k

theorem hexDigit_range (n : BitVec 4) : (0x30 ≤ (hexDigit n).toNat ∧ (hexDigit n).toNat ≤ 0x39) ∨
    (0x61 ≤ (hexDigit n).toNat ∧ (hexDigit n).toNat ≤ 0x66) := by
  revert n; decide

/-- The value of a digit, read off its character code. -/
theorem toNat_eq_of_hexDigit (n : BitVec 4) : n.toNat =
    if (hexDigit n).toNat < 0x61 then (hexDigit n).toNat - 0x30 else (hexDigit n).toNat - 0x61 + 10 := by
  revert n; decide

/-- The characters with a value are the digits (R182). -/
theorem hexValue?_eq_some {c : Byte} {n : BitVec 4} : hexValue? c = some n ↔ c = hexDigit n := by
  have digit : ∀ c : Byte, ∀ n ∈ hexValue? c, c = hexDigit n := by decide
  exact ⟨digit c n, fun h => h ▸ hexValue?_hexDigit n⟩

theorem mem_bytesText {F : List Byte} {c : Byte} (h : c ∈ bytesText F) : ∃ n, c = hexDigit n := by
  obtain ⟨b, -, hb⟩ := List.mem_flatMap.mp h
  rw [List.mem_pair] at hb
  exact hb.elim (fun h => ⟨_, h⟩) fun h => ⟨_, h⟩

theorem extractLsb'_append_nibbles (x y : BitVec 4) :
    (x ++ y).extractLsb' 4 4 = x ∧ (x ++ y).extractLsb' 0 4 = y := by
  revert x y; decide

theorem append_extractLsb'_nibbles (b : Byte) : b.extractLsb' 4 4 ++ b.extractLsb' 0 4 = b := by
  revert b; decide

/-- R182: a text is read as bytes exactly when it is the text of those bytes. -/
theorem textBytes?_eq_some {t F : List Byte} : textBytes? t = some F ↔ t = bytesText F := by
  constructor
  · intro h
    induction t using textBytes?.induct generalizing F with
    | case1 => cases h; rfl
    | case2 => cases h
    | case3 hi lo rest x y bs hbs hlo hhi ih =>
      simp only [textBytes?, hbs, hlo, hhi, Option.some.injEq] at h
      obtain ⟨hx, hy⟩ := extractLsb'_append_nibbles x y
      rw [← h, bytesText_cons, hx, hy, ← hexValue?_eq_some.mp hhi, ← hexValue?_eq_some.mp hlo, ← ih hbs]
    | case4 hi lo rest hnone =>
      rw [textBytes?] at h
      split at h
      · next hhi hlo hbs => exact (hnone _ _ _ hhi hlo hbs).elim
      · cases h
  · rintro rfl
    induction F with
    | nil => rfl
    | cons b F ih =>
      simp only [bytesText_cons, textBytes?, hexValue?_hexDigit, ih, append_extractLsb'_nibbles]

/-- R182: a text is read as a register value exactly when it is the text form of that value. -/
theorem textMat?_eq_some {t : List Byte} {M : Mat} : textMat? t = some M ↔ t = showText M := by
  constructor
  · intro h
    rw [textMat?] at h
    split at h
    · next hl =>
      obtain ⟨F, hF, rfl⟩ := Option.map_eq_some_iff.mp h
      rw [textBytes?_eq_some] at hF
      rw [hF, length_bytesText] at hl
      rw [hF, showText_eq_bytesText, footprint_eq_words, words_ofWords rfl (by omega)]
    · cases h
  · rintro rfl
    rw [textMat?, if_pos (Machine.length_showText M), textBytes?_eq_some.mpr (showText_eq_bytesText M),
      Option.map_some, footprint_eq_words, ofWords_words rfl]

/-- A list of another length, or with a character that is no digit, is no text form (R182). -/
theorem textMat?_eq_none {t : List Byte} (h : t.length ≠ 128 ∨ ∃ c ∈ t,
    ¬ ((0x30 ≤ c.toNat ∧ c.toNat ≤ 0x39) ∨ (0x61 ≤ c.toNat ∧ c.toNat ≤ 0x66))) : textMat? t = none := by
  rw [Option.eq_none_iff_forall_ne_some]
  intro M hM
  rw [textMat?_eq_some] at hM
  subst hM
  rcases h with h | ⟨c, hc, h⟩
  · exact h (Machine.length_showText M)
  · obtain ⟨n, rfl⟩ := mem_bytesText hc
    exact h (hexDigit_range n)

theorem showText_injective : Function.Injective showText := fun M N h => by
  have hM : textMat? (showText M) = some M := textMat?_eq_some.mpr rfl
  exact Option.some.inj (hM.symm.trans (textMat?_eq_some.mpr h))

theorem parseText_eq_some {t : List Byte} {M : Mat} :
    parseText t = some M ↔ t = showText M ∧ M.valid = true := by
  rw [parseText, ← textMat?_eq_some]
  cases textMat? t with
  | none => simp
  | some N =>
    simp only [Option.ite_none_right_eq_some, Option.some.injEq, and_comm (a := N = M)]
    exact and_congr_left fun h => by rw [h]

/-- A nibble of a byte of a number is a nibble of the number. -/
theorem extractLsb'_nibble_of_byte {m : Nat} (x : BitVec m) (k i : Nat) (hi : i ≤ 4) :
    (x.extractLsb' k 8).extractLsb' i 4 = x.extractLsb' (k + i) 4 := by
  apply BitVec.eq_of_getLsbD_eq
  intro j hj
  simp only [BitVec.getLsbD_extractLsb', hj, Nat.add_assoc, decide_true, Bool.true_and,
    show i + j < 8 by omega]

/-- Settles O58: the text is the digits of the footprint bytes, and reading it gives back the value. -/
theorem textFormOfRegister : Obligations.TextFormOfRegister := by
  refine ⟨fun M => ⟨Machine.length_showText M, fun k hk => ?_⟩, showText_injective⟩
  obtain ⟨hhi, hlo⟩ := getElem?_bytesText (footprint M) k
  rw [getElem?_footprint M hk, Option.map_some, extractLsb'_nibble_of_byte _ _ _ (by decide)] at hhi hlo
  refine ⟨_, _, hhi, hlo, toNat_eq_of_hexDigit _, toNat_eq_of_hexDigit _, ?_⟩
  simp only [List.forall_mem_cons, List.not_mem_nil, false_implies, implies_true, and_true]
  exact ⟨hexDigit_range _, hexDigit_range _⟩

end Sys2Proof

namespace Sys2Proof.Machine

variable {s : State}

/-! ### The loads (R170 to R174, R182 to R184) -/

/-- The load that ends PACKw and PARSE: `M` goes to `md` when it is valid, and is refused otherwise (R170, R183). -/
def checkedLoad (md : MIdx) (M : Mat) (s : State) : Out :=
  if M.valid then done [] (s.setM md M) else raise .invalid s

theorem checkedLoad_of_valid (md : MIdx) {M : Mat} (h : M.valid = true) :
    checkedLoad md M s = done [] (s.setM md M) := if_pos h

theorem checkedLoad_of_not_valid (md : MIdx) {M : Mat} (h : M.valid = false) :
    checkedLoad md M s = raise .invalid s := if_neg (by rw [h]; decide)

/-- What a checked load answers: E_INVALID, or OK with `md` written alone. -/
theorem checkedLoad_completes (s : State) (md : MIdx) (M : Mat) :
    (M.valid = false → checkedLoad md M s = .next (s.failed Err.invalid.code)) ∧
    (M.valid = true → ∃ t, checkedLoad md M s = .next t ∧ s.Answered t codeOk s.st.t [] ∧ s.WroteOnly t md M) :=
  ⟨fun h => checkedLoad_of_not_valid md h, fun h => by rw [checkedLoad_of_valid md h]; exact done_setM s md M⟩

section
variable {w n : Nat} (hw : 512 / w = n)
include hw

theorem pack_of_length_ne (md : MIdx) {ws : List (BitVec w)} (h : ws.length ≠ n) :
    pack md ws s = raise .len s := by
  rw [pack, hw, if_neg h]

/-- The word list of `M`, in any width, loads `M` (R170). -/
theorem pack_words (hn : w * n = 512) (md : MIdx) (M : Mat) : pack md (M.words w n) s = checkedLoad md M s := by
  rw [pack, hw, if_pos (length_words M w n), ofWords_words hn, checkedLoad]

/-- All that a PACKw of one width does with a list of words. -/
theorem pack_completes (hn : w * n = 512) (s : State) (md : MIdx) (ws : List (BitVec w)) :
    (ws.length ≠ n → pack md ws s = .next (s.failed Err.len.code)) ∧
    (ws.length = n → ∃ M : Mat, ws = M.words w n) ∧
    ∀ M : Mat, ws = M.words w n →
      (M.valid = false → pack md ws s = .next (s.failed Err.invalid.code)) ∧
      (M.valid = true → ∃ t, pack md ws s = .next t ∧ s.Answered t codeOk s.st.t [] ∧ s.WroteOnly t md M) := by
  refine ⟨fun h => pack_of_length_ne hw md h, fun h => ⟨ofWords ws, (words_ofWords hn h).symm⟩, ?_⟩
  rintro M rfl
  rw [pack_words hw hn]
  exact checkedLoad_completes s md M

end

/-- Settles O53: the four commands are one load, at four widths. -/
theorem packCommands : Obligations.PackCommands := fun s md =>
  ⟨pack_completes rfl rfl s md, pack_completes rfl rfl s md, pack_completes rfl rfl s md,
    pack_completes rfl rfl s md⟩

theorem exec_loadu_of_length (md : MIdx) {ws : List (BitVec 8)} (h : ws.length = 64) :
    exec (.loadu md ws) s = done [] (s.setM md (ofWords ws)) := by
  rw [exec, execLoadu, if_pos h]

theorem exec_loadu_of_length_ne (md : MIdx) {ws : List (BitVec 8)} (h : ws.length ≠ 64) :
    exec (.loadu md ws) s = raise .len s := by
  rw [exec, execLoadu, if_neg h]

/-- Settles O54: 64 bytes assemble to the value they are the footprint of. -/
theorem loaduCommand : Obligations.LoaduCommand := by
  refine fun s md ws => ⟨fun h => exec_loadu_of_length_ne md h, fun h => ?_⟩
  rw [exec_loadu_of_length md h]
  obtain ⟨t, ht, ha, hw⟩ := done_setM s md (ofWords ws)
  exact ⟨ofWords ws, t, ht, ha, hw, (words_ofWords rfl h).symm⟩

theorem exec_parse_of_not_text (md : MIdx) {t : List Byte} (h : textMat? t = none) :
    exec (.parse md t) s = raise .parse s := by
  simp only [exec, execParse, h]

/-- The text form of `M` loads `M` (R183). -/
theorem exec_parse_showText (md : MIdx) (M : Mat) : exec (.parse md (showText M)) s = checkedLoad md M s := by
  simp only [exec, execParse, textMat?_eq_some.mpr rfl, checkedLoad]

/-- Settles O56: a text is read as a value exactly when it is the text form of that value. -/
theorem parseCommand : Obligations.ParseCommand := by
  refine fun s md text => ⟨fun h => exec_parse_of_not_text md (textMat?_eq_none h), ?_, fun M => parseText_eq_some⟩
  rintro M rfl
  rw [exec_parse_showText]
  exact checkedLoad_completes s md M

/-! ### The stores (R175 to R179, R181) -/

/-- The state after a command that answers OK and changes no register, written out. -/
theorem done_eq (data : List Byte) : done data s = .next { s with
    st := { s.st with code := 0x00#8 }
    rsp := s.rsp ++ ([0x00#8, BitVec.ofNat 8 data.length, BitVec.ofNat 8 (data.length / 256)] ++ data) } := rfl

/-- Settles O55: the answers are the footprint and the text form, of 64 and 128 bytes. -/
theorem storeCommands : Obligations.StoreCommands := by
  intro s ma
  have hunpack : unpack ma s = .next { s with
      st := { s.st with code := 0x00#8 }
      rsp := s.rsp ++ [0x00, 0x40, 0x00] ++ (s.getM ma).words 8 64 } := by
    rw [unpack, done_eq, length_footprint, ← List.append_assoc, footprint_eq_words]
    rfl
  refine ⟨?_, ?_⟩
  · simp only [List.forall_mem_cons, List.not_mem_nil, false_implies, implies_true, and_true]
    exact ⟨hunpack, hunpack, hunpack, hunpack⟩
  · rw [exec, execShow, done_eq, length_showText, ← List.append_assoc]
    rfl

/-! ### What the stores answer, the loads read back (R185) -/

/-- A step executes the command whose encoding is in front of the stream (R75). -/
theorem step_encode_append {i : Instr} {rest : List Byte} (hr : s.resetIn = false) (hw : i.wellFormed = true)
    (hc : s.cmd = encode i ++ rest) : step s = exec i (s.consume rest) :=
  step_exec s hr (hc ▸ decode_encode_append i rest hw)

/-- The footprint after a header of LOADU is the encoding of a LOADU of its bytes (R74, R81). -/
theorem encode_loadu_words (md : MIdx) (M : Mat) : encode (.loadu md (M.words 8 64)) =
    headerBytes (headerP .loadu (matrixCode md) 0 64) ++ footprint M := by
  simp only [encode, Instr.header, Instr.payload, length_words, wordBytes_words rfl]

/-- A command with the header, the payload and the meaning of a PACKw, on the word list of `M`: its encoding is
the header with the footprint after it, and it is a checked load of `M`. -/
theorem encode_and_exec_of_pack {i : Instr} {o : Opcode} {w k n : Nat} {md : MIdx} {M : Mat}
    (hh : i.header = headerP o (matrixCode md) 0 (M.words w n).length)
    (hp : i.payload = wordBytes k (M.words w n)) (hx : ∀ s, exec i s = pack md (M.words w n) s)
    (hw : 8 * k = w) (hn : k * n = 64) (hd : 512 / w = n) :
    encode i = headerBytes (headerP o (matrixCode md) 0 n) ++ footprint M ∧
      ∀ s, exec i s = checkedLoad md M s := by
  have hwn : w * n = 512 := by rw [← hw, Nat.mul_assoc, hn]
  exact ⟨by rw [encode, hh, hp, length_words, wordBytes_words hw hn],
    fun s => (hx s).trans (pack_words hd hwn md M)⟩

/-- The footprint after a header of PACKw, of any width, is the encoding of a checked load of the value. -/
theorem exists_encode_pack {o : Opcode} {n : Nat}
    (h : (o, n) ∈ [(Opcode.pack8, 64), (.pack16, 32), (.pack32, 16), (.pack64, 8)]) (md : MIdx) (M : Mat) :
    ∃ i : Instr, i.wellFormed = true ∧
      encode i = headerBytes (headerP o (matrixCode md) 0 n) ++ footprint M ∧
      ∀ s, exec i s = checkedLoad md M s := by
  simp only [List.mem_cons, List.not_mem_nil, or_false, Prod.mk.injEq] at h
  rcases h with ⟨rfl, rfl⟩ | ⟨rfl, rfl⟩ | ⟨rfl, rfl⟩ | ⟨rfl, rfl⟩
  · exact ⟨.pack8 md (M.words 8 64), lenFits_words M _ (by decide),
      encode_and_exec_of_pack rfl rfl (fun _ => rfl) rfl rfl rfl⟩
  · exact ⟨.pack16 md (M.words 16 32), lenFits_words M _ (by decide),
      encode_and_exec_of_pack rfl rfl (fun _ => rfl) rfl rfl rfl⟩
  · exact ⟨.pack32 md (M.words 32 16), lenFits_words M _ (by decide),
      encode_and_exec_of_pack rfl rfl (fun _ => rfl) rfl rfl rfl⟩
  · exact ⟨.pack64 md (M.words 64 8), lenFits_words M _ (by decide),
      encode_and_exec_of_pack rfl rfl (fun _ => rfl) rfl rfl rfl⟩

/-- The text form after a header of PARSE is the encoding of a PARSE of it. -/
theorem encode_parse_showText (md : MIdx) (M : Mat) : encode (.parse md (showText M)) =
    headerBytes (headerP .parse (matrixCode md) 0 128) ++ showText M := by
  simp only [encode, Instr.header, Instr.payload, length_showText]

theorem done_setM_consume (s : State) (rest : List Byte) (md : MIdx) (M : Mat) :
    ∃ t, done [] ((s.consume rest).setM md M) = .next t ∧ t.getM md = M ∧ t.st.code = codeOk ∧ t.cmd = rest :=
  ⟨_, rfl, by simp, rfl, rfl⟩

/-- A step on a stream with a checked load in front. -/
theorem step_checkedLoad {i : Instr} {md : MIdx} {M : Mat} {rest : List Byte} (hr : s.resetIn = false)
    (hw : i.wellFormed = true) (hc : s.cmd = encode i ++ rest) (hx : ∀ s, exec i s = checkedLoad md M s) :
    (M.valid = true → ∃ t, step s = .next t ∧ t.getM md = M ∧ t.st.code = codeOk ∧ t.cmd = rest) ∧
    (M.valid = false → step s = .next ((s.consume rest).failed Err.invalid.code)) := by
  rw [step_encode_append hr hw hc, hx]
  refine ⟨fun h => ?_, fun h => checkedLoad_of_not_valid md h⟩
  rw [checkedLoad_of_valid md h]
  exact done_setM_consume s rest md M

/-- The data of an UNPACKw answer is the footprint. -/
theorem data_of_exec_unpack {i : Instr} {ma : MIdx} {t : State} {F : List Byte}
    (hi : i ∈ [Instr.unpack8 ma, .unpack16 ma, .unpack32 ma, .unpack64 ma]) (h : exec i s = .next t)
    (hrsp : t.rsp = s.rsp ++ [0x00, 0x40, 0x00] ++ F) : F = footprint (s.getM ma) := by
  cases h.symm.trans ((storeCommands s ma).1 i hi)
  rw [footprint_eq_words]
  exact (List.append_cancel_left hrsp).symm

/-- The data of a SHOW answer is the text form. -/
theorem data_of_exec_showm {ma : MIdx} {t : State} {T : List Byte} (h : exec (.showm ma) s = .next t)
    (hrsp : t.rsp = s.rsp ++ [0x00, 0x80, 0x00] ++ T) : T = showText (s.getM ma) := by
  cases h.symm.trans (storeCommands s ma).2
  exact (List.append_cancel_left hrsp).symm

/-- Settles O57: the streams are encodings of loads of the value that was stored. -/
theorem codecRoundTrips : Obligations.CodecRoundTrips := by
  rintro s ma md F T rest - ⟨t, i, hi, ht, hrsp⟩ ⟨t', ht', hrsp'⟩
  obtain rfl := data_of_exec_unpack hi ht hrsp
  obtain rfl := data_of_exec_showm ht' hrsp'
  refine ⟨fun u hr hc => ?_, ?_⟩
  · rw [← encode_loadu_words] at hc
    have hw : (Instr.loadu md ((s.getM ma).words 8 64)).wellFormed = true := lenFits_words _ 8 (by decide)
    rw [step_encode_append hr hw hc, exec_loadu_of_length md (length_words _ 8 64), ofWords_words rfl]
    exact done_setM_consume u rest md (s.getM ma)
  · rintro u o n hr (⟨ho, hc⟩ | ⟨ho, hc⟩)
    · obtain ⟨i, hw, he, hx⟩ := exists_encode_pack ho md (s.getM ma)
      rw [← he] at hc
      exact step_checkedLoad hr hw hc hx
    · cases ho
      rw [← encode_parse_showText] at hc
      have hw : (Instr.parse md (showText (s.getM ma))).wellFormed = true :=
        (lenFits_iff _).mpr (by rw [length_showText]; decide)
      exact step_checkedLoad hr hw hc fun _ => exec_parse_showText md (s.getM ma)

end Sys2Proof.Machine

namespace Sys2Proof.Machine

/-! ### The status register (R26, R200) -/

/-- R26: `CODE` in bits 7..0, `T` in bit 8, zero in bits 15..9. -/
theorem Status.word_fields (st : Status) : st.word.extractLsb' 0 8 = st.code ∧ st.word.getLsbD 8 = st.t ∧
    st.word.extractLsb' 9 7 = 0#7 := by
  refine ⟨BitVec.extractLsb'_append_eq_right, ?_, ?_⟩
  · rw [Status.word, BitVec.getLsbD_append, BitVec.getLsbD_append]
    simp
  · rw [Status.word, BitVec.extractLsb'_append_eq_of_le (by decide)]
    exact BitVec.extractLsb'_append_eq_left

/-- R200: the high byte of the word is `T`. -/
theorem Status.word_high_byte (st : Status) : st.word.extractLsb' 8 8 = truthByte st.t := by
  have h : st.word.extractLsb' 8 8 = 0#7 ++ BitVec.ofBool st.t := BitVec.extractLsb'_append_eq_left
  rw [h]
  cases st.t <;> rfl

/-- R200: the word, little-endian. -/
theorem Status.leDigits_word (st : Status) : leDigits 8 2 st.word.toNat = [st.code, truthByte st.t] := by
  rw [leDigits_eq_map, ← st.word_high_byte, ← st.word_fields.1]
  rfl

/-- R26: the record of a command other than RDST begins with the code it leaves in `ST`. -/
theorem Effect.rsp_eq_of_ne_rdst {s t : State} {i : Instr} (h : Effect s i t) (hi : i ≠ .rdst) :
    ∃ data, t.rsp = s.rsp ++ record t.st.code data := by
  cases h with
  | status hr => exact absurd hr hi
  | failed | register | slot => exact ⟨[], rfl⟩
  | answered _ data => exact ⟨data, rfl⟩

/-- R54: the record of an answer of two data bytes. -/
theorem record_pair (code x y : Byte) : record code [x, y] = [code, 0x02#8, 0x00#8, x, y] := by
  simp [record_eq]

/-- Settles O60: the data of RDST are the digits of the word; what other commands answer is read off `Effect`. -/
theorem rdstReadsStatus : Obligations.RdstReadsStatus := by
  refine ⟨fun s => ?_, fun s => s.st.word_fields, fun i s t hi h => ?_⟩
  · rw [exec, execRdst, s.st.leDigits_word, State.emit, record_pair]
    rfl
  · obtain ⟨data, hrsp⟩ := (effect_of_exec h).rsp_eq_of_ne_rdst hi
    exact ⟨_, hrsp⟩

end Sys2Proof.Machine

namespace Sys2Proof.Machine

variable {s t : State}

/-! ### Status codes and whole records stay (R54, R210) -/

/-- R54: no command answers more than the 128 characters of SHOW. -/
theorem dataLength_le (i : Instr) : i.dataLength ≤ 128 := by
  unfold Instr.dataLength
  split <;> decide

/-- A whole record goes out after whole records. -/
theorem Records.append_record {bs : List Byte} {code : Byte} {data : List Byte} (hbs : Records bs)
    (hcode : IsCode code) (hlen : data.length ≤ 128) (hdata : code ≠ codeOk → data = []) :
    Records (bs ++ record code data) := .more bs code data hbs hcode hlen hdata

/-- R26, R210: a command leaves a code of R210 in `ST`; RDST leaves the one it finds. -/
theorem Effect.isCode {i : Instr} (h : Effect s i t) (hs : IsCode s.st.code) : IsCode t.st.code := by
  cases h with
  | failed e => exact (Err.isCode e).1
  | status => exact hs
  | answered | register | slot => exact isCode_codeOk

/-- R54: a command sends out a whole record. -/
theorem Effect.records {i : Instr} (h : Effect s i t) (hs : Records s.rsp) : Records t.rsp := by
  obtain ⟨code, data, hrsp, hcode, hok, herr⟩ := h.exists_record
  have hlen : data.length ≤ 128 := by
    by_cases hc : code = codeOk
    · exact (hok hc).trans_le (dataLength_le i)
    · simp [herr hc]
  rw [hrsp]
  exact hs.append_record hcode hlen herr

/-- An error answers its code and a record without data (R216). -/
theorem State.Sound.failed (hs : s.Sound) (e : Err) : (s.failed e.code).Sound :=
  ⟨(Err.isCode e).1, hs.records.append_record (data := []) (Err.isCode e).1 (by simp) fun _ => rfl⟩

/-- Settles O19: reset starts afresh, an illegal header is answered by an error, and a command has one of the effects
of `Effect`. -/
theorem statusAndResponsesStaySound : Obligations.StatusAndResponsesStaySound := by
  intro s t hs h
  cases step_to h with
  | reset =>
    have hreset := sound_resetWith s.gen
    exact ⟨hreset.code, hreset.records⟩
  | hold => exact hs
  | illegal c rest =>
    have hs' : (s.consume rest).Sound := ⟨hs.code, hs.records⟩
    exact hs'.failed .illegal
  | command i rest _ _ he =>
    have heff := effect_of_exec he
    exact ⟨heff.isCode hs.code, heff.records hs.records⟩

/-! ### What an error code in an answer tells (R216) -/

/-- A state that answers one record, seen to begin with another code and other bytes: they are the record's. -/
theorem code_and_rest_of_record {code code' : Byte} {data more : List Byte}
    (hrec : t.rsp = s.rsp ++ record code data) (h : t.rsp = s.rsp ++ code' :: more) :
    code' = code ∧ more = leDigits 8 2 data.length ++ data :=
  List.cons.inj (List.append_cancel_left (h.symm.trans hrec))

/-- A failed state is determined by the code it answers, which carries no data. -/
theorem failed_of_rsp {e : Err} {code : Byte} {more : List Byte}
    (h : (s.failed e.code).rsp = s.rsp ++ code :: more) :
    more = [0x00#8, 0x00#8] ∧ s.failed e.code = s.failed code := by
  obtain ⟨rfl, hmore⟩ := code_and_rest_of_record (data := []) rfl h
  exact ⟨hmore, rfl⟩

/-- A command whose answer begins with an error code has failed: every other effect answers OK. -/
theorem Effect.eq_failed {i : Instr} {code : Byte} {more : List Byte} (h : Effect s i t)
    (hrsp : t.rsp = s.rsp ++ code :: more) (hne : code ≠ codeOk) :
    more = [0x00#8, 0x00#8] ∧ t = s.failed code := by
  cases h with
  | failed e => exact failed_of_rsp hrsp
  | status | answered | register | slot => exact absurd (code_and_rest_of_record rfl hrsp).1 hne

/-- Settles O14: a step that answers an error code met an illegal header or a command that failed. -/
theorem failedCommandChangesOnlyCode : Obligations.FailedCommandChangesOnlyCode := by
  intro s t code more hr h hrsp hne
  cases step_to h with
  | reset hr' => exact absurd (hr.symm.trans hr') (by decide)
  | hold => exact absurd hrsp (by simp)
  | illegal c rest _ hd =>
    obtain ⟨hmore, ht⟩ := failed_of_rsp (s := s.consume rest) hrsp
    exact ⟨hmore, rest, ht, .inl ⟨c, hd⟩⟩
  | command i rest _ hd he =>
    obtain ⟨hmore, ht⟩ := (effect_of_exec he).eq_failed hrsp hne
    exact ⟨hmore, rest, ht, .inr ⟨i, hd⟩⟩

/-- Settles O2: an illegal header raises E_ILLEGAL with its bytes consumed, and `raise` answers the failed state. -/
theorem illegalHeaderIsAnswered : Obligations.IllegalHeaderIsAnswered := fun s _ rest hr hd =>
  (step_illegal s hr hd).trans (raise_eq (s.consume rest) .illegal)

/-! ### Every command and every step goes on (R216, R228) -/

theorem exists_exec_next (i : Instr) (s : State) : ∃ t, exec i s = .next t :=
  let ⟨t, ht, _⟩ := exec_effect s i
  ⟨t, ht⟩

/-- Settles O11: under reset, on a hold and on an illegal header the next state is known, and every command takes
one. -/
theorem everyStepGoesOn : Obligations.EveryStepGoesOn := by
  refine ⟨fun s => ?_, exists_exec_next⟩
  cases hr : s.resetIn with
  | true => exact ⟨_, step_held s hr⟩
  | false =>
    cases hd : decode s.cmd with
    | incomplete => exact ⟨_, step_incomplete s hr hd⟩
    | illegal c rest => exact ⟨_, illegalHeaderIsAnswered s c rest hr hd⟩
    | command i rest =>
      rw [step_exec s hr hd]
      exact exists_exec_next i (s.consume rest)

end Sys2Proof.Machine

namespace Sys2Proof.Machine

/-! ### Reset drops what was under way (R240) -/

/-- Settles O25: the released engine is the reset state, on whose empty stream the bytes sent are the only ones;
a step of a held engine leaves `State.held`, the reset state with its input asserted. -/
theorem resetDropsUnfinishedCommand : Obligations.ResetDropsUnfinishedCommand := by
  refine ⟨fun s bytes => ?_, fun s => step_held s⟩
  have hreleased : (State.resetWith s.gen).resetIn = false := rfl
  have hempty : (State.resetWith s.gen).cmd = [] := rfl
  calc ((s.onHost .assertReset).onHost .releaseReset).onHost (.send bytes)
      = (State.resetWith s.gen).consume ((State.resetWith s.gen).cmd ++ bytes) := by
        rw [onHost_reset, onHost_send hreleased]
    _ = { State.resetWith s.gen with cmd := bytes } := by rw [hempty, List.nil_append, State.consume]

end Sys2Proof.Machine
